-- ==== Sys2Proof/Word.lean ====
section
/-! DEFINITION. The words of CORE: byte, sextet, 24-bit group, 16-bit command or response word (spec 00_scope.md R7, R8). -/

namespace Sys2Proof

/-- One byte of payload or one character of text (R7: 8 bits). -/
abbrev Byte := BitVec 8

/-- A 6-bit value of the Alphabet (R7, GLOSSARY). -/
abbrev Sextet := BitVec 6

/-- The 24 bits of one chunk (R7, R55). -/
abbrev Group := BitVec 24

/-- A command word, a response word, or a 16-bit register (R7). -/
abbrev Word := BitVec 16

end Sys2Proof
end

