-- ==== Sys2Proof/Machine/Bits.lean ====
section
/-! DEFINITION. The concatenation `a ## b` of 00_scope.md R9. -/

namespace Sys2Proof

/-- `a ## b` in `w` bits, `w` being the sum of the two widths: `a` is the more significant part (R9). -/
def cat {m n : Nat} (w : Nat) (a : BitVec m) (b : BitVec n) : BitVec w := (a.setWidth w <<< n) ||| b.setWidth w

end Sys2Proof
end

