-- ==== Sys2Proof/Config.lean ====
section
/-! DEFINITION. What an implementation fixes (the two open capacities) and the free values of the hidden working registers. -/

namespace Sys2Proof

/-- The two open parameters of CORE (00_scope.md R6): the capacities of `IBUF.E` in bytes and of `IBUF.D` in characters. -/
structure Params where
  ecap : Nat
  dcap : Nat
  deriving DecidableEq, Repr

/-- The default capacities of R6. No statement rests on them. -/
def Params.default : Params := { ecap := 192, dcap := 256 }

/-! The free values (notes/assumptions/6.md): between commands the working registers are unspecified (10_state.md R25,
93_implementation_defined.md U2, "any value"). Each constant below has no body, so nothing can be proved about its values. A unit
applies it to its own counter, which advances each time. -/

/-- What `PACK` holds after a run or after `rst`. -/
opaque Config.freePack : Nat → BitVec 24

/-- What `EI` holds after a run or after `rst`. -/
opaque Config.freeEi : Nat → Word

/-- What `EO` holds after a run or after `rst`. -/
opaque Config.freeEo : Nat → Word

/-- What `PADCNT` holds after a run or after `rst`. -/
opaque Config.freePadcnt : Nat → BitVec 2

/-- What `DI` holds after a run or after `rst`. -/
opaque Config.freeDi : Nat → Word

/-- What `DO` holds after a run or after `rst`. -/
opaque Config.freeDo : Nat → Word

/-- What `ACC` holds after a run or after `rst`. -/
opaque Config.freeAcc : Nat → BitVec 12

/-- What `NB` holds after a run or after `rst`. -/
opaque Config.freeNb : Nat → BitVec 4

end Sys2Proof
end

