-- ==== Sys2Proof/Syntax.lean ====
section
/-! DEFINITION. The fourteen commands of B64C version 1 (30_encoding.md R49), and the fields of a raw command word (R44). -/

namespace Sys2Proof

/-- One constructor for each row of the opcode table (R49). A push carries its operand `DATA` (R46). -/
inductive Instr where
  /-- `ECLR`, R62. -/
  | eclr
  /-- `DCLR`, R63. -/
  | dclr
  /-- `EPUSH b`, R64. -/
  | epush (b : Byte)
  /-- `DPUSH c`, R65. -/
  | dpush (c : Byte)
  /-- `ENC`, R76. -/
  | enc
  /-- `DEC`, R89. -/
  | dec
  /-- `EPOP`, R66. -/
  | epop
  /-- `DPOP`, R67. -/
  | dpop
  /-- `ESTAT`, R68. -/
  | estat
  /-- `DSTAT`, R69. -/
  | dstat
  /-- `EOLEN`, R70. -/
  | eolen
  /-- `DOLEN`, R71. -/
  | dolen
  /-- `EILEN`, R72. -/
  | eilen
  /-- `DILEN`, R73. -/
  | dilen
  deriving DecidableEq, Repr

/-- The fields of the C-format, the one command format (R44): `OP` 15:13, `U` 12, `Z` 11:8, `DATA` 7:0. -/
structure CFormat where
  op : BitVec 3
  u : BitVec 1
  z : BitVec 4
  data : Byte
  deriving DecidableEq, Repr

/-- Why a command word is illegal (R50, in the order of its three clauses). -/
inductive Illegal where
  /-- `OP` = 0b000. -/
  | opZero
  /-- `Z` is not 0b0000. -/
  | reservedNotZero
  /-- `OP` is not push and `DATA` is not 0x00. -/
  | dataNotZero
  deriving DecidableEq, Repr

end Sys2Proof
end

