-- ==== Sys2Proof/WellFormed.lean ====
section
/-! DEFINITION. The static checks: of a raw command word's fields (30_encoding.md R45, R50), of an instruction, of the parameters (R6). -/

namespace Sys2Proof

/-- The fields form a legal command: none of the three clauses of R50 holds. -/
def CFormat.wf (f : CFormat) : Bool :=
  f.op != 0#3 && f.z == 0#4 && (f.op == 2#3 || f.data == 0#8)

/-- Every term of `Instr` is a command: its one operand is a byte, and a byte may have any value (R46). -/
def Instr.wf : Instr → Bool
  | .eclr => true
  | .dclr => true
  | .epush _ => true
  | .dpush _ => true
  | .enc => true
  | .dec => true
  | .epop => true
  | .dpop => true
  | .estat => true
  | .dstat => true
  | .eolen => true
  | .dolen => true
  | .eilen => true
  | .dilen => true

/-- The capacities are in the ranges of R6. -/
def Params.wf (p : Params) : Bool :=
  decide (1 ≤ p.ecap) && decide (p.ecap ≤ 49149) && decide (1 ≤ p.dcap) && decide (p.dcap ≤ 65535)

end Sys2Proof
end

