-- ==== Sys2Proof/Decode.lean ====
section
/-! DEFINITION. From a command word to a command or an illegal word (30_encoding.md R44 to R51), and back. -/

namespace Sys2Proof

/-- The fields of a word (R44). -/
def cFormatOf (w : Word) : CFormat :=
  { op := w.extractLsb' 13 3, u := w.extractLsb' 12 1, z := w.extractLsb' 8 4, data := w.extractLsb' 0 8 }

/-- The command that `U` selects: unit E on 0, unit D on 1 (R45). -/
def byUnit (u : BitVec 1) (onE onD : Instr) : Instr := if u = 0#1 then onE else onD

/-- The command of the fields, or the first clause of R50 that they break. -/
def decodeFields (f : CFormat) : Except Illegal Instr :=
  if f.op = 0#3 then .error .opZero
  else if f.z ≠ 0#4 then .error .reservedNotZero
  else if f.op = 2#3 then .ok (byUnit f.u (.epush f.data) (.dpush f.data))
  else if f.data ≠ 0#8 then .error .dataNotZero
  else if f.op = 1#3 then .ok (byUnit f.u .eclr .dclr)
  else if f.op = 3#3 then .ok (byUnit f.u .enc .dec)
  else if f.op = 4#3 then .ok (byUnit f.u .epop .dpop)
  else if f.op = 5#3 then .ok (byUnit f.u .estat .dstat)
  else if f.op = 6#3 then .ok (byUnit f.u .eolen .dolen)
  else .ok (byUnit f.u .eilen .dilen)

/-- Decoding is total, and reads nothing but the word (R51). -/
def decode (w : Word) : Except Illegal Instr := decodeFields (cFormatOf w)

/-- The word of four fields, `OP` first (R44). -/
def cWord (op : BitVec 3) (u : BitVec 1) (z : BitVec 4) (data : Byte) : Word := cat 16 (cat 8 (cat 4 op u) z) data

/-- The word of a command, from the `OP` and `U` columns of R49. -/
def encode : Instr → Word
  | .eclr => cWord 1#3 0#1 0#4 0#8
  | .dclr => cWord 1#3 1#1 0#4 0#8
  | .epush b => cWord 2#3 0#1 0#4 b
  | .dpush c => cWord 2#3 1#1 0#4 c
  | .enc => cWord 3#3 0#1 0#4 0#8
  | .dec => cWord 3#3 1#1 0#4 0#8
  | .epop => cWord 4#3 0#1 0#4 0#8
  | .dpop => cWord 4#3 1#1 0#4 0#8
  | .estat => cWord 5#3 0#1 0#4 0#8
  | .dstat => cWord 5#3 1#1 0#4 0#8
  | .eolen => cWord 6#3 0#1 0#4 0#8
  | .dolen => cWord 6#3 1#1 0#4 0#8
  | .eilen => cWord 7#3 0#1 0#4 0#8
  | .dilen => cWord 7#3 1#1 0#4 0#8

/-- The "match" column of R49. -/
def matchOf : Instr → Word
  | .eclr => 0x2000#16
  | .dclr => 0x3000#16
  | .epush _ => 0x4000#16
  | .dpush _ => 0x5000#16
  | .enc => 0x6000#16
  | .dec => 0x7000#16
  | .epop => 0x8000#16
  | .dpop => 0x9000#16
  | .estat => 0xA000#16
  | .dstat => 0xB000#16
  | .eolen => 0xC000#16
  | .dolen => 0xD000#16
  | .eilen => 0xE000#16
  | .dilen => 0xF000#16

/-- The "mask" column of R49. -/
def maskOf : Instr → Word
  | .epush _ => 0xFF00#16
  | .dpush _ => 0xFF00#16
  | .eclr => 0xFFFF#16
  | .dclr => 0xFFFF#16
  | .enc => 0xFFFF#16
  | .dec => 0xFFFF#16
  | .epop => 0xFFFF#16
  | .dpop => 0xFFFF#16
  | .estat => 0xFFFF#16
  | .dstat => 0xFFFF#16
  | .eolen => 0xFFFF#16
  | .dolen => 0xFFFF#16
  | .eilen => 0xFFFF#16
  | .dilen => 0xFFFF#16

/-- The operand a command carries, if any (R46). -/
def operandOf : Instr → Option Byte
  | .epush b => some b
  | .dpush c => some c
  | .eclr => none
  | .dclr => none
  | .enc => none
  | .dec => none
  | .epop => none
  | .dpop => none
  | .estat => none
  | .dstat => none
  | .eolen => none
  | .dolen => none
  | .eilen => none
  | .dilen => none

/-- The command word of a table row's bits: every bit at or above `nbits` is 0. A command is one 16-bit word (R51). -/
def tableWord (nbits w : Nat) : Word := BitVec.ofNat 16 (w % 2 ^ nbits)

/-- What the decoder reads from a row of spec/opcode_table.json whose bits are `w`. -/
def decodeTableWord (nbits w : Nat) : Option Instr :=
  match decode (tableWord nbits w) with
  | .ok i => some i
  | .error _ => none

end Sys2Proof
end

