-- ==== Sys2Proof/Machine/State.lean ====
section
/-! DEFINITION. Everything the spec gives CORE (10_state.md R11), the model's own fields beside it, and the state after reset (R26). -/

namespace Sys2Proof.Machine

/-- The two units (R7: E = unit 0, D = unit 1). -/
inductive UnitId where
  | e
  | d
  deriving DecidableEq, Repr

/-- The outcome `RES.u` of the unit's last run (R18). -/
inductive Res where
  | none
  | ok
  | malformed
  | fault
  deriving DecidableEq, Repr

/-- The validation step that failed (R19, R104). -/
inductive FailKind where
  | length
  | padding
  | char
  | padBits
  deriving DecidableEq, Repr

/-- `EKIND`: 0, or the kind of the failure. The codes 5, 6, 7 are never produced (R19) and have no term. -/
inductive EKind where
  | none
  | fail (k : FailKind)
  deriving DecidableEq, Repr

/-- `STG.E` (R17): `E_IDLE`, `E_CHUNK`, `E_TAIL`, `E_DONE`. -/
inductive StageE where
  | idle
  | chunk
  | tail
  | done
  deriving DecidableEq, Repr

/-- `STG.D` (R17): `D_START`, `D_LENGTHCHECKED`, `D_PADDINGCOUNTED`, `D_CHARSCAN`, `D_PADDINGBITSCHECKED`, `D_REASSEMBLED`,
`D_DONE`, `D_FAILED`. -/
inductive StageD where
  | start
  | lengthChecked
  | paddingCounted
  | charScan
  | paddingBitsChecked
  | reassembled
  | done
  | failed
  deriving DecidableEq, Repr

/-- A message buffer: the elements that hold a value, by index, indices strictly rising. An index that is not listed holds no value
(R26: "A model should represent an unspecified element as "no value""). -/
abbrev Memory := List Host.Cell

/-- What each unit has a copy of (R11). -/
structure UnitRegs where
  /-- `IBUF.u`, R12. -/
  ibuf : Memory
  /-- `ILEN.u`, R13. -/
  ilen : Word
  /-- `OBUF.u`, R14. -/
  obuf : Memory
  /-- `OLEN.u`, R15. -/
  olen : Word
  /-- `RPTR.u`, R16. -/
  rptr : Word
  /-- `RES.u`, R18. -/
  res : Res
  /-- `OVF.u`, R20. -/
  ovf : Bool
  deriving DecidableEq, Repr

/-- Unit E. `EKIND.E` is hardwired to 0 (R19) and has no storage: see `readEkind`. -/
structure UnitE where
  regs : UnitRegs
  /-- `STG.E`, R17. -/
  stg : StageE
  /-- `PACK`, R21. -/
  pack : BitVec 24
  /-- `EI`, R21. -/
  ei : Word
  /-- `EO`, R21. -/
  eo : Word
  /-- The model's own: how many times this unit's working registers took a free value (notes/assumptions/6.md). -/
  free : Nat
  deriving DecidableEq, Repr

/-- Unit D. -/
structure UnitD where
  regs : UnitRegs
  /-- `EKIND.D`, R19. -/
  ekind : EKind
  /-- `STG.D`, R17. -/
  stg : StageD
  /-- `PADCNT`, R23. -/
  padcnt : BitVec 2
  /-- `DI`, R23. -/
  di : Word
  /-- `DO`, R23. -/
  dOut : Word
  /-- `ACC`, R23. -/
  acc : BitVec 12
  /-- `NB`, R23. -/
  nb : BitVec 4
  /-- The model's own: how many times this unit's working registers took a free value (notes/assumptions/6.md). -/
  free : Nat
  deriving DecidableEq, Repr

/-- One input of the host: a command word on the command port (R44), or the reset input `rst` asserted between two commands
(R121, R123). -/
inductive PortInput where
  | command (w : Word)
  | rst
  deriving DecidableEq, Repr

/-- The machine. `e` and `d` are CORE's state (R11); `cfg`, `port` and `resps` are the model's own: the parameters, the host's inputs
not yet taken (oldest first) and the responses returned (oldest first), which R27 says are not state of CORE. -/
structure State where
  cfg : Params
  e : UnitE
  d : UnitD
  port : List PortInput
  resps : List Word
  deriving DecidableEq, Repr

/-- Why the model stops. No run from reset raises any of them, and each is safe: the machine it models does not stop. -/
inductive Fault where
  /-- A buffer element that holds no value is read: `bufRead`, so a pop, `ENC` or `DEC`. R26 asks for it and R37 says it is unreachable.
  Safe. -/
  | unwrittenElement
  /-- A buffer is read or written at or above its capacity: `bufRead`, `bufWrite`, so a pop, `ENC` or `DEC` (a push tests first).
  R34 says it is unreachable. Safe. -/
  | indexOutOfRange
  /-- A run has not come back to its idle stage within the turns of R85 or R97: `runE`, `runD`. R133 says every run ends. Safe. -/
  | runUnfinished
  deriving DecidableEq, Repr

/-- Why an instruction has no meaning. -/
inductive Refusal where
  /-- The instruction's arm of `exec` has no meaning yet: raised by `exec` alone, and by no arm of this model. Safe. -/
  | notModelled (mnemonic : String)
  deriving DecidableEq, Repr

/-- Each unit's copy after reset (R26): lengths, pointer and overflow 0, outcome `NONE`, every buffer element without a value. -/
def UnitRegs.reset : UnitRegs :=
  { ibuf := [], ilen := 0#16, obuf := [], olen := 0#16, rptr := 0#16, res := .none, ovf := false }

/-- The machine right after reset (R26), with the default capacities (R6) and no input pending. The spec leaves the working registers
unspecified; zero is this model's choice (DESIGN CHOICE, unsafe, notes/assumptions/5.md). -/
def State.reset : State :=
  { cfg := Params.default
    e := { regs := UnitRegs.reset, stg := .idle, pack := 0#24, ei := 0#16, eo := 0#16, free := 0 }
    d := { regs := UnitRegs.reset, ekind := .none, stg := .start, padcnt := 0#2, di := 0#16, dOut := 0#16, acc := 0#12, nb := 0#4,
           free := 0 }
    port := []
    resps := [] }

end Sys2Proof.Machine
end

