-- ==== Sys2Proof/Machine/Tables.lean ====
section
/-! DEFINITION. The two read-only memories `ALPHA` and `DTAB` (30_encoding.md R52 to R54) and the padding character. -/

namespace Sys2Proof.Machine

/-- The padding character `=`, `PADCH` (R53). -/
def padch : Byte := 0x3D#8

/-- The contents of `ALPHA`, the byte column of R52, values 0 to 63 in order. -/
def alphaRom : List Byte :=
  [0x41#8, 0x42#8, 0x43#8, 0x44#8, 0x45#8, 0x46#8, 0x47#8, 0x48#8, 0x49#8, 0x4A#8, 0x4B#8, 0x4C#8, 0x4D#8, 0x4E#8, 0x4F#8, 0x50#8]
    ++ [0x51#8, 0x52#8, 0x53#8, 0x54#8, 0x55#8, 0x56#8, 0x57#8, 0x58#8, 0x59#8, 0x5A#8, 0x61#8, 0x62#8, 0x63#8, 0x64#8, 0x65#8, 0x66#8]
    ++ [0x67#8, 0x68#8, 0x69#8, 0x6A#8, 0x6B#8, 0x6C#8, 0x6D#8, 0x6E#8, 0x6F#8, 0x70#8, 0x71#8, 0x72#8, 0x73#8, 0x74#8, 0x75#8, 0x76#8]
    ++ [0x77#8, 0x78#8, 0x79#8, 0x7A#8, 0x30#8, 0x31#8, 0x32#8, 0x33#8, 0x34#8, 0x35#8, 0x36#8, 0x37#8, 0x38#8, 0x39#8, 0x2B#8, 0x2F#8]

/-- `ALPHA[v]`: one read of the Alphabet (R79). A sextet is 0 to 63, so the lookup cannot fail. -/
def alpha (v : Sextet) : Byte := alphaRom.getD v.toNat padch

/-- The sentinel "invalid" of an entry of `DTAB`: `INV` = 1, `VAL` = 0 (R54). -/
def invalidEntry : BitVec 7 := 0x40#7

/-- A row of R54's table with no valid entry. -/
def invalidRow : List (BitVec 7) := List.replicate 16 invalidEntry

/-- The contents of `DTAB`, the table of R54 row by row; an entry is `INV` (bit 6) and `VAL` (bits 5:0). -/
def dtabRom : List (BitVec 7) :=
  invalidRow
    ++ invalidRow
    ++ [0x40#7, 0x40#7, 0x40#7, 0x40#7, 0x40#7, 0x40#7, 0x40#7, 0x40#7, 0x40#7, 0x40#7, 0x40#7, 62#7, 0x40#7, 0x40#7, 0x40#7, 63#7]
    ++ [52#7, 53#7, 54#7, 55#7, 56#7, 57#7, 58#7, 59#7, 60#7, 61#7, 0x40#7, 0x40#7, 0x40#7, 0x40#7, 0x40#7, 0x40#7]
    ++ [0x40#7, 0#7, 1#7, 2#7, 3#7, 4#7, 5#7, 6#7, 7#7, 8#7, 9#7, 10#7, 11#7, 12#7, 13#7, 14#7]
    ++ [15#7, 16#7, 17#7, 18#7, 19#7, 20#7, 21#7, 22#7, 23#7, 24#7, 25#7, 0x40#7, 0x40#7, 0x40#7, 0x40#7, 0x40#7]
    ++ [0x40#7, 26#7, 27#7, 28#7, 29#7, 30#7, 31#7, 32#7, 33#7, 34#7, 35#7, 36#7, 37#7, 38#7, 39#7, 40#7]
    ++ [41#7, 42#7, 43#7, 44#7, 45#7, 46#7, 47#7, 48#7, 49#7, 50#7, 51#7, 0x40#7, 0x40#7, 0x40#7, 0x40#7, 0x40#7]
    ++ invalidRow
    ++ invalidRow
    ++ invalidRow
    ++ invalidRow
    ++ invalidRow
    ++ invalidRow
    ++ invalidRow
    ++ invalidRow

/-- `DTAB[c]`: one read of the decoding table (R54). Every byte has an entry. -/
def dtab (c : Byte) : BitVec 7 := dtabRom.getD c.toNat invalidEntry

/-- `DTAB[c].INV` (R54). -/
def dtabInv (c : Byte) : Bool := (dtab c).getLsbD 6

/-- `DTAB[c].VAL` (R54). -/
def dtabVal (c : Byte) : Sextet := (dtab c).extractLsb' 0 6

end Sys2Proof.Machine
end

