-- ==== Sys2Proof/Machine/Operands.lean ====
section
/-! DEFINITION. The group layout (30_encoding.md R55, R56), the accumulator's arithmetic (42_decoder.md R95), the capacities
(00_scope.md R6) and the accessors of a unit's registers. -/

namespace Sys2Proof.Machine

/-- `B0 ## B1 ## B2`, the first byte in bits 23:16 (R55, R78). A missing byte of a final partial chunk is taken as zero (R56). -/
def pack3 (b0 b1 b2 : Byte) : Group := cat 24 (cat 16 b0 b1) b2

/-- The sextet `S0`, bits 23:18 (R55, R79). -/
def sextet0 (g : Group) : Sextet := g.extractLsb' 18 6

/-- The sextet `S1`, bits 17:12. -/
def sextet1 (g : Group) : Sextet := g.extractLsb' 12 6

/-- The sextet `S2`, bits 11:6. -/
def sextet2 (g : Group) : Sextet := g.extractLsb' 6 6

/-- The sextet `S3`, bits 5:0. -/
def sextet3 (g : Group) : Sextet := g.extractLsb' 0 6

/-- The padding bits that `PADCNT` trailing `=` leave in the last significant sextet are not zero: `VAL[1:0]` for one `=`,
`VAL[3:0]` for two, nothing to test for none (R94). -/
def padBitsNonzero (p : Nat) (v : Sextet) : Bool :=
  (p == 1 && v.extractLsb' 0 2 != 0#2) || (p == 2 && v.extractLsb' 0 4 != 0#4)

/-- `(ACC << 6) | VAL`, in 12 bits (R95). -/
def accShiftIn (acc : BitVec 12) (v : Sextet) : BitVec 12 := (acc <<< 6) ||| v.setWidth 12

/-- `(ACC >> NB)[7:0]`: the top 8 of the buffered bits, `nb` being what is left after the emission (R95). -/
def accEmit (acc : BitVec 12) (nb : BitVec 4) : Byte := (acc >>> nb.toNat).setWidth 8

/-- `ACC & ((1 << NB) - 1)`: the remainder that is retained (R95). -/
def accRetain (acc : BitVec 12) (nb : BitVec 4) : BitVec 12 := acc &&& ((1#12 <<< nb.toNat) - 1#12)

/-- `EOCAP = ceil(ECAP/3)*4` (R6). -/
def eocap (p : Params) : Nat := (p.ecap + 2) / 3 * 4

/-- `DOCAP = floor(DCAP/4)*3` (R6). -/
def docap (p : Params) : Nat := p.dcap / 4 * 3

/-- `ICAP.u`, the capacity of `IBUF.u` (R11). -/
def icap (p : Params) : UnitId → Nat
  | .e => p.ecap
  | .d => p.dcap

/-- `OCAP.u`, the capacity of `OBUF.u` (R11). -/
def ocap (p : Params) : UnitId → Nat
  | .e => eocap p
  | .d => docap p

/-- The registers of the addressed unit (R11). -/
def getRegs : UnitId → State → UnitRegs
  | .e, s => s.e.regs
  | .d, s => s.d.regs

/-- The addressed unit's registers replaced; the other unit is untouched (R40). -/
def setRegs : UnitId → UnitRegs → State → State
  | .e, r, s => { s with e := { s.e with regs := r } }
  | .d, r, s => { s with d := { s.d with regs := r } }

/-- Reading `EKIND.u`. `EKIND.E` is hardwired to 0 (R19). -/
def readEkind : UnitId → State → EKind
  | .e, _ => .none
  | .d, s => s.d.ekind

/-- Writing `EKIND.u`. A write of `EKIND.E` is discarded (R19). -/
def writeEkind : UnitId → EKind → State → State
  | .e, _, s => s
  | .d, k, s => { s with d := { s.d with ekind := k } }

end Sys2Proof.Machine
end

