-- ==== Sys2Proof/Machine/Flags.lean ====
section
/-! DEFINITION. The codes of the status fields (10_state.md R18 to R20) and the two response words (30_encoding.md R47, R48). -/

namespace Sys2Proof.Machine

/-- The code of `RES` (R18). -/
def Res.code : Res → BitVec 2
  | .none => 0#2
  | .ok => 1#2
  | .malformed => 2#2
  | .fault => 3#2

/-- The code of `EKIND` (R19). -/
def EKind.code : EKind → BitVec 3
  | .none => 0#3
  | .fail .length => 1#3
  | .fail .padding => 2#3
  | .fail .char => 3#3
  | .fail .padBits => 4#3

/-- The S-format: `ILL` 15, `EMPTY` 14, `OVF` 13, `RES` 12:11, `EKIND` 10:8, `DATA` 7:0 (R47). -/
def sWord (ill empty ovf : Bool) (res : Res) (ekind : EKind) (data : Byte) : Word :=
  cat 16 (cat 8 (cat 5 (cat 3 (cat 2 (BitVec.ofBool ill) (BitVec.ofBool empty)) (BitVec.ofBool ovf)) res.code) ekind.code) data

/-- The response to an illegal command: `ILL` = 1 and every other bit 0 (R47, R74). -/
def illegalWord : Word := sWord true false false .none .none 0#8

/-- The S-format response of a legal command of unit `u`: `OVF`, `RES`, `EKIND` are the unit's values in `s`, the state after the
command (R47). -/
def statusWord (u : UnitId) (empty : Bool) (data : Byte) (s : State) : Word :=
  sWord false empty (getRegs u s).ovf (getRegs u s).res (readEkind u s) data

/-- The L-format: the 16-bit value of a length register (R48). -/
def lWord (v : Word) : Word := v

end Sys2Proof.Machine
end

