-- ==== Sys2Proof/Machine/Ops.lean ====
section
/-! DEFINITION. The operations the commands share: buffers, responses, clear, push, pop, and the two primitives `raise Fail` and
`raise Fault` (60_exceptions.md R104, R105), which stand in CORE where a processor takes an exception. -/

namespace Sys2Proof.Machine

/-- The canonical form of a buffer: indices strictly rising. An unlisted element holds no value, so no listed entry can equal it. -/
def Memory.wf (m : Memory) : Bool := decide (m.Pairwise fun x y => x.1 < y.1)

/-- The element at an index, if it holds a value. -/
def Memory.find : Memory → Nat → Option Byte
  | [], _ => none
  | (j, b) :: m, i => if j = i then some b else Memory.find m i

/-- The buffer with the element at `i` set, in canonical form. -/
def Memory.insert : Memory → Nat → Byte → Memory
  | [], i, v => [(i, v)]
  | (j, b) :: m, i, v =>
    if i < j then (i, v) :: (j, b) :: m
    else if i = j then (i, v) :: m
    else (j, b) :: Memory.insert m i v

/-- The first `n` elements in index order, when each of them holds a value: the message `S[0 .. n-1]` (R30). -/
def Memory.firstN (m : Memory) : Nat → Option (List Byte)
  | 0 => some []
  | n + 1 =>
    match Memory.firstN m n, Memory.find m n with
    | some bs, some b => some (bs ++ [b])
    | _, _ => none

/-- `MemRead(S:i, 1)` (R9, R31). -/
def bufRead (cap : Nat) (m : Memory) (i : Nat) : Except Fault Byte :=
  if i < cap then
    match Memory.find m i with
    | some b => .ok b
    | none => .error .unwrittenElement
  else .error .indexOutOfRange

/-- `MemWrite(S:i, 1, v)` (R9, R31). -/
def bufWrite (cap : Nat) (m : Memory) (i : Nat) (v : Byte) : Except Fault Memory :=
  if i < cap then .ok (Memory.insert m i v) else .error .indexOutOfRange

/-- Four characters at consecutive indices, the first at the lowest (R79). -/
def bufWrite4 (cap : Nat) (m : Memory) (i : Nat) (c0 c1 c2 c3 : Byte) : Except Fault Memory := do
  let m ← bufWrite cap m i c0
  let m ← bufWrite cap m (i + 1) c1
  let m ← bufWrite cap m (i + 2) c2
  bufWrite cap m (i + 3) c3

/-- `resp <- r`: the port returns one response word (R60, R61). -/
def respond (r : Word) (s : State) : State := { s with resps := s.resps ++ [r] }

/-- `resp <- S(DATA = data)` or `S(EMPTY = 1)`, with the unit's status as `s` holds it (R47). -/
def respondStatus (u : UnitId) (empty : Bool) (data : Byte) (s : State) : State := respond (statusWord u empty data s) s

/-- An illegal command word: the response is the only trace (R74). -/
def illegalCommand (s : State) : State := respond illegalWord s

/-- The result is discarded: `OLEN.u`, `RPTR.u` to 0 and `RES.u` to `NONE` (R64, R65). `EKIND.u` is written beside it. -/
def UnitRegs.discardResult (r : UnitRegs) : UnitRegs := { r with olen := 0#16, rptr := 0#16, res := .none }

/-- The registers of a cleared unit (R62, R63): the elements of the two buffers keep what they hold. -/
def UnitRegs.cleared (r : UnitRegs) : UnitRegs := { r.discardResult with ilen := 0#16, ovf := false }

/-- `ECLR`, `DCLR` (R62, R63). -/
def clearUnit (u : UnitId) (s : State) : State :=
  respondStatus u false 0#8 (writeEkind u .none (setRegs u (getRegs u s).cleared s))

/-- The registers after a push on a buffer of capacity `cap`: append at `ILEN.u`, or drop the byte and set `OVF.u` (R64, R65). -/
def pushRegs (cap : Nat) (b : Byte) (r : UnitRegs) : Except Fault UnitRegs :=
  if r.ilen.toNat < cap then
    match bufWrite cap r.ibuf r.ilen.toNat b with
    | .ok m => .ok { r.discardResult with ibuf := m, ilen := r.ilen + 1#16 }
    | .error f => .error f
  else .ok { r.discardResult with ovf := true }

/-- `EPUSH`, `DPUSH` (R64, R65). -/
def pushUnit (u : UnitId) (b : Byte) (s : State) : Host.Outcome State Fault Refusal :=
  match pushRegs (icap s.cfg u) b (getRegs u s) with
  | .ok r => .next (respondStatus u false 0#8 (writeEkind u .none (setRegs u r s)))
  | .error f => .fault f

/-- `EPOP`, `DPOP` (R66, R67): the element at `RPTR.u`, or the empty pop, which changes nothing (R116). -/
def popUnit (u : UnitId) (s : State) : Host.Outcome State Fault Refusal :=
  if (getRegs u s).res = .ok ∧ (getRegs u s).rptr < (getRegs u s).olen then
    match bufRead (ocap s.cfg u) (getRegs u s).obuf (getRegs u s).rptr.toNat with
    | .ok v => .next (respondStatus u false v (setRegs u { getRegs u s with rptr := (getRegs u s).rptr + 1#16 } s))
    | .error f => .fault f
  else .next (respondStatus u true 0#8 s)

/-- `ESTAT`, `DSTAT` (R68, R69). -/
def statusUnit (u : UnitId) (s : State) : State := respondStatus u false 0#8 s

/-- `EOLEN`, `DOLEN` (R70, R71). -/
def outLenUnit (u : UnitId) (s : State) : State := respond (lWord (getRegs u s).olen) s

/-- `EILEN`, `DILEN` (R72, R73). -/
def inLenUnit (u : UnitId) (s : State) : State := respond (lWord (getRegs u s).ilen) s

/-- The first line of a run: `OLEN.u <- 0; RPTR.u <- 0; EKIND.u <- 0` (R76, R89). -/
def beginRun (u : UnitId) (s : State) : State :=
  writeEkind u .none (setRegs u { getRegs u s with olen := 0#16, rptr := 0#16 } s)

/-- `raise Fault` (R105): the run is refused, with the response 0x3800. -/
def raiseFault (u : UnitId) (s : State) : State :=
  respondStatus u false 0#8
    (writeEkind u .none (setRegs u { getRegs u s with olen := 0#16, rptr := 0#16, res := .fault } s))

/-- `raise Fail(kind)` (R104), up to `STG.D <- D_FAILED`; the stage walk ends the command. -/
def raiseFail (k : FailKind) (d : UnitD) : UnitD :=
  { d with regs := { d.regs with olen := 0#16, rptr := 0#16, res := .malformed }, ekind := .fail k, stg := .failed }

/-- Unit E's working registers between commands are unspecified (R25, U2): each takes a free value (notes/assumptions/6.md). -/
def UnitE.forget (e : UnitE) : UnitE :=
  { e with pack := Config.freePack e.free, ei := Config.freeEi e.free, eo := Config.freeEo e.free, free := e.free + 1 }

/-- Unit D's working registers between commands are unspecified (R25, U2): each takes a free value (notes/assumptions/6.md). -/
def UnitD.forget (d : UnitD) : UnitD :=
  { d with
    padcnt := Config.freePadcnt d.free
    di := Config.freeDi d.free
    dOut := Config.freeDo d.free
    acc := Config.freeAcc d.free
    nb := Config.freeNb d.free
    free := d.free + 1 }

/-- `rst` asserted between two commands (R121 to R123): both units go to the state of R26, no response is returned, and every element
of the four buffers and every working register is unspecified. -/
def resetUnits (s : State) : State :=
  { s with
    e := { s.e.forget with regs := UnitRegs.reset, stg := .idle }
    d := { s.d.forget with regs := UnitRegs.reset, ekind := .none, stg := .start } }

end Sys2Proof.Machine
end

