-- ==== Sys2Proof/Machine/Decoder.lean ====
section
/-! DEFINITION. Unit D's run: the command `DEC` (42_decoder.md R89), stage by stage as R97 gives the stages. -/

namespace Sys2Proof.Machine

/-- `T[i]`, that is `IBUF.D[i]` (R89). -/
def textAt (p : Params) (d : UnitD) (i : Nat) : Except Fault Byte := bufRead p.dcap d.regs.ibuf i

/-- `m = n - PADCNT`, the length of the non-padding prefix (R89 step 4). -/
def prefixLen (d : UnitD) : Nat := d.regs.ilen.toNat - d.padcnt.toNat

/-- Steps 1 and 2: the empty text and the length check (R90, R91). -/
def checkLength (d : UnitD) : UnitD :=
  if d.regs.ilen.toNat = 0 then { d with regs := { d.regs with res := .ok }, stg := .done }
  else if d.regs.ilen.toNat % 4 ≠ 0 then raiseFail .length d
  else { d with stg := .lengthChecked }

/-- Step 3: padding discovery, by the last three characters (R92). -/
def discoverPadding (p : Params) (d : UnitD) : Except Fault UnitD := do
  let n := d.regs.ilen.toNat
  let c1 ← textAt p d (n - 1)
  if c1 ≠ padch then .ok { d with padcnt := 0#2, stg := .paddingCounted }
  else do
    let c2 ← textAt p d (n - 2)
    if c2 ≠ padch then .ok { d with padcnt := 1#2, stg := .paddingCounted }
    else do
      let c3 ← textAt p d (n - 3)
      if c3 ≠ padch then .ok { d with padcnt := 2#2, stg := .paddingCounted }
      else .ok (raiseFail .padding d)

/-- Step 5: the padding-bit-zero rule, at `T[n-2]` for one `=` and at `T[n-3]` for two (R94). -/
def checkPadBits (p : Params) (d : UnitD) : Except Fault UnitD :=
  if d.padcnt = 1#2 then do
    let c ← textAt p d (d.regs.ilen.toNat - 2)
    if padBitsNonzero 1 (dtabVal c) then .ok (raiseFail .padBits d) else .ok { d with stg := .paddingBitsChecked }
  else if d.padcnt = 2#2 then do
    let c ← textAt p d (d.regs.ilen.toNat - 3)
    if padBitsNonzero 2 (dtabVal c) then .ok (raiseFail .padBits d) else .ok { d with stg := .paddingBitsChecked }
  else .ok { d with stg := .paddingBitsChecked }

/-- One turn of the character scan of step 4, or its end (R93, R97). -/
def scanChar (p : Params) (d : UnitD) : Except Fault UnitD :=
  if d.di.toNat < prefixLen d then do
    let c ← textAt p d d.di.toNat
    if dtabInv c then .ok (raiseFail .char d) else .ok { d with di := d.di + 1#16 }
  else checkPadBits p d

/-- The emission of step 6, done when at least 8 bits are buffered (R95). -/
def emitByte (p : Params) (d : UnitD) : Except Fault UnitD :=
  if 8 ≤ d.nb.toNat then do
    let nb := d.nb - 8#4
    let m ← bufWrite (docap p) d.regs.obuf d.dOut.toNat (accEmit d.acc nb)
    .ok { d with regs := { d.regs with obuf := m }, nb := nb, dOut := d.dOut + 1#16, acc := accRetain d.acc nb }
  else .ok d

/-- One turn of the loop of step 6 (R89, R95). -/
def reassembleTurn (p : Params) (d : UnitD) : Except Fault UnitD := do
  let c ← textAt p d d.di.toNat
  let d ← emitByte p { d with acc := accShiftIn d.acc (dtabVal c), nb := d.nb + 6#4 }
  .ok { d with di := d.di + 1#16 }

/-- `k` turns of the loop of step 6. -/
def reassembleLoop (p : Params) : Nat → UnitD → Except Fault UnitD
  | 0, d => .ok d
  | k + 1, d =>
    match reassembleTurn p d with
    | .error f => .error f
    | .ok d' => reassembleLoop p k d'

/-- Step 6: bit reassembly, `m` turns of its loop (R95, R97). -/
def reassemble (p : Params) (d : UnitD) : Except Fault UnitD :=
  (reassembleLoop p (prefixLen d) { d with acc := 0#12, nb := 0#4, di := 0#16, dOut := 0#16 }).map
    fun d => { d with stg := .reassembled }

/-- One transition of R97 inside a run, `OVF.D` being 0. -/
def stageD (p : Params) (d : UnitD) : Except Fault UnitD :=
  match d.stg with
  | .start => .ok (checkLength d)
  | .lengthChecked => discoverPadding p d
  | .paddingCounted => .ok { d with di := 0#16, stg := .charScan }
  | .charScan => scanChar p d
  | .paddingBitsChecked => reassemble p d
  | .reassembled => .ok { d with regs := { d.regs with olen := d.dOut, res := .ok }, stg := .done }
  | .done => .ok { d with stg := .start }
  | .failed => .ok { d with stg := .start }

/-- Transitions until the stage is `D_START` again, at most `turns` of them. -/
def runD (p : Params) : Nat → UnitD → Except Fault UnitD
  | 0, _ => .error .runUnfinished
  | turns + 1, d =>
    match stageD p d with
    | .error f => .error f
    | .ok d' => if d'.stg = .start then .ok d' else runD p turns d'

/-- The turns of a run on `n` characters: at most `n` in the character scan and seven others (R97). -/
def turnsD (n : Nat) : Nat := n + 7

/-- `DEC` (R89). A run that started leaves the working registers unspecified (R25). -/
def execDec (s : State) : Host.Outcome State Fault Refusal :=
  let s := beginRun .d s
  if s.d.regs.ovf then .next (raiseFault .d s)
  else
    match runD s.cfg (turnsD s.d.regs.ilen.toNat) { s.d with stg := .start } with
    | .error f => .fault f
    | .ok d => .next (respondStatus .d false 0#8 { s with d := d.forget })

end Sys2Proof.Machine
end

