-- ==== Sys2Proof/Machine/Encoder.lean ====
section
/-! DEFINITION. Unit E's run: the command `ENC` (41_encoder.md R76), stage by stage as R85 gives the stages. -/

namespace Sys2Proof.Machine

/-- `E_IDLE` to `E_CHUNK`: `ENC` accepted with `OVF.E` = 0 (R85). -/
def startE (e : UnitE) : UnitE := { e with ei := 0#16, eo := 0#16, stg := .chunk }

/-- `ILEN.E - EI`, the bytes not yet encoded (R76). -/
def leftE (e : UnitE) : Nat := e.regs.ilen.toNat - e.ei.toNat

/-- `IBUF.E[EI + k]`. -/
def chunkByte (p : Params) (e : UnitE) (k : Nat) : Except Fault Byte := bufRead p.ecap e.regs.ibuf (e.ei.toNat + k)

/-- The four characters of a group at `OBUF.E[EO .. EO+3]`, then `EO <- EO + 4` (R76). -/
def emitGroup (p : Params) (e : UnitE) (c0 c1 c2 c3 : Byte) : Except Fault UnitE := do
  let m ← bufWrite4 (eocap p) e.regs.obuf e.eo.toNat c0 c1 c2 c3
  .ok { e with regs := { e.regs with obuf := m }, eo := e.eo + 4#16 }

/-- One full chunk: pack, slice and look up (R78, R79), then `EI <- EI + 3`. -/
def fullChunk (p : Params) (e : UnitE) : Except Fault UnitE := do
  let b0 ← chunkByte p e 0
  let b1 ← chunkByte p e 1
  let b2 ← chunkByte p e 2
  let g := pack3 b0 b1 b2
  let e ← emitGroup p { e with pack := g } (alpha (sextet0 g)) (alpha (sextet1 g)) (alpha (sextet2 g)) (alpha (sextet3 g))
  .ok { e with ei := e.ei + 3#16 }

/-- A final partial chunk of one byte (R81). -/
def tail1 (p : Params) (e : UnitE) : Except Fault UnitE := do
  let b0 ← chunkByte p e 0
  let g := pack3 b0 0#8 0#8
  emitGroup p { e with pack := g } (alpha (sextet0 g)) (alpha (sextet1 g)) padch padch

/-- A final partial chunk of two bytes (R82). -/
def tail2 (p : Params) (e : UnitE) : Except Fault UnitE := do
  let b0 ← chunkByte p e 0
  let b1 ← chunkByte p e 1
  let g := pack3 b0 b1 0#8
  emitGroup p { e with pack := g } (alpha (sextet0 g)) (alpha (sextet1 g)) (alpha (sextet2 g)) padch

/-- The final partial chunk of 0, 1 or 2 bytes (R80, R81, R82). -/
def tailChunk (p : Params) (e : UnitE) : Except Fault UnitE :=
  if leftE e = 1 then tail1 p e
  else if leftE e = 2 then tail2 p e
  else .ok e

/-- One transition of R85 inside a run. The two rows from `E_IDLE` are `startE` and `raiseFault`. -/
def stageE (p : Params) (e : UnitE) : Except Fault UnitE :=
  match e.stg with
  | .idle => .ok e
  | .chunk => if 3 ≤ leftE e then fullChunk p e else .ok { e with stg := .tail }
  | .tail => (tailChunk p e).map fun e => { e with stg := .done }
  | .done => .ok { e with regs := { e.regs with olen := e.eo, res := .ok }, stg := .idle }

/-- Transitions until the stage is `E_IDLE` again, at most `turns` of them. -/
def runE (p : Params) : Nat → UnitE → Except Fault UnitE
  | 0, _ => .error .runUnfinished
  | turns + 1, e =>
    match stageE p e with
    | .error f => .error f
    | .ok e' => if e'.stg = .idle then .ok e' else runE p turns e'

/-- The turns of a run on `n` bytes: `n div 3` full chunks, then to `E_TAIL`, to `E_DONE` and to `E_IDLE` (R85). -/
def turnsE (n : Nat) : Nat := n / 3 + 3

/-- `ENC` (R76). A run that started leaves the working registers unspecified (R25). -/
def execEnc (s : State) : Host.Outcome State Fault Refusal :=
  let s := beginRun .e s
  if s.e.regs.ovf then .next (raiseFault .e s)
  else
    match runE s.cfg (turnsE s.e.regs.ilen.toNat) (startE s.e) with
    | .error f => .fault f
    | .ok e => .next (respondStatus .e false 0#8 { s with e := e.forget })

end Sys2Proof.Machine
end

