-- ==== Sys2Proof/Machine/Port.lean ====
section
/-! DEFINITION. The twelve host commands (40_host_commands.md R62 to R73): clear, push, pop, status, output length, input length. -/

namespace Sys2Proof.Machine

/-- `ECLR` (R62). -/
def execEclr (s : State) : Host.Outcome State Fault Refusal := .next (clearUnit .e s)

/-- `DCLR` (R63). -/
def execDclr (s : State) : Host.Outcome State Fault Refusal := .next (clearUnit .d s)

/-- `EPUSH b` (R64). -/
def execEpush (b : Byte) (s : State) : Host.Outcome State Fault Refusal := pushUnit .e b s

/-- `DPUSH c` (R65). -/
def execDpush (c : Byte) (s : State) : Host.Outcome State Fault Refusal := pushUnit .d c s

/-- `EPOP` (R66). -/
def execEpop (s : State) : Host.Outcome State Fault Refusal := popUnit .e s

/-- `DPOP` (R67). -/
def execDpop (s : State) : Host.Outcome State Fault Refusal := popUnit .d s

/-- `ESTAT` (R68). -/
def execEstat (s : State) : Host.Outcome State Fault Refusal := .next (statusUnit .e s)

/-- `DSTAT` (R69). -/
def execDstat (s : State) : Host.Outcome State Fault Refusal := .next (statusUnit .d s)

/-- `EOLEN` (R70). -/
def execEolen (s : State) : Host.Outcome State Fault Refusal := .next (outLenUnit .e s)

/-- `DOLEN` (R71). -/
def execDolen (s : State) : Host.Outcome State Fault Refusal := .next (outLenUnit .d s)

/-- `EILEN` (R72). -/
def execEilen (s : State) : Host.Outcome State Fault Refusal := .next (inLenUnit .e s)

/-- `DILEN` (R73). -/
def execDilen (s : State) : Host.Outcome State Fault Refusal := .next (inLenUnit .d s)

end Sys2Proof.Machine
end

