-- ==== Sys2Proof/Machine/Dispatch.lean ====
section
/-! DEFINITION. One arm for each command, a direct call of its meaning. -/

namespace Sys2Proof.Machine

def exec (i : Instr) (s : State) : Host.Outcome State Fault Refusal :=
  match i with
  | .eclr => Sys2Proof.Machine.execEclr s
  | .dclr => Sys2Proof.Machine.execDclr s
  | .epush b => Sys2Proof.Machine.execEpush b s
  | .dpush c => Sys2Proof.Machine.execDpush c s
  | .enc => Sys2Proof.Machine.execEnc s
  | .dec => Sys2Proof.Machine.execDec s
  | .epop => Sys2Proof.Machine.execEpop s
  | .dpop => Sys2Proof.Machine.execDpop s
  | .estat => Sys2Proof.Machine.execEstat s
  | .dstat => Sys2Proof.Machine.execDstat s
  | .eolen => Sys2Proof.Machine.execEolen s
  | .dolen => Sys2Proof.Machine.execDolen s
  | .eilen => Sys2Proof.Machine.execEilen s
  | .dilen => Sys2Proof.Machine.execDilen s

end Sys2Proof.Machine
end

