-- ==== Sys2Proof/Machine/Cycle.lean ====
section
/-! DEFINITION. The command cycle (40_host_commands.md R61): take the host's next input, decode, execute, respond. -/

namespace Sys2Proof.Machine

/-- One command word the port accepts: decode, then the row's rule or the illegal command (R61, R74). -/
def commandCycle (w : Word) (s : State) : Host.Outcome State Fault Refusal :=
  match decode w with
  | .ok i => exec i s
  | .error _ => .next (illegalCommand s)

/-- The host's oldest input is taken off the queue and acted on. With no input pending nothing happens: every state change is the
effect of a command or of `rst` (R114, R123; notes/assumptions/3.md). -/
def takeInput (s : State) : Host.Outcome State Fault Refusal :=
  match s.port with
  | [] => .next s
  | .rst :: rest => .next (resetUnits { s with port := rest })
  | .command w :: rest => commandCycle w { s with port := rest }

/-- The host presents a command word ahead of the inputs already pending (notes/assumptions/1.md). -/
def placeCommand (w : Word) (s : State) : State := { s with port := .command w :: s.port }

end Sys2Proof.Machine
end

