-- ==== Sys2Proof/Machine/Codec.lean ====
section
/-! DEFINITION. The two pure functions of the source document: `encode` (41_encoder.md R75) and `decode` (42_decoder.md R88). The
commands `ENC` and `DEC` do not call them: they walk the stages of R85 and R97, and statements relate the two. -/

namespace Sys2Proof.Machine

/-- `encode`, by its four equations (R75). -/
def base64Encode : List Byte → List Byte
  | [] => []
  | [b0] =>
    [alpha (b0.extractLsb' 2 6), alpha (cat 6 (b0.extractLsb' 0 2) 0#4), padch, padch]
  | [b0, b1] =>
    [alpha (b0.extractLsb' 2 6), alpha (cat 6 (b0.extractLsb' 0 2) (b1.extractLsb' 4 4)), alpha (cat 6 (b1.extractLsb' 0 4) 0#2), padch]
  | b0 :: b1 :: b2 :: rest =>
    [alpha (b0.extractLsb' 2 6), alpha (cat 6 (b0.extractLsb' 0 2) (b1.extractLsb' 4 4)),
      alpha (cat 6 (b1.extractLsb' 0 4) (b2.extractLsb' 6 2)), alpha (b2.extractLsb' 0 6)] ++ base64Encode rest

/-- `t[i]` as a character. Steps 3 and 5 read only indices below the length. -/
def charAt (t : List Byte) (i : Nat) : Byte := t.getD i 0#8

/-- Step 3 of `decode`: the number of trailing `=`, or nothing when there are three or more (R88, R92). The text has at least four
characters here. -/
def countPadding (t : List Byte) : Option Nat :=
  let n := t.length
  if charAt t (n - 1) ≠ padch then some 0
  else if charAt t (n - 2) ≠ padch then some 1
  else if charAt t (n - 3) ≠ padch then some 2
  else none

/-- `W`, the sextets of the characters one after the other, the first the most significant (R88 step 6), as a number. -/
def sextetString (t : List Byte) : Nat := t.foldl (fun w c => w * 64 + (dtabVal c).toNat) 0

/-- Step 6 of `decode`: `out[j] = W[6m-1-8j : 6m-8-8j]` for `j` below `l`, from the `m` characters of the non-padding prefix (R88). -/
def reassembled (t : List Byte) (l : Nat) : List Byte :=
  (List.range l).map fun j => BitVec.ofNat 8 (sextetString t >>> (6 * t.length - 8 - 8 * j))

/-- `decode`, by its six steps in order (R88). -/
def base64Decode (t : List Byte) : Except FailKind (List Byte) :=
  let n := t.length
  if n = 0 then .ok []
  else if n % 4 ≠ 0 then .error .length
  else
    match countPadding t with
    | none => .error .padding
    | some p =>
      let sig := t.take (n - p)
      if sig.any dtabInv then .error .char
      else if padBitsNonzero p (dtabVal (charAt t (n - p - 1))) then .error .padBits
      else .ok (reassembled sig (3 * (n / 4) - p))

end Sys2Proof.Machine
end

