-- ==== Sys2Proof/Safety.lean ====
section
/-! DEFINITION. The terms claims use: messages in the buffers, the kinds of command, the valid encoded texts (30_encoding.md R57), and
the range invariants of 10_state.md R22. -/

namespace Sys2Proof.Machine

/-- What a command does, from its `OP` field (R49). -/
inductive CommandKind where
  | clear
  | push
  | run
  | pop
  | status
  | outLength
  | inLength
  deriving DecidableEq, Repr

/-- The kind of a command (R49). -/
def kindOf : Instr → CommandKind
  | .eclr => .clear
  | .dclr => .clear
  | .epush _ => .push
  | .dpush _ => .push
  | .enc => .run
  | .dec => .run
  | .epop => .pop
  | .dpop => .pop
  | .estat => .status
  | .dstat => .status
  | .eolen => .outLength
  | .dolen => .outLength
  | .eilen => .inLength
  | .dilen => .inLength

/-- The unit a command is addressed to (R45, R49). -/
def unitOf : Instr → UnitId
  | .eclr => .e
  | .dclr => .d
  | .epush _ => .e
  | .dpush _ => .d
  | .enc => .e
  | .dec => .d
  | .epop => .e
  | .dpop => .d
  | .estat => .e
  | .dstat => .d
  | .eolen => .e
  | .dolen => .d
  | .eilen => .e
  | .dilen => .d

/-- The input message `IBUF.u[0 .. ILEN.u - 1]`, when every element of it holds a value. -/
def inMessage (u : UnitId) (s : State) : Option (List Byte) := Memory.firstN (getRegs u s).ibuf (getRegs u s).ilen.toNat

/-- The result `OBUF.u[0 .. OLEN.u - 1]`, when every element of it holds a value. -/
def outMessage (u : UnitId) (s : State) : Option (List Byte) := Memory.firstN (getRegs u s).obuf (getRegs u s).olen.toNat

/-- A pop of the unit returns a byte (R66, R67): the complement is the empty-pop condition of R116. -/
abbrev hasUnread (u : UnitId) (s : State) : Prop := (getRegs u s).res = .ok ∧ (getRegs u s).rptr < (getRegs u s).olen

/-- `s` with the words of a command script pending at the port, and nothing else (R58). -/
def presentScript (script : List Instr) (s : State) : State := { s with port := script.map fun i => .command (encode i) }

/-- `ELOAD`, `DLOAD` (R59): a clear, then one push for each byte, in order. -/
def loadScript : UnitId → List Byte → List Instr
  | .e, b => .eclr :: b.map fun x => .epush x
  | .d, b => .dclr :: b.map fun x => .dpush x

/-- The number of `=` at the end of a text (R92: "the length of the longest suffix of `t` made only of 0x3D"). -/
def trailingPads (t : List Byte) : Nat := (t.reverse.takeWhile fun c => c == padch).length

/-- The valid encoded texts, clause by clause as R57 gives them. -/
abbrev ValidText (t : List Byte) : Prop :=
  t.length % 4 = 0 ∧ trailingPads t ≤ 2 ∧ (0 < t.length → trailingPads t < t.length) ∧
  (∀ c ∈ t.take (t.length - trailingPads t), dtabInv c = false) ∧
  (trailingPads t = 1 → (dtabVal (charAt t (t.length - 2))).toNat % 4 = 0) ∧
  (trailingPads t = 2 → (dtabVal (charAt t (t.length - 3))).toNat % 16 = 0)

/-- A buffer is in canonical form and lists no index at or above its capacity (R12, R14). -/
abbrev Memory.Fits (cap : Nat) (m : Memory) : Prop := Memory.wf m = true ∧ ∀ x ∈ m, x.1 < cap

/-- Items 1, 2, 3, 5 and 6 of R22 for one unit, and what R37 says of its buffers: every element below the length holds a value. -/
abbrev UnitRegs.Inv (icap ocap : Nat) (r : UnitRegs) : Prop :=
  Memory.Fits icap r.ibuf ∧ Memory.Fits ocap r.obuf ∧
  r.ilen.toNat ≤ icap ∧ r.rptr ≤ r.olen ∧ r.olen.toNat ≤ ocap ∧
  (r.res ≠ .ok → r.olen = 0#16 ∧ r.rptr = 0#16) ∧
  (r.ovf = true → r.ilen.toNat = icap ∧ (r.res = .none ∨ r.res = .fault)) ∧
  (r.res = .fault → r.ovf = true) ∧
  (Memory.firstN r.ibuf r.ilen.toNat).isSome = true ∧ (Memory.firstN r.obuf r.olen.toNat).isSome = true

/-- Unit E: the shared items, item 4 (`RES.E` is never `MALFORMED`), item 7, and the idle stage (R17). -/
abbrev UnitE.Inv (p : Params) (e : UnitE) : Prop :=
  e.regs.Inv p.ecap (eocap p) ∧ e.stg = .idle ∧ e.regs.res ≠ .malformed ∧
  (e.regs.res = .ok → e.regs.olen.toNat = (e.regs.ilen.toNat + 2) / 3 * 4)

/-- Unit D: the shared items, item 4 (`EKIND.D` is not 0 exactly when `RES.D` is `MALFORMED`), item 8, and the idle stage (R17). -/
abbrev UnitD.Inv (p : Params) (d : UnitD) : Prop :=
  d.regs.Inv p.dcap (docap p) ∧ d.stg = .start ∧ (d.regs.res = .malformed ↔ d.ekind ≠ .none) ∧
  (d.regs.res = .ok →
    d.regs.ilen.toNat % 4 = 0 ∧
    ∀ t ∈ Memory.firstN d.regs.ibuf d.regs.ilen.toNat,
      trailingPads t ≤ 2 ∧ d.regs.olen.toNat = 3 * (d.regs.ilen.toNat / 4) - trailingPads t)

/-- The range invariants of R22 that hold between commands, for capacities in the ranges of R6. -/
abbrev State.Inv (s : State) : Prop := s.cfg.wf = true ∧ s.e.Inv s.cfg ∧ s.d.Inv s.cfg

/-- A result in `OBUF.u` belongs to the exact contents of `IBUF.u` (R64, D13), and so does a recorded failure. -/
def State.ResultsMatchInputs (s : State) : Prop :=
  (s.e.regs.res = .ok → ∃ b, inMessage .e s = some b ∧ outMessage .e s = some (base64Encode b)) ∧
  (s.d.regs.res = .ok → ∃ t out, inMessage .d s = some t ∧ base64Decode t = .ok out ∧ outMessage .d s = some out) ∧
  (s.d.regs.res = .malformed → ∃ t k, inMessage .d s = some t ∧ base64Decode t = .error k ∧ s.d.ekind = .fail k)

end Sys2Proof.Machine
end

