-- ==== Sys2Proof/Certificates/Slice0/Obligations.lean ====
section
/-! DEFINITION. The statements for the provers, from the numbered rules of spec/. Each is listed in OBLIGATIONS.json. -/

open Sys2Proof Sys2Proof.Machine

/-! ## Encoding of the commands (30_encoding.md R44 to R51) -/

/-- Every command's word decodes to it, with its operand at every value, and a command has exactly one word. -/
def Obligations.DecodeEncodeAgree : Prop :=
  (∀ i : Instr, i.wf = true → decode (encode i) = .ok i) ∧
  (∀ (w : Word) (i : Instr), decode w = .ok i → encode i = w)

/-- R49: a word is the command of a row exactly when its masked bits are the row's match and its operand is `DATA`; the rows are
disjoint, and every word that matches none of them is illegal. `OP` and `U` together select the row. -/
def Obligations.DecodeFollowsOpcodeMap : Prop :=
  (∀ (w : Word) (i : Instr),
    decode w = .ok i ↔ (w &&& maskOf i = matchOf i ∧ ∀ b, operandOf i = some b → w.extractLsb' 0 8 = b)) ∧
  (∀ (w : Word) (i j : Instr), w &&& maskOf i = matchOf i → w &&& maskOf j = matchOf j → matchOf i = matchOf j) ∧
  (∀ w : Word, (∃ e, decode w = .error e) ↔ ∀ i, w &&& maskOf i ≠ matchOf i) ∧
  (∀ (v w : Word) (i j : Instr), decode v = .ok i → decode w = .ok j →
    (v.extractLsb' 12 4 = w.extractLsb' 12 4 ↔ (kindOf i = kindOf j ∧ unitOf i = unitOf j)))

/-- R74, R115: the illegal words are exactly those of the three clauses of R50, whatever the state, and an illegal word answers 0x8000
and changes nothing else. -/
def Obligations.IllegalWordsChangeNothing : Prop :=
  ∀ w : Word,
    ((∃ e, decode w = .error e) ↔
      (w.extractLsb' 13 3 = 0#3 ∨ w.extractLsb' 8 4 ≠ 0#4 ∨ (w.extractLsb' 13 3 ≠ 2#3 ∧ w.extractLsb' 0 8 ≠ 0#8))) ∧
    (∀ (s : State) (rest : List PortInput),
      (w.extractLsb' 13 3 = 0#3 ∨ w.extractLsb' 8 4 ≠ 0#4 ∨ (w.extractLsb' 13 3 ≠ 2#3 ∧ w.extractLsb' 0 8 ≠ 0#8)) →
        step { s with port := .command w :: rest } = .next { s with port := rest, resps := s.resps ++ [0x8000#16] })

/-- Words of 95_test_vectors.md section 2, as R44 and R49 lay out their bits. -/
def Obligations.SampleWordsDecode : Prop :=
  decode 0x2000#16 = .ok .eclr ∧ decode 0x3000#16 = .ok .dclr ∧ decode 0x404D#16 = .ok (.epush 0x4D#8) ∧
  decode 0x503D#16 = .ok (.dpush 0x3D#8) ∧ decode 0x6000#16 = .ok .enc ∧ decode 0x7000#16 = .ok .dec ∧
  decode 0x8000#16 = .ok .epop ∧ decode 0x9000#16 = .ok .dpop ∧ decode 0xA000#16 = .ok .estat ∧ decode 0xB000#16 = .ok .dstat ∧
  decode 0xC000#16 = .ok .eolen ∧ decode 0xD000#16 = .ok .dolen ∧ decode 0xE000#16 = .ok .eilen ∧ decode 0xF000#16 = .ok .dilen ∧
  decode 0x0000#16 = .error .opZero ∧ decode 0x4100#16 = .error .reservedNotZero ∧ decode 0x6001#16 = .error .dataNotZero

/-! ## The command cycle (40_host_commands.md R61) -/

/-- A step with a command word pending that decodes to `i` is `exec i` at the state with that word taken off the port. -/
def Obligations.StepRunsDecodedCommand : Prop :=
  ∀ (s : State) (w : Word) (rest : List PortInput) (i : Instr),
    s.port = .command w :: rest → decode w = .ok i → step s = exec i { s with port := rest }

/-- With no input pending a step changes nothing (the model's choice, notes/assumptions/3.md). -/
def Obligations.IdlePortChangesNothing : Prop := ∀ s : State, s.port = [] → step s = .next s

/-- R60, R47, R48: every command returns exactly one response. The four length commands return the length register. Every other returns
the S-format: `ILL` 0, `EMPTY` 1 exactly for a pop with no unread byte, `OVF`, `RES` and `EKIND` as the addressed unit holds them after
the command, and `DATA` the byte popped, or 0. An illegal word returns `ILL` = 1 and every other bit 0. Without a command no response is
returned. -/
def Obligations.EveryCommandAnswersOnce : Prop :=
  (∀ (w : Word) (s : State), (∃ e, decode w = .error e) →
    ∃ r : Word, commandCycle w s = .next { s with resps := s.resps ++ [r] } ∧ r.getLsbD 15 = true ∧ r.extractLsb' 0 15 = 0#15) ∧
  (∀ s : State, (s.port = [] ∨ ∃ rest, s.port = .rst :: rest) → ∃ t, step s = .next t ∧ t.resps = s.resps) ∧
  ∀ (i : Instr) (s t : State), exec i s = .next t →
    ∃ r : Word, t.resps = s.resps ++ [r] ∧
      (kindOf i = .outLength → r = (getRegs (unitOf i) t).olen) ∧
      (kindOf i = .inLength → r = (getRegs (unitOf i) t).ilen) ∧
      (kindOf i ≠ .outLength → kindOf i ≠ .inLength →
        r.getLsbD 15 = false ∧
        (r.getLsbD 14 = true ↔ (kindOf i = .pop ∧ ¬hasUnread (unitOf i) s)) ∧
        r.getLsbD 13 = (getRegs (unitOf i) t).ovf ∧
        r.extractLsb' 11 2 = (getRegs (unitOf i) t).res.code ∧
        r.extractLsb' 8 3 = (readEkind (unitOf i) t).code ∧
        (¬(kindOf i = .pop ∧ hasUnread (unitOf i) s) → r.extractLsb' 0 8 = 0#8) ∧
        (kindOf i = .pop ∧ hasUnread (unitOf i) s →
          Memory.find (getRegs (unitOf i) s).obuf (getRegs (unitOf i) s).rptr.toNat = some (r.extractLsb' 0 8)))

/-- The codes of `RES` (R18) and `EKIND` (R19). -/
def Obligations.StatusCodes : Prop :=
  Res.none.code = 0#2 ∧ Res.ok.code = 1#2 ∧ Res.malformed.code = 2#2 ∧ Res.fault.code = 3#2 ∧
  EKind.none.code = 0#3 ∧ (EKind.fail .length).code = 1#3 ∧ (EKind.fail .padding).code = 2#3 ∧ (EKind.fail .char).code = 3#3 ∧
  (EKind.fail .padBits).code = 4#3

/-! ## Reset (10_state.md R26, 70_reset_and_hazards.md R121) -/

/-- R26: what the spec gives each register at reset; no buffer element holds a value, as R26 asks of a model (notes/assumptions/7.md). -/
def Obligations.ResetState : Prop :=
  (∀ u : UnitId,
    (getRegs u State.reset).ilen = 0#16 ∧ (getRegs u State.reset).olen = 0#16 ∧ (getRegs u State.reset).rptr = 0#16 ∧
    (getRegs u State.reset).res = .none ∧ readEkind u State.reset = .none ∧ (getRegs u State.reset).ovf = false ∧
    ∀ i, Memory.find (getRegs u State.reset).ibuf i = none ∧ Memory.find (getRegs u State.reset).obuf i = none) ∧
  State.reset.e.stg = .idle ∧ State.reset.d.stg = .start

/-- R121: `rst` puts both units in the state of R26, as `ECLR` and `DCLR` together would, and returns no response. That the inputs
still pending stay pending is the model's choice (notes/assumptions/16.md). -/
def Obligations.RstEvent : Prop :=
  ∀ (s : State) (rest : List PortInput), s.port = .rst :: rest →
    ∃ t, step s = .next t ∧ t.resps = s.resps ∧ t.port = rest ∧ t.cfg = s.cfg ∧ t.e.stg = .idle ∧ t.d.stg = .start ∧
      (∀ u : UnitId, (getRegs u t).ilen = 0#16 ∧ (getRegs u t).olen = 0#16 ∧ (getRegs u t).rptr = 0#16 ∧ readEkind u t = .none ∧
        (getRegs u t).ovf = false ∧ (getRegs u t).res = .none) ∧
      (∀ a b, exec .eclr s = .next a → exec .dclr a = .next b → ∀ u : UnitId,
        (getRegs u t).ilen = (getRegs u b).ilen ∧ (getRegs u t).olen = (getRegs u b).olen ∧ (getRegs u t).rptr = (getRegs u b).rptr ∧
        (getRegs u t).res = (getRegs u b).res ∧ (getRegs u t).ovf = (getRegs u b).ovf ∧ readEkind u t = readEkind u b)

/-- R124: what each command that is not a push answers when both units are as after reset, whatever the capacities. -/
def Obligations.FirstAnswersAfterReset : Prop :=
  ∀ s : State, (∀ u, getRegs u s = UnitRegs.reset ∧ readEkind u s = .none) →
    ∀ (i : Instr), kindOf i ≠ .push →
      ∃ t, exec i s = .next t ∧ t.resps = s.resps ++ [
        match kindOf i with
        | .run => 0x0800#16
        | .pop => 0x4000#16
        | _ => 0x0000#16] ∧
        (kindOf i = .run → outMessage (unitOf i) t = some [] ∧ (getRegs (unitOf i) t).olen = 0#16)

/-! ## The range invariants (10_state.md R22) -/

/-- The invariant holds at reset. -/
def Obligations.ResetMeetsInvariant : Prop := State.reset.Inv

/-- Every step keeps the eight items of R22 (and what R37 says of the buffers). -/
def Obligations.StepKeepsInvariant : Prop := ∀ s t : State, s.Inv → step s = .next t → t.Inv

/-- From a state that meets the invariant every step answers: no access is out of range (R34), no uninitialised element is read (R37),
every run ends (R135), for every capacity in range and every input. -/
def Obligations.InvariantStepAlwaysAnswers : Prop := ∀ s : State, s.Inv → ∃ t, step s = .next t

/-- A run ends within its turns from every state (R85: "The loop makes `ILEN.E div 3` turns, so it always ends"; R97). -/
def Obligations.RunsAlwaysEnd : Prop := ∀ s : State, exec .enc s ≠ .fault .runUnfinished ∧ exec .dec s ≠ .fault .runUnfinished

/-- Every result and every recorded failure belongs to the exact present contents of the input buffer (R64, D13). -/
def Obligations.StepKeepsResultsMatchingInputs : Prop :=
  ∀ s t : State, s.Inv → s.ResultsMatchInputs → step s = .next t → t.ResultsMatchInputs

/-! ## The two units (20_memory.md R40) -/

/-- R40: a command writes only its own unit, depends only on its own unit (and the capacities), and two commands addressed to different
units may be executed in either order: the same final state of both units and the same two responses. An illegal command writes nothing. -/
def Obligations.UnitsDoNotInterfere : Prop :=
  (∀ (i : Instr) (s t : State), exec i s = .next t →
    (unitOf i = .e → t.d = s.d) ∧ (unitOf i = .d → t.e = s.e) ∧ t.cfg = s.cfg ∧ t.port = s.port) ∧
  (∀ (i : Instr) (s s' t : State), s'.cfg = s.cfg → (unitOf i = .e → s'.e = s.e) → (unitOf i = .d → s'.d = s.d) →
    exec i s = .next t →
      ∃ t' r, exec i s' = .next t' ∧ (unitOf i = .e → t'.e = t.e) ∧ (unitOf i = .d → t'.d = t.d) ∧
        t.resps = s.resps ++ [r] ∧ t'.resps = s'.resps ++ [r]) ∧
  (∀ (i j : Instr) (s s1 s2 : State), unitOf i ≠ unitOf j → exec i s = .next s1 → exec j s1 = .next s2 →
    ∃ t1 t2 ri rj, exec j s = .next t1 ∧ exec i t1 = .next t2 ∧ t2.e = s2.e ∧ t2.d = s2.d ∧ t2.cfg = s2.cfg ∧ t2.port = s2.port ∧
      s2.resps = s.resps ++ [ri, rj] ∧ t2.resps = s.resps ++ [rj, ri]) ∧
  (∀ (w : Word) (s : State), (∃ e, decode w = .error e) → commandCycle w s = .next { s with resps := s.resps ++ [0x8000#16] })

/-! ## Clear, push, pop, status, length (40_host_commands.md R62 to R73) -/

/-- `ECLR` (R62): registers and flags to zero, response 0x0000; buffers, unit D and all else unchanged, but no element of them is part
of a message any more. No other command clears `OVF.E`. -/
def Obligations.EclrResult : Prop :=
  (∀ s : State, exec .eclr s = .next { s with
    e := { s.e with regs := { s.e.regs with ilen := 0#16, olen := 0#16, rptr := 0#16, res := .none, ovf := false } }
    resps := s.resps ++ [0x0000#16] }) ∧
  (∀ s t : State, exec .eclr s = .next t → inMessage .e t = some [] ∧ outMessage .e t = some []) ∧
  (∀ (i : Instr) (s t : State), i ≠ .eclr → exec i s = .next t → s.e.regs.ovf = true → t.e.regs.ovf = true)

/-- `DCLR` (R63): registers and flags to zero, response 0x0000; buffers, unit E and all else unchanged, but no element of them is part
of a message any more. No other command clears `OVF.D`. -/
def Obligations.DclrResult : Prop :=
  (∀ s : State, exec .dclr s = .next { s with
    d := { s.d with
      regs := { s.d.regs with ilen := 0#16, olen := 0#16, rptr := 0#16, res := .none, ovf := false }
      ekind := .none }
    resps := s.resps ++ [0x0000#16] }) ∧
  (∀ s t : State, exec .dclr s = .next t → inMessage .d t = some [] ∧ outMessage .d t = some []) ∧
  (∀ (i : Instr) (s t : State), i ≠ .dclr → exec i s = .next t → s.d.regs.ovf = true → t.d.regs.ovf = true)

/-- `EPUSH b` (R64): below the capacity `b` is appended at `ILEN.E`, at the capacity it is dropped and `OVF.E` set; either way the
result is discarded. Response 0x0000, or 0x2000 when `OVF.E` is 1. Everything else, and every other element, is unchanged. After an
overflow the next `ENC` answers `FAULT`. -/
def Obligations.EpushResult : Prop :=
  ∀ (b : Byte) (s : State),
    (s.e.regs.ilen.toNat < s.cfg.ecap →
      ∃ m, (∀ i, Memory.find m i = if i = s.e.regs.ilen.toNat then some b else Memory.find s.e.regs.ibuf i) ∧
        exec (.epush b) s = .next { s with
          e := { s.e with regs := { s.e.regs with
            ibuf := m, ilen := s.e.regs.ilen + 1#16, olen := 0#16, rptr := 0#16, res := .none } }
          resps := s.resps ++ [if s.e.regs.ovf then 0x2000#16 else 0x0000#16] }) ∧
    (s.cfg.ecap ≤ s.e.regs.ilen.toNat →
      exec (.epush b) s = .next { s with
        e := { s.e with regs := { s.e.regs with ovf := true, olen := 0#16, rptr := 0#16, res := .none } }
        resps := s.resps ++ [0x2000#16] } ∧
      ∀ t, exec (.epush b) s = .next t → ∃ u, exec .enc t = .next u ∧ u.resps = t.resps ++ [0x3800#16])

/-- `DPUSH c` (R65): as `EPUSH` on unit D, and `EKIND.D` to 0; the character is not looked at. After an overflow the next `DEC` answers
`FAULT`. -/
def Obligations.DpushResult : Prop :=
  ∀ (c : Byte) (s : State),
    (s.d.regs.ilen.toNat < s.cfg.dcap →
      ∃ m, (∀ i, Memory.find m i = if i = s.d.regs.ilen.toNat then some c else Memory.find s.d.regs.ibuf i) ∧
        exec (.dpush c) s = .next { s with
          d := { s.d with
            regs := { s.d.regs with ibuf := m, ilen := s.d.regs.ilen + 1#16, olen := 0#16, rptr := 0#16, res := .none }
            ekind := .none }
          resps := s.resps ++ [if s.d.regs.ovf then 0x2000#16 else 0x0000#16] }) ∧
    (s.cfg.dcap ≤ s.d.regs.ilen.toNat →
      exec (.dpush c) s = .next { s with
        d := { s.d with regs := { s.d.regs with ovf := true, olen := 0#16, rptr := 0#16, res := .none }, ekind := .none }
        resps := s.resps ++ [0x2000#16] } ∧
      ∀ t, exec (.dpush c) s = .next t → ∃ u, exec .dec t = .next u ∧ u.resps = t.resps ++ [0x3800#16])

/-- `EPOP` (R66): with an unread result character it answers 0x0800 | v and increments `RPTR.E`; otherwise the response has `EMPTY` = 1
and `DATA` = 0x00 and nothing changes: 0x4000 with no result (`OVF.E` = 0), 0x4800 on an exhausted result, 0x7800 after `FAULT`. When the
result belongs to the input, as it does in every state a run reaches, the character is an Alphabet character or `=`, never 0x00. -/
def Obligations.EpopResult : Prop :=
  ∀ s : State, s.Inv →
    (s.e.regs.res = .ok ∧ s.e.regs.rptr < s.e.regs.olen →
      ∃ v, Memory.find s.e.regs.obuf s.e.regs.rptr.toNat = some v ∧
        exec .epop s = .next { s with
          e := { s.e with regs := { s.e.regs with rptr := s.e.regs.rptr + 1#16 } }
          resps := s.resps ++ [0x0800#16 ||| v.setWidth 16] } ∧
        (s.ResultsMatchInputs → (v = padch ∨ ∃ x, v = alpha x) ∧ v ≠ 0#8)) ∧
    (¬(s.e.regs.res = .ok ∧ s.e.regs.rptr < s.e.regs.olen) →
      exec .epop s = .next { s with resps := s.resps ++ [
        match s.e.regs.res with
        | .none => if s.e.regs.ovf then 0x6000#16 else 0x4000#16
        | .ok => 0x4800#16
        | .malformed => 0x5000#16
        | .fault => 0x7800#16] })

/-- `DPOP` (R67): as `EPOP` on unit D; with `RES.D` = `MALFORMED` the pop is empty and repeats the error. -/
def Obligations.DpopResult : Prop :=
  ∀ s : State, s.Inv →
    (s.d.regs.res = .ok ∧ s.d.regs.rptr < s.d.regs.olen →
      ∃ v, Memory.find s.d.regs.obuf s.d.regs.rptr.toNat = some v ∧
        exec .dpop s = .next { s with
          d := { s.d with regs := { s.d.regs with rptr := s.d.regs.rptr + 1#16 } }
          resps := s.resps ++ [0x0800#16 ||| v.setWidth 16] }) ∧
    (¬(s.d.regs.res = .ok ∧ s.d.regs.rptr < s.d.regs.olen) →
      exec .dpop s = .next { s with resps := s.resps ++ [
        match s.d.regs.res with
        | .none => if s.d.regs.ovf then 0x6000#16 else 0x4000#16
        | .ok => 0x4800#16
        | .malformed => 0x5000#16 ||| (s.d.ekind.code.setWidth 16 <<< 8)
        | .fault => 0x7800#16] })

/-- `ESTAT`, `DSTAT` (R68, R69): the status word, and no state change. Under the invariant the answers are the eight that R69 lists, and
for unit E the four that R68 lists. -/
def Obligations.StatusResult : Prop :=
  ∀ s : State, s.Inv →
    exec .estat s = .next { s with resps := s.resps ++ [
      match s.e.regs.res with
      | .none => if s.e.regs.ovf then 0x2000#16 else 0x0000#16
      | .ok => 0x0800#16
      | .malformed => 0x1000#16
      | .fault => 0x3800#16] } ∧
    s.e.regs.res ≠ .malformed ∧
    exec .dstat s = .next { s with resps := s.resps ++ [
      match s.d.regs.res with
      | .none => if s.d.regs.ovf then 0x2000#16 else 0x0000#16
      | .ok => 0x0800#16
      | .malformed => 0x1000#16 ||| (s.d.ekind.code.setWidth 16 <<< 8)
      | .fault => 0x3800#16] } ∧
    (s.d.regs.res = .malformed → s.d.ekind ≠ .none)

/-- `EOLEN`, `DOLEN`, `EILEN`, `DILEN` (R70 to R73): the length register in the L-format, and no state change. -/
def Obligations.LengthResult : Prop :=
  ∀ s : State,
    exec .eolen s = .next { s with resps := s.resps ++ [s.e.regs.olen] } ∧
    exec .dolen s = .next { s with resps := s.resps ++ [s.d.regs.olen] } ∧
    exec .eilen s = .next { s with resps := s.resps ++ [s.e.regs.ilen] } ∧
    exec .dilen s = .next { s with resps := s.resps ++ [s.d.regs.ilen] }

/-- R20: `OVF.u` is set exactly by a push that finds `ILEN.u` = `ICAP.u`, whose byte is dropped, and cleared only by the clear command and
by reset; while it is 1 a run of the unit is refused with `FAULT`. -/
def Obligations.OverflowFlag : Prop :=
  (∀ (i : Instr) (s t : State) (u : UnitId), s.Inv → exec i s = .next t →
    ((getRegs u s).ovf = false →
      ((getRegs u t).ovf = true ↔ (kindOf i = .push ∧ unitOf i = u ∧ (getRegs u s).ilen.toNat = icap s.cfg u))) ∧
    ((getRegs u s).ovf = true → ((getRegs u t).ovf = false ↔ (kindOf i = .clear ∧ unitOf i = u))) ∧
    (kindOf i = .push → unitOf i = u → (getRegs u s).ilen.toNat = icap s.cfg u →
      (getRegs u t).ibuf = (getRegs u s).ibuf ∧ (getRegs u t).ilen = (getRegs u s).ilen) ∧
    (kindOf i = .run → unitOf i = u → (getRegs u s).ovf = true → (getRegs u t).res = .fault)) ∧
  (∀ (s t : State) (rest : List PortInput) (u : UnitId), s.port = .rst :: rest → step s = .next t → (getRegs u t).ovf = false)

/-- R110: a run overwrites both `RES.u` and `EKIND.u`: it leaves `FAULT` exactly when `OVF.u` is 1, `OK` or `MALFORMED` otherwise, an error
kind exactly with `MALFORMED`, and the same two values whatever outcome stood there before. A push, a clear or reset sets them to `NONE`
and 0, every other command of the unit and every command of the other unit leaves both alone. -/
def Obligations.OutcomeStaysUntilReplaced : Prop :=
  (∀ (s t : State) (rest : List PortInput) (u : UnitId), s.port = .rst :: rest → step s = .next t →
    (getRegs u t).res = .none ∧ readEkind u t = .none) ∧
  ∀ (i : Instr) (s t : State) (u : UnitId), exec i s = .next t →
    (unitOf i = u → kindOf i = .run →
      (getRegs u t).res ≠ .none ∧ ((getRegs u t).res = .fault ↔ (getRegs u s).ovf = true) ∧
      ((getRegs u t).res = .malformed ↔ readEkind u t ≠ .none) ∧
      ∀ (r : Res) (k : EKind), ∃ t', exec i (writeEkind u k (setRegs u { getRegs u s with res := r } s)) = .next t' ∧
        (getRegs u t').res = (getRegs u t).res ∧ readEkind u t' = readEkind u t) ∧
    (unitOf i = u → kindOf i = .push ∨ kindOf i = .clear → (getRegs u t).res = .none ∧ readEkind u t = .none) ∧
    (unitOf i ≠ u ∨ (kindOf i ≠ .run ∧ kindOf i ≠ .push ∧ kindOf i ≠ .clear) →
      (getRegs u t).res = (getRegs u s).res ∧ readEkind u t = readEkind u s)

/-- R12, R13, R43: only a push of the unit writes an element of `IBUF.u`, and only a push or a clear of the unit writes `ILEN.u`; a run
never does. -/
def Obligations.InputWrittenOnlyByPush : Prop :=
  ∀ (i : Instr) (s t : State) (u : UnitId), exec i s = .next t →
    (¬(kindOf i = .push ∧ unitOf i = u) → (getRegs u t).ibuf = (getRegs u s).ibuf) ∧
    (¬((kindOf i = .push ∨ kindOf i = .clear) ∧ unitOf i = u) → (getRegs u t).ilen = (getRegs u s).ilen)

/-- R15, R16: `RPTR.u` is incremented exactly by a pop of the unit that returns a byte, and set to 0 by its run, push and clear; `OLEN.u`
is set to 0 by its push, its clear and a run that does not succeed; nothing else writes either, and only a run writes `OBUF.u`. -/
def Obligations.OutputRegistersRule : Prop :=
  ∀ (i : Instr) (s t : State) (u : UnitId), exec i s = .next t →
    (unitOf i = u → kindOf i = .pop → hasUnread u s → (getRegs u t).rptr = (getRegs u s).rptr + 1#16) ∧
    (unitOf i = u → kindOf i = .clear ∨ kindOf i = .push ∨ kindOf i = .run → (getRegs u t).rptr = 0#16) ∧
    (unitOf i = u → kindOf i = .clear ∨ kindOf i = .push → (getRegs u t).olen = 0#16) ∧
    (unitOf i = u → kindOf i = .run → (getRegs u t).res ≠ .ok → (getRegs u t).olen = 0#16) ∧
    (unitOf i ≠ u ∨ (kindOf i ≠ .clear ∧ kindOf i ≠ .push ∧ kindOf i ≠ .run) →
      (getRegs u t).olen = (getRegs u s).olen ∧
      (¬(unitOf i = u ∧ kindOf i = .pop ∧ hasUnread u s) → (getRegs u t).rptr = (getRegs u s).rptr)) ∧
    (¬(unitOf i = u ∧ kindOf i = .run) → (getRegs u t).obuf = (getRegs u s).obuf)

/-! ## Host scripts: the pseudo-commands of 30_encoding.md R59, step by step through the port -/

/-- R30, R72, R73: after a clear and the pushes of the bytes `b`, the buffer holds them in order from index 0, as far as it reaches, the
length is `min(k, ICAP.u)`, and `OVF.u` is 1 exactly when a byte was dropped. -/
def Obligations.LoadedBytesStandInOrder : Prop :=
  ∀ (u : UnitId) (s : State) (b : List Byte), s.Inv →
    ∃ t, Sys2Proof.core.run (b.length + 1) (presentScript (loadScript u b) s) = .next t ∧ t.port = [] ∧
      (getRegs u t).ilen.toNat = min b.length (icap s.cfg u) ∧ inMessage u t = some (b.take (icap s.cfg u)) ∧
      (getRegs u t).ovf = decide (icap s.cfg u < b.length) ∧ (getRegs u t).res = .none ∧
      t.resps = s.resps ++ (List.range (b.length + 1)).map fun k => if icap s.cfg u < k then 0x2000#16 else 0x0000#16

/-- `ENCODE "s"` (R59): the host loads any payload that fits, runs `ENC` and drains the result: it reads the characters of `encode(b)` in
order, and nothing else. -/
def Obligations.EncodeSession : Prop :=
  ∀ (s : State) (b : List Byte), s.Inv → b.length ≤ s.cfg.ecap →
    let script := loadScript .e b ++ [.enc] ++ List.replicate ((base64Encode b).length + 1) .epop
    ∃ t, Sys2Proof.core.run script.length (presentScript script s) = .next t ∧ t.port = [] ∧ t.d = s.d ∧
      t.resps = s.resps ++ List.replicate (b.length + 1) 0x0000#16 ++ [0x0800#16] ++
        (base64Encode b).map (fun c => 0x0800#16 ||| c.setWidth 16) ++ [0x4800#16]

/-- `DECODE "s"` (R59): the host loads any text that fits, runs `DEC` and drains the result: it reads the bytes of `decode(x)` in order, or
the kind of the failure and no byte. -/
def Obligations.DecodeSession : Prop :=
  ∀ (s : State) (x : List Byte), s.Inv → x.length ≤ s.cfg.dcap →
    (∀ out, base64Decode x = .ok out →
      let script := loadScript .d x ++ [.dec] ++ List.replicate (out.length + 1) .dpop
      ∃ t, Sys2Proof.core.run script.length (presentScript script s) = .next t ∧ t.port = [] ∧ t.e = s.e ∧
        t.resps = s.resps ++ List.replicate (x.length + 1) 0x0000#16 ++ [0x0800#16] ++
          out.map (fun v => 0x0800#16 ||| v.setWidth 16) ++ [0x4800#16]) ∧
    (∀ k, base64Decode x = .error k →
      let script := loadScript .d x ++ [.dec, .dpop]
      ∃ t, Sys2Proof.core.run script.length (presentScript script s) = .next t ∧ t.port = [] ∧ t.e = s.e ∧
        t.resps = s.resps ++ List.replicate (x.length + 1) 0x0000#16 ++
          [0x1000#16 ||| ((EKind.fail k).code.setWidth 16 <<< 8), 0x5000#16 ||| ((EKind.fail k).code.setWidth 16 <<< 8)])

/-- R120: unit E never answers `MALFORMED` or an error kind. -/
def Obligations.EncoderNeverMalformed : Prop :=
  ∀ (i : Instr) (s t : State), s.Inv → unitOf i = .e → exec i s = .next t →
    t.e.regs.res ≠ .malformed ∧ readEkind .e t = .none ∧
    (kindOf i ≠ .outLength → kindOf i ≠ .inLength →
      ∃ r : Word, t.resps = s.resps ++ [r] ∧ r.extractLsb' 8 3 = 0#3 ∧ r.extractLsb' 11 2 ≠ 2#2)

/-! ## The tables and the group layout (30_encoding.md R52 to R56) -/

/-- R52: the Alphabet in closed form, its 64 bytes distinct, and the value the source states outright (`C` is 2). The byte codes are the
spec's "[from general knowledge, not in source]" (notes/assumptions/10.md). -/
def Obligations.AlphabetRom : Prop :=
  (∀ v : Sextet, alpha v =
    if v.toNat ≤ 25 then BitVec.ofNat 8 (0x41 + v.toNat)
    else if v.toNat ≤ 51 then BitVec.ofNat 8 (0x61 + (v.toNat - 26))
    else if v.toNat ≤ 61 then BitVec.ofNat 8 (0x30 + (v.toNat - 52))
    else if v.toNat = 62 then 0x2B#8 else 0x2F#8) ∧
  (∀ v w : Sextet, alpha v = alpha w → v = w) ∧ alpha 2#6 = 0x43#8

/-- R54: `DTAB` is the inverse of `ALPHA`, and every other entry is the invalid entry 0x40. The byte codes of the last clause are the
spec's "[from general knowledge, not in source]" (notes/assumptions/10.md). -/
def Obligations.DecodingTableInvertsAlphabet : Prop :=
  (∀ v : Sextet, dtabInv (alpha v) = false ∧ dtabVal (alpha v) = v) ∧
  (∀ c : Byte, (∀ v : Sextet, alpha v ≠ c) → dtab c = 0x40#7 ∧ dtabInv c = true ∧ dtabVal c = 0#6) ∧
  (∀ c : Byte, c = padch ∨ c = 0x2D#8 ∨ c = 0x5F#8 ∨ c = 0x20#8 ∨ c = 0x09#8 ∨ c = 0x0A#8 ∨ c = 0x0D#8 ∨ 0x80#8 ≤ c → dtabInv c = true)

/-- R55: the byte view and the sextet view of the 24 bits of a group, in both directions. -/
def Obligations.GroupLayout : Prop :=
  ∀ b0 b1 b2 : Byte,
    let g := pack3 b0 b1 b2
    g.extractLsb' 16 8 = b0 ∧ g.extractLsb' 8 8 = b1 ∧ g.extractLsb' 0 8 = b2 ∧
    g.toNat = b0.toNat * 65536 + b1.toNat * 256 + b2.toNat ∧
    sextet0 g = b0.extractLsb' 2 6 ∧ sextet1 g = b0.extractLsb' 0 2 ++ b1.extractLsb' 4 4 ∧
    sextet2 g = b1.extractLsb' 0 4 ++ b2.extractLsb' 6 2 ∧ sextet3 g = b2.extractLsb' 0 6 ∧
    b0 = sextet0 g ++ (sextet1 g).extractLsb' 4 2 ∧ b1 = (sextet1 g).extractLsb' 0 4 ++ (sextet2 g).extractLsb' 2 4 ∧
    b2 = (sextet2 g).extractLsb' 0 2 ++ sextet3 g

/-- R94: which sextets may stand before one and before two trailing `=`. -/
def Obligations.LegalLastSextets : Prop :=
  ∀ v : Sextet,
    padBitsNonzero 0 v = false ∧
    (padBitsNonzero 1 v = false ↔ v.toNat % 4 = 0) ∧
    (padBitsNonzero 2 v = false ↔ v.toNat = 0 ∨ v.toNat = 16 ∨ v.toNat = 32 ∨ v.toNat = 48)

/-- R6: the ranges of the two parameters, their defaults, and the two derived capacities with their bounds. -/
def Obligations.DerivedCapacities : Prop :=
  (∀ p : Params, p.wf = true ↔ (1 ≤ p.ecap ∧ p.ecap ≤ 49149 ∧ 1 ≤ p.dcap ∧ p.dcap ≤ 65535)) ∧
  (∀ p : Params, p.wf = true →
    ocap p .e = (p.ecap + 3 - 1) / 3 * 4 ∧ ocap p .d = p.dcap / 4 * 3 ∧ icap p .e = p.ecap ∧ icap p .d = p.dcap ∧
    ocap p .e ≤ 65532 ∧ ocap p .d ≤ 49149) ∧
  Params.default.ecap = 192 ∧ Params.default.dcap = 256 ∧ ocap Params.default .e = 256 ∧ ocap Params.default .d = 192

/-! ## The encoder (41_encoder.md R75 to R87) -/

/-- R76: `ENC` on any payload `b` in `IBUF.E`: it answers 0x0800 and leaves `encode(b)` in `OBUF.E`, with `OLEN.E = ceil(ILEN.E/3)*4`,
`RPTR.E = 0`, `RES.E = OK`. It writes no element at or above `OLEN.E`, not the input, not `OVF.E`, nothing of unit D. -/
def Obligations.EncComputesEncode : Prop :=
  ∀ (s : State) (b : List Byte), s.cfg.wf = true → s.e.regs.ilen.toNat ≤ s.cfg.ecap → s.e.regs.ovf = false →
    inMessage .e s = some b →
      ∃ t, exec .enc s = .next t ∧ outMessage .e t = some (base64Encode b) ∧
        t.e.regs.olen.toNat = (s.e.regs.ilen.toNat + 2) / 3 * 4 ∧ t.e.regs.rptr = 0#16 ∧ t.e.regs.res = .ok ∧ readEkind .e t = .none ∧
        t.resps = s.resps ++ [0x0800#16] ∧
        (∀ i, t.e.regs.olen.toNat ≤ i → Memory.find t.e.regs.obuf i = Memory.find s.e.regs.obuf i) ∧
        (∀ i, Memory.find t.e.regs.ibuf i = Memory.find s.e.regs.ibuf i) ∧
        t.e.regs.ilen = s.e.regs.ilen ∧ t.e.regs.ovf = false ∧ t.e.stg = .idle ∧ t.d = s.d ∧ t.cfg = s.cfg ∧ t.port = s.port

/-- R83: the length of a text and its number of padding characters. -/
def Obligations.EncodeLength : Prop :=
  ∀ b : List Byte,
    (base64Encode b).length = (b.length + 2) / 3 * 4 ∧ (base64Encode b).length % 4 = 0 ∧
    trailingPads (base64Encode b) = (if b.length % 3 = 1 then 2 else if b.length % 3 = 2 then 1 else 0) ∧
    (∀ p : Params, b.length ≤ p.ecap → (base64Encode b).length ≤ eocap p)

/-- R87: every character of a text is an Alphabet character or `=`; a `=` stands only in the last two positions; the text is a valid
encoded text. -/
def Obligations.EncodeShape : Prop :=
  ∀ b : List Byte,
    (∀ c ∈ base64Encode b, c = padch ∨ ∃ v, c = alpha v) ∧
    (∀ i, (base64Encode b)[i]? = some padch → (base64Encode b).length ≤ i + 2) ∧
    ValidText (base64Encode b) ∧ base64Decode (base64Encode b) = .ok b

/-- R131: the encodings of two pieces join to the encoding of the whole exactly when the first piece's length is a multiple of 3, or the
second is empty. -/
def Obligations.EncodeOfPieces : Prop :=
  ∀ a b : List Byte, base64Encode (a ++ b) = base64Encode a ++ base64Encode b ↔ (a.length % 3 = 0 ∨ b = [])

/-- R85: the transitions of a run of unit E, row by row, with their work; the bytes of the chunk and the room for its characters are the
hypotheses. -/
def Obligations.EncoderStageTable : Prop :=
  ∀ (p : Params) (e : UnitE),
    startE e = { e with ei := 0#16, eo := 0#16, stg := .chunk } ∧
    (∀ b0 b1 b2, e.stg = .chunk → 3 ≤ e.regs.ilen.toNat - e.ei.toNat → e.ei.toNat + 2 < p.ecap → e.eo.toNat + 3 < eocap p →
      Memory.find e.regs.ibuf e.ei.toNat = some b0 → Memory.find e.regs.ibuf (e.ei.toNat + 1) = some b1 →
      Memory.find e.regs.ibuf (e.ei.toNat + 2) = some b2 →
        ∃ m, stageE p e = .ok { e with
            regs := { e.regs with obuf := m }, pack := pack3 b0 b1 b2, ei := e.ei + 3#16, eo := e.eo + 4#16 } ∧
          ∀ i, Memory.find m i =
            if i = e.eo.toNat then some (alpha (sextet0 (pack3 b0 b1 b2)))
            else if i = e.eo.toNat + 1 then some (alpha (sextet1 (pack3 b0 b1 b2)))
            else if i = e.eo.toNat + 2 then some (alpha (sextet2 (pack3 b0 b1 b2)))
            else if i = e.eo.toNat + 3 then some (alpha (sextet3 (pack3 b0 b1 b2)))
            else Memory.find e.regs.obuf i) ∧
    (e.stg = .chunk → e.regs.ilen.toNat - e.ei.toNat < 3 → stageE p e = .ok { e with stg := .tail }) ∧
    (e.stg = .tail → e.regs.ilen.toNat - e.ei.toNat = 0 → stageE p e = .ok { e with stg := .done }) ∧
    (∀ b0, e.stg = .tail → e.regs.ilen.toNat - e.ei.toNat = 1 → e.ei.toNat < p.ecap → e.eo.toNat + 3 < eocap p →
      Memory.find e.regs.ibuf e.ei.toNat = some b0 →
        ∃ m, stageE p e = .ok { e with
            regs := { e.regs with obuf := m }, pack := pack3 b0 0#8 0#8, eo := e.eo + 4#16, stg := .done } ∧
          ∀ i, Memory.find m i =
            if i = e.eo.toNat then some (alpha (b0.extractLsb' 2 6))
            else if i = e.eo.toNat + 1 then some (alpha (cat 6 (b0.extractLsb' 0 2) 0#4))
            else if i = e.eo.toNat + 2 ∨ i = e.eo.toNat + 3 then some padch
            else Memory.find e.regs.obuf i) ∧
    (∀ b0 b1, e.stg = .tail → e.regs.ilen.toNat - e.ei.toNat = 2 → e.ei.toNat + 1 < p.ecap → e.eo.toNat + 3 < eocap p →
      Memory.find e.regs.ibuf e.ei.toNat = some b0 → Memory.find e.regs.ibuf (e.ei.toNat + 1) = some b1 →
        ∃ m, stageE p e = .ok { e with
            regs := { e.regs with obuf := m }, pack := pack3 b0 b1 0#8, eo := e.eo + 4#16, stg := .done } ∧
          ∀ i, Memory.find m i =
            if i = e.eo.toNat then some (alpha (b0.extractLsb' 2 6))
            else if i = e.eo.toNat + 1 then some (alpha (cat 6 (b0.extractLsb' 0 2) (b1.extractLsb' 4 4)))
            else if i = e.eo.toNat + 2 then some (alpha (cat 6 (b1.extractLsb' 0 4) 0#2))
            else if i = e.eo.toNat + 3 then some padch
            else Memory.find e.regs.obuf i) ∧
    (e.stg = .done → stageE p e = .ok { e with regs := { e.regs with olen := e.eo, res := .ok }, stg := .idle })

/-- R21, R22 within a run of unit E: `EI` is a multiple of 3 and at most `ILEN.E`, `EO = 4 * (EI div 3)` while chunks are processed, `EO`
is at most `EOCAP`, and no transition wraps. -/
def Obligations.EncoderRunInvariant : Prop :=
  ∀ (p : Params) (e e' : UnitE), p.wf = true → e.regs.ilen.toNat ≤ p.ecap →
    (e.stg = .chunk ∨ e.stg = .tail) →
    e.ei.toNat % 3 = 0 → e.ei.toNat ≤ e.regs.ilen.toNat → e.eo.toNat = 4 * (e.ei.toNat / 3) →
    (e.stg = .tail → e.regs.ilen.toNat - e.ei.toNat < 3) → stageE p e = .ok e' →
      e'.ei.toNat % 3 = 0 ∧ e'.ei.toNat ≤ e'.regs.ilen.toNat ∧ e'.eo.toNat ≤ eocap p ∧
      (e'.stg = .chunk → e'.ei.toNat = e.ei.toNat + 3 ∧ e'.eo.toNat = 4 * (e'.ei.toNat / 3)) ∧
      (e'.stg = .tail → e'.eo.toNat = 4 * (e'.ei.toNat / 3) ∧ e'.regs.ilen.toNat - e'.ei.toNat < 3) ∧
      (e'.stg = .done → e'.eo.toNat = (e'.regs.ilen.toNat + 2) / 3 * 4)

/-! ## The decoder (42_decoder.md R88 to R103) -/

/-- R89: `DEC` on any text `x` in `IBUF.D`. If `decode(x)` is `Ok(out)` it answers 0x0800 and leaves `out` in `OBUF.D`; if it is
`Fail(kind)` it answers 0x1000 | kind << 8 with `OLEN.D = 0` and writes no element of `OBUF.D`. The input, `OVF.D` and unit E are not
written. -/
def Obligations.DecComputesDecode : Prop :=
  ∀ (s : State) (x : List Byte), s.cfg.wf = true → s.d.regs.ilen.toNat ≤ s.cfg.dcap → s.d.regs.ovf = false →
    inMessage .d s = some x →
      ∃ t, exec .dec s = .next t ∧
        (∀ out, base64Decode x = .ok out →
          outMessage .d t = some out ∧ t.d.regs.olen.toNat = out.length ∧ t.d.regs.res = .ok ∧ t.d.ekind = .none ∧
          t.resps = s.resps ++ [0x0800#16] ∧
          ∀ i, t.d.regs.olen.toNat ≤ i → Memory.find t.d.regs.obuf i = Memory.find s.d.regs.obuf i) ∧
        (∀ k, base64Decode x = .error k →
          t.d.regs.olen = 0#16 ∧ t.d.regs.res = .malformed ∧ t.d.ekind = .fail k ∧
          t.resps = s.resps ++ [0x1000#16 ||| ((EKind.fail k).code.setWidth 16 <<< 8)] ∧
          ∀ i, Memory.find t.d.regs.obuf i = Memory.find s.d.regs.obuf i) ∧
        t.d.regs.rptr = 0#16 ∧ (∀ i, Memory.find t.d.regs.ibuf i = Memory.find s.d.regs.ibuf i) ∧ t.d.regs.ilen = s.d.regs.ilen ∧
        t.d.regs.ovf = false ∧ t.d.stg = .start ∧ t.e = s.e ∧ t.cfg = s.cfg ∧ t.port = s.port

/-- R91 to R94 and the order of R108: each kind of failure is reported exactly when its step is the first that fails. -/
def Obligations.DecodeFailureOrder : Prop :=
  ∀ t : List Byte,
    (base64Decode t = .error .length ↔ t.length % 4 ≠ 0) ∧
    (base64Decode t = .error .padding ↔ (t.length % 4 = 0 ∧ 3 ≤ trailingPads t)) ∧
    (base64Decode t = .error .char ↔
      (t.length % 4 = 0 ∧ trailingPads t ≤ 2 ∧ ∃ c ∈ t.take (t.length - trailingPads t), dtabInv c = true)) ∧
    (base64Decode t = .error .padBits ↔
      (t.length % 4 = 0 ∧ trailingPads t ≤ 2 ∧ (∀ c ∈ t.take (t.length - trailingPads t), dtabInv c = false) ∧
        ((trailingPads t = 1 ∧ (dtabVal (charAt t (t.length - 2))).toNat % 4 ≠ 0) ∨
          (trailingPads t = 2 ∧ (dtabVal (charAt t (t.length - 3))).toNat % 16 ≠ 0))))

/-- R96: the length of a decoded payload. -/
def Obligations.DecodeLength : Prop :=
  ∀ t out : List Byte, base64Decode t = .ok out →
    out.length = 3 * (t.length / 4) - trailingPads t ∧ out.length = 6 * (t.length - trailingPads t) / 8 ∧
    (∀ p : Params, t.length ≤ p.dcap → out.length ≤ docap p)

/-- R101: decoding quantum by quantum. A full quantum of valid characters before an accepted rest gives the three bytes of its group; a
last quantum with one `=` gives two bytes, with two `=` one byte. -/
def Obligations.DecodeQuantumByQuantum : Prop :=
  (∀ (c0 c1 c2 c3 : Byte) (rest out : List Byte),
    dtabInv c0 = false → dtabInv c1 = false → dtabInv c2 = false → dtabInv c3 = false → base64Decode rest = .ok out →
      base64Decode (c0 :: c1 :: c2 :: c3 :: rest) = .ok (
        [dtabVal c0 ++ (dtabVal c1).extractLsb' 4 2, (dtabVal c1).extractLsb' 0 4 ++ (dtabVal c2).extractLsb' 2 4,
          (dtabVal c2).extractLsb' 0 2 ++ dtabVal c3] ++ out)) ∧
  (∀ c0 c1 c2 : Byte, dtabInv c0 = false → dtabInv c1 = false → dtabInv c2 = false → (dtabVal c2).extractLsb' 0 2 = 0#2 →
    base64Decode [c0, c1, c2, padch] =
      .ok [dtabVal c0 ++ (dtabVal c1).extractLsb' 4 2, (dtabVal c1).extractLsb' 0 4 ++ (dtabVal c2).extractLsb' 2 4]) ∧
  (∀ c0 c1 : Byte, dtabInv c0 = false → dtabInv c1 = false → (dtabVal c1).extractLsb' 0 4 = 0#4 →
    base64Decode [c0, c1, padch, padch] = .ok [dtabVal c0 ++ (dtabVal c1).extractLsb' 4 2])

/-- R102, R57: the decoder accepts exactly the encoder's texts, which are exactly the valid encoded texts. -/
def Obligations.AcceptedTextsAreEncodedTexts : Prop :=
  (∀ t b : List Byte, base64Decode t = .ok b ↔ t = base64Encode b) ∧
  (∀ t : List Byte, ValidText t ↔ ∃ b, base64Decode t = .ok b) ∧
  (∀ t : List Byte, ValidText t ↔ ∃ b, t = base64Encode b)

/-- R100: the round trip, as functions and through both units: what `ENC` leaves in `OBUF.E`, moved to `IBUF.D`, is decoded by `DEC` to
the payload. -/
def Obligations.RoundTripThroughBothUnits : Prop :=
  (∀ b : List Byte, base64Decode (base64Encode b) = .ok b) ∧
  (∀ (s t s' : State) (b : List Byte), s.Inv → inMessage .e s = some b → s.e.regs.ovf = false → exec .enc s = .next t →
    s'.Inv → s'.d.regs.ovf = false → inMessage .d s' = outMessage .e t →
      ∃ t', exec .dec s' = .next t' ∧ t'.d.regs.res = .ok ∧ outMessage .d t' = some b)

/-- R98: a failed `DEC` leaves `OLEN.D = 0` and does not write `OBUF.D`, a pop then returns no byte, and the same text fails the same
way again. -/
def Obligations.NoPartialSuccess : Prop :=
  ∀ s t : State, exec .dec s = .next t → t.d.regs.res ≠ .ok →
    t.d.regs.olen = 0#16 ∧ t.d.regs.rptr = 0#16 ∧ t.d.regs.obuf = s.d.regs.obuf ∧
    (∃ r : Word, exec .dpop t = .next { t with resps := t.resps ++ [r] } ∧ r.getLsbD 14 = true ∧ r.extractLsb' 0 8 = 0#8) ∧
    ∃ x, exec .dec t = .next x ∧ x.d.regs = t.d.regs ∧ x.d.ekind = t.d.ekind

/-- R99, R86: a run repeated with nothing in between gives the same response and the same registers and result, with `RPTR.u` at 0. -/
def Obligations.RunTwiceGivesSameResult : Prop :=
  ∀ (i : Instr) (s t : State), s.Inv → kindOf i = .run → exec i s = .next t →
    ∃ x r, exec i t = .next x ∧ getRegs (unitOf i) x = getRegs (unitOf i) t ∧ readEkind (unitOf i) x = readEkind (unitOf i) t ∧
      (getRegs (unitOf i) x).rptr = 0#16 ∧ t.resps = s.resps ++ [r] ∧ x.resps = t.resps ++ [r]

/-- R86, R99: the result of a run depends only on the input message and on `OVF.u`, not on earlier runs, on the output buffer, on the
pointer, on the other unit, or on the hidden registers. -/
def Obligations.RunDependsOnlyOnInput : Prop :=
  ∀ (i : Instr) (s s' t t' : State), s.Inv → s'.Inv → kindOf i = .run →
    inMessage (unitOf i) s = inMessage (unitOf i) s' → (getRegs (unitOf i) s).ovf = (getRegs (unitOf i) s').ovf →
    exec i s = .next t → exec i s' = .next t' →
      outMessage (unitOf i) t = outMessage (unitOf i) t' ∧ (getRegs (unitOf i) t).olen = (getRegs (unitOf i) t').olen ∧
      (getRegs (unitOf i) t).res = (getRegs (unitOf i) t').res ∧ readEkind (unitOf i) t = readEkind (unitOf i) t' ∧
      ∃ r, t.resps = s.resps ++ [r] ∧ t'.resps = s'.resps ++ [r]

/-- R97: the transitions of a run of unit D, row by row (the rows that read a character have it as hypothesis). The work of step 6 is
`DecoderLoopLosesNoBit` and `DecComputesDecode`. -/
def Obligations.DecoderStageTable : Prop :=
  ∀ (p : Params) (d : UnitD),
    (d.stg = .start → d.regs.ilen = 0#16 → stageD p d = .ok { d with regs := { d.regs with res := .ok }, stg := .done }) ∧
    (d.stg = .start → 0 < d.regs.ilen.toNat → d.regs.ilen.toNat % 4 = 0 → stageD p d = .ok { d with stg := .lengthChecked }) ∧
    (d.stg = .start → d.regs.ilen.toNat % 4 ≠ 0 → stageD p d = .ok (raiseFail .length d)) ∧
    (∀ c1 c2 c3, d.stg = .lengthChecked → 4 ≤ d.regs.ilen.toNat → d.regs.ilen.toNat ≤ p.dcap →
      Memory.find d.regs.ibuf (d.regs.ilen.toNat - 1) = some c1 → Memory.find d.regs.ibuf (d.regs.ilen.toNat - 2) = some c2 →
      Memory.find d.regs.ibuf (d.regs.ilen.toNat - 3) = some c3 →
        stageD p d = .ok (
          if c1 ≠ padch then { d with padcnt := 0#2, stg := .paddingCounted }
          else if c2 ≠ padch then { d with padcnt := 1#2, stg := .paddingCounted }
          else if c3 ≠ padch then { d with padcnt := 2#2, stg := .paddingCounted }
          else raiseFail .padding d)) ∧
    (d.stg = .paddingCounted → stageD p d = .ok { d with di := 0#16, stg := .charScan }) ∧
    (∀ c, d.stg = .charScan → d.di.toNat < d.regs.ilen.toNat - d.padcnt.toNat → d.di.toNat < p.dcap →
      Memory.find d.regs.ibuf d.di.toNat = some c →
        stageD p d = .ok (if dtabInv c then raiseFail .char d else { d with di := d.di + 1#16 })) ∧
    (∀ c, d.stg = .charScan → d.di.toNat = d.regs.ilen.toNat - d.padcnt.toNat → d.padcnt.toNat ≤ 2 →
      d.padcnt.toNat < d.regs.ilen.toNat → d.regs.ilen.toNat ≤ p.dcap →
      Memory.find d.regs.ibuf (d.regs.ilen.toNat - d.padcnt.toNat - 1) = some c →
        stageD p d = .ok (
          if (d.padcnt = 1#2 ∧ (dtabVal c).toNat % 4 ≠ 0) ∨ (d.padcnt = 2#2 ∧ (dtabVal c).toNat % 16 ≠ 0) then raiseFail .padBits d
          else { d with stg := .paddingBitsChecked })) ∧
    (∀ d', d.stg = .paddingBitsChecked → stageD p d = .ok d' → d'.stg = .reassembled) ∧
    (d.stg = .reassembled → stageD p d = .ok { d with regs := { d.regs with olen := d.dOut, res := .ok }, stg := .done }) ∧
    (d.stg = .done ∨ d.stg = .failed → stageD p d = .ok { d with stg := .start })

/-- R104: `raise Fail(kind)` writes `OLEN.D`, `RPTR.D`, `RES.D`, `EKIND.D` and the stage, which the next transition makes idle, and
nothing else of unit D; the response is 0x1000 | kind << 8. -/
def Obligations.RaiseFailEffect : Prop :=
  ∀ (k : FailKind) (d : UnitD) (p : Params),
    raiseFail k d = { d with
      regs := { d.regs with olen := 0#16, rptr := 0#16, res := .malformed }, ekind := .fail k, stg := .failed } ∧
    stageD p (raiseFail k d) = .ok { raiseFail k d with stg := .start } ∧
    ∀ s : State, d.regs.ovf = false →
      respondStatus .d false 0#8 { s with d := { raiseFail k d with stg := .start } } =
        { s with
          d := { raiseFail k d with stg := .start }
          resps := s.resps ++ [0x1000#16 ||| ((EKind.fail k).code.setWidth 16 <<< 8)] }

/-- R105: a run command that finds `OVF.u` = 1 sets `OLEN.u`, `RPTR.u`, `EKIND.u` to 0 and `RES.u` to `FAULT`, answers 0x3800, and does
nothing else: it looks at no input and writes no buffer. -/
def Obligations.FaultEffect : Prop :=
  (∀ s : State, s.e.regs.ovf = true →
    exec .enc s = .next { s with
      e := { s.e with regs := { s.e.regs with olen := 0#16, rptr := 0#16, res := .fault } }
      resps := s.resps ++ [0x3800#16] } ∧ readEkind .e s = .none) ∧
  (∀ s : State, s.d.regs.ovf = true →
    exec .dec s = .next { s with
      d := { s.d with regs := { s.d.regs with olen := 0#16, rptr := 0#16, res := .fault }, ekind := .none }
      resps := s.resps ++ [0x3800#16] })

/-- R95, R22: one turn of step 6. From 0, 2, 4 or 6 buffered bits with `ACC < 2^NB`, the sextet enters below them; when 8 or more are
buffered the top 8 are written at `DO` and the rest kept; no bit is lost, `NB` goes through the cycle 0, 6, 4, 2, and `ACC < 2^NB`. -/
def Obligations.DecoderLoopLosesNoBit : Prop :=
  ∀ (p : Params) (d : UnitD) (c : Byte),
    d.nb.toNat ≤ 6 → d.nb.toNat % 2 = 0 → d.acc.toNat < 2 ^ d.nb.toNat → d.di.toNat < p.dcap → d.dOut.toNat < docap p →
    Memory.find d.regs.ibuf d.di.toNat = some c →
      ∃ d', reassembleTurn p d = .ok d' ∧ d'.nb.toNat ≤ 6 ∧ d'.nb.toNat % 2 = 0 ∧ d'.nb.toNat = (d.nb.toNat + 6) % 8 ∧ d'.acc.toNat < 2 ^ d'.nb.toNat ∧ d'.di = d.di + 1#16 ∧
        (d.nb.toNat + 6 < 8 →
          d'.nb.toNat = d.nb.toNat + 6 ∧ d'.acc.toNat = d.acc.toNat * 64 + (dtabVal c).toNat ∧ d'.dOut = d.dOut ∧ d'.regs = d.regs) ∧
        (8 ≤ d.nb.toNat + 6 →
          d'.nb.toNat + 8 = d.nb.toNat + 6 ∧ d'.dOut = d.dOut + 1#16 ∧
          ∃ b : Byte, (∀ i, Memory.find d'.regs.obuf i = if i = d.dOut.toNat then some b else Memory.find d.regs.obuf i) ∧
            b.toNat * 2 ^ d'.nb.toNat + d'.acc.toNat = d.acc.toNat * 64 + (dtabVal c).toNat)
end

