-- ==== Sys2Proof/Laws/Bits.lean ====
section
/-! SUPPORT. The bits and the value of a concatenation. -/

namespace Sys2Proof

theorem getLsbD_cat {m n : Nat} (w : Nat) (a : BitVec m) (b : BitVec n) (i : Nat) :
    (cat w a b).getLsbD i = (decide (i < w) && if i < n then b.getLsbD i else a.getLsbD (i - n)) := by
  by_cases hw : i < w <;> by_cases hn : i < n
  · simp [cat, hw, hn]
  · simp [cat, hw, hn, BitVec.getLsbD_of_ge b i (by omega)]
  · simp [cat, hw, hn]
  · simp [cat, hw, hn]

/-- `cat` at the sum of the widths is the append of bit vectors. -/
theorem cat_eq_append {m n : Nat} (a : BitVec m) (b : BitVec n) : cat (m + n) a b = a ++ b := by
  apply BitVec.eq_of_getLsbD_eq
  intro i hi
  rw [getLsbD_cat, BitVec.getLsbD_append]
  simp [hi]

theorem toNat_cat {m n : Nat} (a : BitVec m) (b : BitVec n) : (cat (m + n) a b).toNat = a.toNat * 2 ^ n + b.toNat := by
  rw [cat_eq_append, BitVec.toNat_append, Nat.shiftLeft_eq, Nat.mul_comm]
  exact (Nat.two_pow_add_eq_or_of_lt b.isLt a.toNat).symm

/-- A field inside the less significant part. -/
theorem extract_cat_low {m n w : Nat} (a : BitVec m) (b : BitVec n) (s l : Nat) (h : s + l ≤ n) (hw : n ≤ w) :
    (cat w a b).extractLsb' s l = b.extractLsb' s l := by
  apply BitVec.eq_of_getLsbD_eq
  intro i hi
  simp only [BitVec.getLsbD_extractLsb', getLsbD_cat, hi, show s + i < n by omega, show s + i < w by omega, decide_true, Bool.true_and,
    if_true]

/-- A field inside the more significant part. -/
theorem extract_cat_high {m n w : Nat} (a : BitVec m) (b : BitVec n) (s l : Nat) (h : n ≤ s) (hw : s + l ≤ w) :
    (cat w a b).extractLsb' s l = a.extractLsb' (s - n) l := by
  apply BitVec.eq_of_getLsbD_eq
  intro i hi
  simp only [BitVec.getLsbD_extractLsb', getLsbD_cat, hi, show s + i < w by omega, show ¬s + i < n by omega, decide_true, Bool.true_and,
    if_false]
  rw [show s + i - n = s - n + i by omega]

theorem extract_whole {m : Nat} (a : BitVec m) : a.extractLsb' 0 m = a := by
  apply BitVec.eq_of_getLsbD_eq
  intro i hi
  simp [hi]

end Sys2Proof
end

