-- ==== Sys2Proof/Laws/Memory.lean ====
section
/-! SUPPORT. The buffers: read after write, the canonical form is kept, and what `firstN` says. -/

namespace Sys2Proof.Machine

theorem Memory.wf_iff (m : Memory) : Memory.wf m = true ↔ m.Pairwise fun x y => x.1 < y.1 := by
  simp [Memory.wf]

/-- Read after write: the written element, and every other as before. It needs no canonical form. -/
theorem Memory.find_insert (m : Memory) (i j : Nat) (v : Byte) :
    Memory.find (Memory.insert m i v) j = if j = i then some v else Memory.find m j := by
  induction m with
  | nil => simp [Memory.insert, Memory.find, eq_comm]
  | cons x m ih =>
    obtain ⟨k, b⟩ := x
    simp only [Memory.insert]
    split
    · simp [Memory.find, eq_comm]
    · split
      · subst_vars; by_cases h : j = k <;> simp [Memory.find, h, eq_comm]
      · simp only [Memory.find, ih]
        by_cases h : k = j
        · subst h; simp [show ¬k = i by omega]
        · simp [h]

theorem Memory.find_insert_same (m : Memory) (i : Nat) (v : Byte) : Memory.find (Memory.insert m i v) i = some v := by
  simp [Memory.find_insert]

theorem Memory.find_insert_other (m : Memory) {i j : Nat} (v : Byte) (h : j ≠ i) :
    Memory.find (Memory.insert m i v) j = Memory.find m j := by
  simp [Memory.find_insert, h]

theorem Memory.mem_insert {m : Memory} {i : Nat} {v : Byte} {x : Host.Cell} (h : x ∈ Memory.insert m i v) : x = (i, v) ∨ x ∈ m := by
  induction m with
  | nil => exact .inl (by simpa [Memory.insert] using h)
  | cons y m ih =>
    obtain ⟨k, b⟩ := y
    simp only [Memory.insert] at h
    split at h
    · simpa using h
    · split at h
      · rcases List.mem_cons.1 h with h | h <;> simp [h]
      · rcases List.mem_cons.1 h with h | h
        · simp [h]
        · rcases ih h with h | h <;> simp [h]

/-- A write keeps the canonical form. -/
theorem Memory.wf_insert {m : Memory} (h : Memory.wf m = true) (i : Nat) (v : Byte) : Memory.wf (Memory.insert m i v) = true := by
  rw [Memory.wf_iff] at *
  induction m with
  | nil => simp [Memory.insert]
  | cons x m ih =>
    obtain ⟨k, b⟩ := x
    obtain ⟨hx, hm⟩ := List.pairwise_cons.1 h
    simp only [Memory.insert]
    split
    next hik =>
      refine List.pairwise_cons.2 ⟨fun y hy => ?_, h⟩
      rcases List.mem_cons.1 hy with rfl | hy
      · exact hik
      · exact Nat.lt_trans hik (hx y hy)
    next =>
      split
      next hik => subst hik; exact List.pairwise_cons.2 ⟨hx, hm⟩
      next =>
        refine List.pairwise_cons.2 ⟨fun y hy => ?_, ih hm⟩
        rcases Memory.mem_insert hy with rfl | hy
        · show k < i; omega
        · exact hx y hy

/-- A write below the capacity keeps the buffer within it. -/
theorem Memory.fits_insert {cap : Nat} {m : Memory} (h : Memory.Fits cap m) {i : Nat} (hi : i < cap) (v : Byte) :
    Memory.Fits cap (Memory.insert m i v) := by
  refine ⟨Memory.wf_insert h.1 i v, fun x hx => ?_⟩
  rcases Memory.mem_insert hx with rfl | hx
  · exact hi
  · exact h.2 x hx

theorem Memory.find_none_of_lt {m : Memory} {i : Nat} (h : ∀ x ∈ m, i < x.1) : Memory.find m i = none := by
  induction m with
  | nil => rfl
  | cons x m ih =>
    obtain ⟨k, b⟩ := x
    have hk : i < k := h (k, b) (by simp)
    simp only [Memory.find, show ¬k = i by omega, if_false]
    exact ih fun y hy => h y (by simp [hy])

/-- Writing what an element already holds changes nothing. -/
theorem Memory.insert_of_find {m : Memory} (hw : Memory.wf m = true) {i : Nat} {v : Byte} (h : Memory.find m i = some v) :
    Memory.insert m i v = m := by
  rw [Memory.wf_iff] at hw
  induction m with
  | nil => simp [Memory.find] at h
  | cons x m ih =>
    obtain ⟨k, b⟩ := x
    obtain ⟨hx, hm⟩ := List.pairwise_cons.1 hw
    simp only [Memory.find] at h
    split at h
    next hk => subst hk; simp at h; simp [Memory.insert, h]
    next hk =>
      have hik : ¬i < k := by
        intro hik
        rw [Memory.find_none_of_lt fun y hy => Nat.lt_trans hik (hx y hy)] at h
        exact absurd h (by simp)
      simp [Memory.insert, hik, show ¬i = k by omega, ih hm h]

/-- `firstN` is the list of the elements below `n`, each of which holds a value. -/
theorem Memory.firstN_eq_some {m : Memory} {n : Nat} {bs : List Byte} :
    Memory.firstN m n = some bs ↔ bs.length = n ∧ ∀ i < n, Memory.find m i = bs[i]? := by
  induction n generalizing bs with
  | zero => cases bs <;> simp [Memory.firstN]
  | succ n ih =>
    simp only [Memory.firstN]
    constructor
    · intro h
      split at h
      next as a hs ha =>
        obtain ⟨hl, hf⟩ := ih.1 hs
        obtain rfl := Option.some.inj h
        refine ⟨by simp [hl], fun i hi => ?_⟩
        rcases Nat.lt_succ_iff_lt_or_eq.1 hi with hi | rfl
        · rw [hf i hi, List.getElem?_append_left (by omega)]
        · rw [ha, List.getElem?_append_right (by omega)]; simp [hl]
      next => exact absurd h (by simp)
    · rintro ⟨hl, hf⟩
      obtain ⟨as, a, rfl⟩ : ∃ as a, bs = as ++ [a] :=
        ⟨bs.dropLast, bs.getLast (by intro h; simp [h] at hl), (List.dropLast_append_getLast _).symm⟩
      have hla : as.length = n := by simpa using hl
      have hs : Memory.firstN m n = some as :=
        ih.2 ⟨hla, fun i hi => by rw [hf i (by omega), List.getElem?_append_left (by omega)]⟩
      have ha : Memory.find m n = some a := by rw [hf n (by omega), List.getElem?_append_right (by omega)]; simp [hla]
      rw [hs, ha]

theorem Memory.firstN_isSome {m : Memory} {n : Nat} : (Memory.firstN m n).isSome = true ↔ ∀ i < n, (Memory.find m i).isSome = true := by
  induction n with
  | zero => simp [Memory.firstN]
  | succ n ih =>
    simp only [Memory.firstN]
    constructor
    · intro h i hi
      split at h
      next as a hs ha =>
        rcases Nat.lt_succ_iff_lt_or_eq.1 hi with hi | rfl
        · exact ih.1 (by simp [hs]) i hi
        · simp [ha]
      next => simp at h
    · intro h
      obtain ⟨as, hs⟩ := Option.isSome_iff_exists.1 (ih.2 fun i hi => h i (by omega))
      obtain ⟨a, ha⟩ := Option.isSome_iff_exists.1 (h n (by omega))
      simp [hs, ha]

/-- A write at or above `n` does not touch the first `n` elements. -/
theorem Memory.firstN_insert_of_le (m : Memory) {n i : Nat} (v : Byte) (h : n ≤ i) :
    Memory.firstN (Memory.insert m i v) n = Memory.firstN m n := by
  induction n with
  | zero => rfl
  | succ n ih =>
    simp only [Memory.firstN, ih (by omega)]
    rw [Memory.find_insert_other m v (by omega)]

/-- Appending at index `n` appends to the message. -/
theorem Memory.firstN_insert_succ {m : Memory} {n : Nat} {bs : List Byte} (v : Byte) (h : Memory.firstN m n = some bs) :
    Memory.firstN (Memory.insert m n v) (n + 1) = some (bs ++ [v]) := by
  simp [Memory.firstN, Memory.firstN_insert_of_le m v (Nat.le_refl n), Memory.find_insert_same, h]

/-! What a read and a write can do. -/

/-- A read answers the element, which is below the capacity and holds a value. -/
theorem bufRead_ok {cap : Nat} {m : Memory} {i : Nat} {b : Byte} :
    bufRead cap m i = .ok b ↔ i < cap ∧ Memory.find m i = some b := by
  unfold bufRead
  split
  next h => cases hf : Memory.find m i <;> simp [h]
  next h => simp [h]

/-- A write answers the buffer with that element set; it is below the capacity. -/
theorem bufWrite_ok {cap : Nat} {m m' : Memory} {i : Nat} {v : Byte} :
    bufWrite cap m i v = .ok m' ↔ i < cap ∧ m' = Memory.insert m i v := by
  unfold bufWrite
  split
  next h => simp [h, eq_comm]
  next h => simp [h]

/-- Four writes are four elements set; the last is below the capacity. -/
theorem bufWrite4_ok {cap : Nat} {m m' : Memory} {i : Nat} {c0 c1 c2 c3 : Byte} :
    bufWrite4 cap m i c0 c1 c2 c3 = .ok m' ↔
      i + 3 < cap ∧
        m' = Memory.insert (Memory.insert (Memory.insert (Memory.insert m i c0) (i + 1) c1) (i + 2) c2) (i + 3) c3 := by
  simp only [bufWrite4, bufWrite]
  by_cases h : i + 3 < cap
  · have h0 : i < cap := by omega
    have h1 : i + 1 < cap := by omega
    have h2 : i + 2 < cap := by omega
    simp [h, h0, h1, h2, bind, Except.bind, eq_comm]
  · by_cases h0 : i < cap <;> by_cases h1 : i + 1 < cap <;> by_cases h2 : i + 2 < cap <;> simp [h, h0, h1, h2, bind, Except.bind]

end Sys2Proof.Machine
end

