-- ==== Sys2Proof/Laws/State.lean ====
section
/-! SUPPORT. One small lemma per field per update of the state, so that no proof unfolds a record update. -/

namespace Sys2Proof.Machine

section accessors

variable (u : UnitId) (r : UnitRegs) (k : EKind) (s : State) (w : Word)

@[simp] theorem getRegs_setRegs : getRegs u (setRegs u r s) = r := by cases u <;> rfl
@[simp] theorem getRegs_e_setRegs_d : getRegs .e (setRegs .d r s) = getRegs .e s := rfl
@[simp] theorem getRegs_d_setRegs_e : getRegs .d (setRegs .e r s) = getRegs .d s := rfl
@[simp] theorem setRegs_cfg : (setRegs u r s).cfg = s.cfg := by cases u <;> rfl
@[simp] theorem setRegs_port : (setRegs u r s).port = s.port := by cases u <;> rfl
@[simp] theorem setRegs_resps : (setRegs u r s).resps = s.resps := by cases u <;> rfl
@[simp] theorem setRegs_e_d : (setRegs .e r s).d = s.d := rfl
@[simp] theorem setRegs_d_e : (setRegs .d r s).e = s.e := rfl
@[simp] theorem setRegs_getRegs : setRegs u (getRegs u s) s = s := by cases u <;> rfl
@[simp] theorem readEkind_e : readEkind .e s = .none := rfl
@[simp] theorem readEkind_setRegs : readEkind u (setRegs u r s) = readEkind u s := by cases u <;> rfl

@[simp] theorem readEkind_d_writeEkind : readEkind .d (writeEkind .d k s) = k := rfl
@[simp] theorem readEkind_writeEkind_none : readEkind u (writeEkind u .none s) = .none := by cases u <;> rfl
@[simp] theorem writeEkind_e : writeEkind .e k s = s := rfl
@[simp] theorem getRegs_writeEkind (v : UnitId) : getRegs v (writeEkind u k s) = getRegs v s := by cases u <;> cases v <;> rfl
@[simp] theorem writeEkind_cfg : (writeEkind u k s).cfg = s.cfg := by cases u <;> rfl
@[simp] theorem writeEkind_port : (writeEkind u k s).port = s.port := by cases u <;> rfl
@[simp] theorem writeEkind_resps : (writeEkind u k s).resps = s.resps := by cases u <;> rfl
@[simp] theorem writeEkind_d_e : (writeEkind .d k s).e = s.e := rfl

@[simp] theorem respond_cfg : (respond w s).cfg = s.cfg := rfl
@[simp] theorem respond_e : (respond w s).e = s.e := rfl
@[simp] theorem respond_d : (respond w s).d = s.d := rfl
@[simp] theorem respond_port : (respond w s).port = s.port := rfl
@[simp] theorem respond_resps : (respond w s).resps = s.resps ++ [w] := rfl
@[simp] theorem getRegs_respond : getRegs u (respond w s) = getRegs u s := by cases u <;> rfl
@[simp] theorem readEkind_respond : readEkind u (respond w s) = readEkind u s := by cases u <;> rfl

end accessors

section registers

variable (r : UnitRegs)

@[simp] theorem discardResult_ibuf : r.discardResult.ibuf = r.ibuf := rfl
@[simp] theorem discardResult_ilen : r.discardResult.ilen = r.ilen := rfl
@[simp] theorem discardResult_obuf : r.discardResult.obuf = r.obuf := rfl
@[simp] theorem discardResult_olen : r.discardResult.olen = 0#16 := rfl
@[simp] theorem discardResult_rptr : r.discardResult.rptr = 0#16 := rfl
@[simp] theorem discardResult_res : r.discardResult.res = .none := rfl
@[simp] theorem discardResult_ovf : r.discardResult.ovf = r.ovf := rfl

@[simp] theorem cleared_ibuf : r.cleared.ibuf = r.ibuf := rfl
@[simp] theorem cleared_ilen : r.cleared.ilen = 0#16 := rfl
@[simp] theorem cleared_obuf : r.cleared.obuf = r.obuf := rfl
@[simp] theorem cleared_olen : r.cleared.olen = 0#16 := rfl
@[simp] theorem cleared_rptr : r.cleared.rptr = 0#16 := rfl
@[simp] theorem cleared_res : r.cleared.res = .none := rfl
@[simp] theorem cleared_ovf : r.cleared.ovf = false := rfl

end registers

section units

variable (e : UnitE) (d : UnitD) (k : FailKind)

@[simp] theorem forgetE_regs : e.forget.regs = e.regs := rfl
@[simp] theorem forgetE_stg : e.forget.stg = e.stg := rfl
@[simp] theorem forgetD_regs : d.forget.regs = d.regs := rfl
@[simp] theorem forgetD_ekind : d.forget.ekind = d.ekind := rfl
@[simp] theorem forgetD_stg : d.forget.stg = d.stg := rfl

@[simp] theorem raiseFail_ibuf : (raiseFail k d).regs.ibuf = d.regs.ibuf := rfl
@[simp] theorem raiseFail_ilen : (raiseFail k d).regs.ilen = d.regs.ilen := rfl
@[simp] theorem raiseFail_obuf : (raiseFail k d).regs.obuf = d.regs.obuf := rfl
@[simp] theorem raiseFail_olen : (raiseFail k d).regs.olen = 0#16 := rfl
@[simp] theorem raiseFail_rptr : (raiseFail k d).regs.rptr = 0#16 := rfl
@[simp] theorem raiseFail_res : (raiseFail k d).regs.res = .malformed := rfl
@[simp] theorem raiseFail_ovf : (raiseFail k d).regs.ovf = d.regs.ovf := rfl
@[simp] theorem raiseFail_ekind : (raiseFail k d).ekind = .fail k := rfl
@[simp] theorem raiseFail_stg : (raiseFail k d).stg = .failed := rfl

end units

end Sys2Proof.Machine
end

