-- ==== Sys2Proof/Laws/Ops.lean ====
section
/-! SUPPORT. What each shared operation can do, said once; that every memory operation of a command keeps the canonical form. -/

namespace Sys2Proof.Machine

/-- A push always answers: the byte is appended, or it is dropped and `OVF` set; either way the result is discarded (R64, R65). -/
theorem pushRegs_cases (cap : Nat) (b : Byte) (r : UnitRegs) :
    (r.ilen.toNat < cap ∧
      pushRegs cap b r = .ok { r.discardResult with ibuf := Memory.insert r.ibuf r.ilen.toNat b, ilen := r.ilen + 1#16 }) ∨
    (cap ≤ r.ilen.toNat ∧ pushRegs cap b r = .ok { r.discardResult with ovf := true }) := by
  by_cases h : r.ilen.toNat < cap
  · exact .inl ⟨h, by simp [pushRegs, bufWrite, h]⟩
  · exact .inr ⟨by omega, by simp [pushRegs, h]⟩

theorem pushUnit_next {u : UnitId} {b : Byte} {s : State} :
    ∃ r, pushRegs (icap s.cfg u) b (getRegs u s) = .ok r ∧
      pushUnit u b s = .next (respondStatus u false 0#8 (writeEkind u .none (setRegs u r s))) := by
  rcases pushRegs_cases (icap s.cfg u) b (getRegs u s) with ⟨_, h⟩ | ⟨_, h⟩ <;> exact ⟨_, h, by simp [pushUnit, h]⟩

/-- What a pop does when it answers: the next byte, or the empty pop, which changes nothing (R66, R67, R116). -/
theorem popUnit_next {u : UnitId} {s t : State} (h : popUnit u s = .next t) :
    (∃ v, hasUnread u s ∧ Memory.find (getRegs u s).obuf (getRegs u s).rptr.toNat = some v ∧
      t = respondStatus u false v (setRegs u { getRegs u s with rptr := (getRegs u s).rptr + 1#16 } s)) ∨
    (¬hasUnread u s ∧ t = respondStatus u true 0#8 s) := by
  unfold popUnit at h
  split at h
  next hu =>
    split at h
    next v hv =>
      simp only [Host.Outcome.next.injEq] at h
      exact .inl ⟨v, hu, (bufRead_ok.1 hv).2, h.symm⟩
    next => exact absurd h (by simp)
  next hu =>
    simp only [Host.Outcome.next.injEq] at h
    exact .inr ⟨hu, h.symm⟩

/-- A pop with an unread byte answers it when the buffer holds it. -/
theorem popUnit_of_find {u : UnitId} {s : State} {v : Byte} (hu : hasUnread u s)
    (hc : (getRegs u s).rptr.toNat < ocap s.cfg u) (hf : Memory.find (getRegs u s).obuf (getRegs u s).rptr.toNat = some v) :
    popUnit u s = .next (respondStatus u false v (setRegs u { getRegs u s with rptr := (getRegs u s).rptr + 1#16 } s)) := by
  have hr : bufRead (ocap s.cfg u) (getRegs u s).obuf (getRegs u s).rptr.toNat = .ok v := bufRead_ok.2 ⟨hc, hf⟩
  simp only [popUnit, hr]
  exact if_pos hu

theorem popUnit_empty {u : UnitId} {s : State} (hu : ¬hasUnread u s) : popUnit u s = .next (respondStatus u true 0#8 s) := by
  unfold popUnit; exact if_neg hu

section beginRun

variable (u : UnitId) (s : State)

@[simp] theorem beginRun_cfg : (beginRun u s).cfg = s.cfg := by simp [beginRun]
@[simp] theorem beginRun_port : (beginRun u s).port = s.port := by simp [beginRun]
@[simp] theorem beginRun_resps : (beginRun u s).resps = s.resps := by simp [beginRun]
@[simp] theorem beginRun_e_d : (beginRun .e s).d = s.d := rfl
@[simp] theorem beginRun_d_e : (beginRun .d s).e = s.e := rfl

@[simp] theorem beginRun_getRegs : getRegs u (beginRun u s) = { getRegs u s with olen := 0#16, rptr := 0#16 } := by
  simp [beginRun]

theorem beginRun_e : (beginRun .e s).e = { s.e with regs := { s.e.regs with olen := 0#16, rptr := 0#16 } } := rfl

theorem beginRun_d :
    (beginRun .d s).d = { s.d with regs := { s.d.regs with olen := 0#16, rptr := 0#16 }, ekind := .none } := rfl

end beginRun

section raiseFault

variable (u : UnitId) (s : State)

@[simp] theorem raiseFault_cfg : (raiseFault u s).cfg = s.cfg := by simp [raiseFault, respondStatus]
@[simp] theorem raiseFault_port : (raiseFault u s).port = s.port := by simp [raiseFault, respondStatus]

/-- `raise Fault` writes `OLEN`, `RPTR` and `RES` of the unit's registers, and nothing else of them (R105). -/
@[simp] theorem raiseFault_getRegs :
    getRegs u (raiseFault u s) = { getRegs u s with olen := 0#16, rptr := 0#16, res := .fault } := by
  simp [raiseFault, respondStatus]

@[simp] theorem raiseFault_readEkind : readEkind u (raiseFault u s) = .none := by simp [raiseFault, respondStatus]

end raiseFault

/-- The memory of a push keeps its canonical form and its capacity. -/
theorem pushRegs_fits {cap : Nat} {b : Byte} {r r' : UnitRegs} (h : pushRegs cap b r = .ok r') (hf : Memory.Fits cap r.ibuf) :
    Memory.Fits cap r'.ibuf := by
  rcases pushRegs_cases cap b r with ⟨hl, he⟩ | ⟨hl, he⟩
  · obtain rfl := Except.ok.inj (he.symm.trans h); exact Memory.fits_insert hf hl b
  · obtain rfl := Except.ok.inj (he.symm.trans h); exact hf

/-- The memory of a write keeps its canonical form and its capacity. -/
theorem bufWrite_fits {cap : Nat} {m m' : Memory} {i : Nat} {v : Byte} (h : bufWrite cap m i v = .ok m') (hf : Memory.Fits cap m) :
    Memory.Fits cap m' := by
  obtain ⟨hi, rfl⟩ := bufWrite_ok.1 h; exact Memory.fits_insert hf hi v

theorem bufWrite4_fits {cap : Nat} {m m' : Memory} {i : Nat} {c0 c1 c2 c3 : Byte} (h : bufWrite4 cap m i c0 c1 c2 c3 = .ok m')
    (hf : Memory.Fits cap m) : Memory.Fits cap m' := by
  obtain ⟨hi, rfl⟩ := bufWrite4_ok.1 h
  exact Memory.fits_insert (Memory.fits_insert (Memory.fits_insert (Memory.fits_insert hf (by omega) _) (by omega) _) (by omega) _) hi _

end Sys2Proof.Machine
end

