-- ==== Sys2Proof/Laws/PerInstr.lean ====
section
/-! SUPPORT. Statements about every command as syntax, one lemma per constructor. -/

namespace Sys2Proof.Laws.LegalEncoding

/-- The word of a command passes the three checks of R50. -/
def Statement (i : Instr) : Prop := (cFormatOf (encode i)).wf = true

theorem cWord_fields (op : BitVec 3) (u : BitVec 1) (z : BitVec 4) (b : Byte) :
    cFormatOf (cWord op u z b) = { op := op, u := u, z := z, data := b } := by
  simp [cFormatOf, cWord, extract_cat_low, extract_cat_high]

theorem eclr : Statement .eclr := by unfold Statement; decide
theorem dclr : Statement .dclr := by unfold Statement; decide
theorem epush (b : Byte) : Statement (.epush b) := by simp [Statement, encode, cWord_fields, CFormat.wf]
theorem dpush (c : Byte) : Statement (.dpush c) := by simp [Statement, encode, cWord_fields, CFormat.wf]
theorem enc : Statement .enc := by unfold Statement; decide
theorem dec : Statement .dec := by unfold Statement; decide
theorem epop : Statement .epop := by unfold Statement; decide
theorem dpop : Statement .dpop := by unfold Statement; decide
theorem estat : Statement .estat := by unfold Statement; decide
theorem dstat : Statement .dstat := by unfold Statement; decide
theorem eolen : Statement .eolen := by unfold Statement; decide
theorem dolen : Statement .dolen := by unfold Statement; decide
theorem eilen : Statement .eilen := by unfold Statement; decide
theorem dilen : Statement .dilen := by unfold Statement; decide

end Sys2Proof.Laws.LegalEncoding
end

