-- ==== Sys2Proof/Laws/Stages.lean ====
section
/-! SUPPORT. What one transition of each unit's stage walk can do (41_encoder.md R85, 42_decoder.md R97), and what a run can do. -/

namespace Sys2Proof.Machine

section unitE

variable {p : Params} {e e' : UnitE}

/-- One full chunk, when it answers: three bytes read, four characters written, `EI` and `EO` advanced. -/
theorem fullChunk_ok (h : fullChunk p e = .ok e') :
    ∃ b0 b1 b2 m, chunkByte p e 0 = .ok b0 ∧ chunkByte p e 1 = .ok b1 ∧ chunkByte p e 2 = .ok b2 ∧
      bufWrite4 (eocap p) e.regs.obuf e.eo.toNat (alpha (sextet0 (pack3 b0 b1 b2))) (alpha (sextet1 (pack3 b0 b1 b2)))
        (alpha (sextet2 (pack3 b0 b1 b2))) (alpha (sextet3 (pack3 b0 b1 b2))) = .ok m ∧
      e' = { e with regs := { e.regs with obuf := m }, pack := pack3 b0 b1 b2, ei := e.ei + 3#16, eo := e.eo + 4#16 } := by
  simp only [fullChunk, emitGroup, bind, Except.bind] at h
  split at h
  · exact absurd h (by simp)
  next b0 h0 =>
    split at h
    · exact absurd h (by simp)
    next b1 h1 =>
      split at h
      · exact absurd h (by simp)
      next b2 h2 =>
        split at h
        · exact absurd h (by simp)
        next x hx =>
          split at hx
          · exact absurd hx (by simp)
          next m hm =>
            obtain rfl := Except.ok.inj hx
            exact ⟨b0, b1, b2, m, h0, h1, h2, hm, (Except.ok.inj h).symm⟩

/-- The final partial chunk, when it answers: nothing, or one or two bytes read and four characters written. -/
theorem tailChunk_ok (h : tailChunk p e = .ok e') :
    (leftE e ≠ 1 ∧ leftE e ≠ 2 ∧ e' = e) ∨
    (leftE e = 1 ∧ ∃ b0 m, chunkByte p e 0 = .ok b0 ∧
      bufWrite4 (eocap p) e.regs.obuf e.eo.toNat (alpha (sextet0 (pack3 b0 0#8 0#8))) (alpha (sextet1 (pack3 b0 0#8 0#8))) padch padch
        = .ok m ∧
      e' = { e with regs := { e.regs with obuf := m }, pack := pack3 b0 0#8 0#8, eo := e.eo + 4#16 }) ∨
    (leftE e = 2 ∧ ∃ b0 b1 m, chunkByte p e 0 = .ok b0 ∧ chunkByte p e 1 = .ok b1 ∧
      bufWrite4 (eocap p) e.regs.obuf e.eo.toNat (alpha (sextet0 (pack3 b0 b1 0#8))) (alpha (sextet1 (pack3 b0 b1 0#8)))
        (alpha (sextet2 (pack3 b0 b1 0#8))) padch = .ok m ∧
      e' = { e with regs := { e.regs with obuf := m }, pack := pack3 b0 b1 0#8, eo := e.eo + 4#16 }) := by
  unfold tailChunk at h
  split at h
  next h1 =>
    refine .inr (.inl ⟨h1, ?_⟩)
    simp only [tail1, emitGroup, bind, Except.bind] at h
    split at h
    · exact absurd h (by simp)
    next b0 hb =>
      split at h
      · exact absurd h (by simp)
      next m hm => exact ⟨b0, m, hb, hm, (Except.ok.inj h).symm⟩
  next h1 =>
    split at h
    next h2 =>
      refine .inr (.inr ⟨h2, ?_⟩)
      simp only [tail2, emitGroup, bind, Except.bind] at h
      split at h
      · exact absurd h (by simp)
      next b0 hb =>
        split at h
        · exact absurd h (by simp)
        next b1 hb1 =>
          split at h
          · exact absurd h (by simp)
          next m hm => exact ⟨b0, b1, m, hb, hb1, hm, (Except.ok.inj h).symm⟩
    next h2 => exact .inl ⟨h1, h2, (Except.ok.inj h).symm⟩

/-- One transition of unit E (R85), row by row. -/
theorem stageE_ok (h : stageE p e = .ok e') :
    (e.stg = .idle ∧ e' = e) ∨
    (e.stg = .chunk ∧ 3 ≤ leftE e ∧ fullChunk p e = .ok e') ∨
    (e.stg = .chunk ∧ leftE e < 3 ∧ e' = { e with stg := .tail }) ∨
    (e.stg = .tail ∧ ∃ x, tailChunk p e = .ok x ∧ e' = { x with stg := .done }) ∨
    (e.stg = .done ∧ e' = { e with regs := { e.regs with olen := e.eo, res := .ok }, stg := .idle }) := by
  unfold stageE at h
  split at h
  next hs => exact .inl ⟨hs, (Except.ok.inj h).symm⟩
  next hs =>
    split at h
    next hl => exact .inr (.inl ⟨hs, hl, h⟩)
    next hl => exact .inr (.inr (.inl ⟨hs, by omega, (Except.ok.inj h).symm⟩))
  next hs =>
    refine .inr (.inr (.inr (.inl ⟨hs, ?_⟩)))
    cases hx : tailChunk p e with
    | error f => rw [hx] at h; exact absurd h (by simp [Except.map])
    | ok x => rw [hx] at h; exact ⟨x, rfl, (Except.ok.inj h).symm⟩
  next hs => exact .inr (.inr (.inr (.inr ⟨hs, (Except.ok.inj h).symm⟩)))

/-- One transition never writes the input, its length, the pointer or the overflow flag (R43). -/
theorem stageE_keeps (h : stageE p e = .ok e') :
    e'.regs.ibuf = e.regs.ibuf ∧ e'.regs.ilen = e.regs.ilen ∧ e'.regs.rptr = e.regs.rptr ∧ e'.regs.ovf = e.regs.ovf ∧
      e'.free = e.free := by
  rcases stageE_ok h with ⟨_, rfl⟩ | ⟨_, _, h⟩ | ⟨_, _, rfl⟩ | ⟨_, x, hx, rfl⟩ | ⟨_, rfl⟩
  · simp
  · obtain ⟨_, _, _, _, _, _, _, _, rfl⟩ := fullChunk_ok h; simp
  · simp
  · rcases tailChunk_ok hx with ⟨_, _, rfl⟩ | ⟨_, _, _, _, _, rfl⟩ | ⟨_, _, _, _, _, _, _, rfl⟩ <;> simp
  · simp

/-- A property that every transition keeps holds at the end of a run, which is idle. -/
theorem runE_induct {P : UnitE → Prop} (hP : ∀ a b, stageE p a = .ok b → P a → P b) (n : Nat) (h : runE p n e = .ok e') (h0 : P e) :
    P e' ∧ e'.stg = .idle := by
  induction n generalizing e with
  | zero => exact absurd h (by simp [runE])
  | succ n ih =>
    simp only [runE] at h
    split at h
    · exact absurd h (by simp)
    next x hx =>
      split at h
      next hi => obtain rfl := Except.ok.inj h; exact ⟨hP e _ hx h0, hi⟩
      next => exact ih h (hP e x hx h0)

/-- A run of unit E never writes its input (R43, R86). -/
theorem runE_keeps {n : Nat} (h : runE p n e = .ok e') :
    e'.regs.ibuf = e.regs.ibuf ∧ e'.regs.ilen = e.regs.ilen ∧ e'.regs.rptr = e.regs.rptr ∧ e'.regs.ovf = e.regs.ovf ∧
      e'.free = e.free ∧ e'.stg = .idle := by
  have := runE_induct (P := fun x => x.regs.ibuf = e.regs.ibuf ∧ x.regs.ilen = e.regs.ilen ∧ x.regs.rptr = e.regs.rptr ∧
    x.regs.ovf = e.regs.ovf ∧ x.free = e.free) (fun a b hab ha => by
      obtain ⟨h1, h2, h3, h4, h5⟩ := stageE_keeps hab; simp_all) n h (by simp)
  simp_all

end unitE

section unitD

variable {p : Params} {d d' : UnitD}

/-- Step 3, when it answers, by the number of trailing `=` it sees (R92). -/
theorem discoverPadding_ok (h : discoverPadding p d = .ok d') :
    ∃ c1, textAt p d (d.regs.ilen.toNat - 1) = .ok c1 ∧
      ((c1 ≠ padch ∧ d' = { d with padcnt := 0#2, stg := .paddingCounted }) ∨
        (c1 = padch ∧ ∃ c2, textAt p d (d.regs.ilen.toNat - 2) = .ok c2 ∧
          ((c2 ≠ padch ∧ d' = { d with padcnt := 1#2, stg := .paddingCounted }) ∨
            (c2 = padch ∧ ∃ c3, textAt p d (d.regs.ilen.toNat - 3) = .ok c3 ∧
              ((c3 ≠ padch ∧ d' = { d with padcnt := 2#2, stg := .paddingCounted }) ∨
                (c3 = padch ∧ d' = raiseFail .padding d)))))) := by
  simp only [discoverPadding, bind, Except.bind] at h
  split at h
  · exact absurd h (by simp)
  next c1 h1 =>
    refine ⟨c1, h1, ?_⟩
    split at h
    next n1 => exact .inl ⟨n1, (Except.ok.inj h).symm⟩
    next n1 =>
      refine .inr ⟨by simpa using n1, ?_⟩
      split at h
      · exact absurd h (by simp)
      next c2 h2 =>
        refine ⟨c2, h2, ?_⟩
        split at h
        next n2 => exact .inl ⟨n2, (Except.ok.inj h).symm⟩
        next n2 =>
          refine .inr ⟨by simpa using n2, ?_⟩
          split at h
          · exact absurd h (by simp)
          next c3 h3 =>
            refine ⟨c3, h3, ?_⟩
            split at h
            next n3 => exact .inl ⟨n3, (Except.ok.inj h).symm⟩
            next n3 => exact .inr ⟨by simpa using n3, (Except.ok.inj h).symm⟩

/-- Step 5, when it answers (R94). -/
theorem checkPadBits_ok (h : checkPadBits p d = .ok d') :
    d' = { d with stg := .paddingBitsChecked } ∨ d' = raiseFail .padBits d := by
  have two : ∀ (x : Except Fault Byte) (q : Nat),
      (x.bind fun c => if padBitsNonzero q (dtabVal c) = true then .ok (raiseFail .padBits d)
        else .ok { d with stg := .paddingBitsChecked }) = .ok d' →
      d' = { d with stg := .paddingBitsChecked } ∨ d' = raiseFail .padBits d := by
    intro x q hx
    cases x with
    | error f => exact absurd hx (by simp [Except.bind])
    | ok c =>
      simp only [Except.bind] at hx
      split at hx
      · exact .inr (Except.ok.inj hx).symm
      · exact .inl (Except.ok.inj hx).symm
  unfold checkPadBits at h
  split at h
  · exact two _ 1 h
  · split at h
    · exact two _ 2 h
    · exact .inl (Except.ok.inj h).symm

/-- One turn of the scan, or its end, when it answers (R93). -/
theorem scanChar_ok (h : scanChar p d = .ok d') :
    (d.di.toNat < prefixLen d ∧ ∃ c, textAt p d d.di.toNat = .ok c ∧
      ((dtabInv c = true ∧ d' = raiseFail .char d) ∨ (dtabInv c = false ∧ d' = { d with di := d.di + 1#16 }))) ∨
    (prefixLen d ≤ d.di.toNat ∧ checkPadBits p d = .ok d') := by
  unfold scanChar at h
  split at h
  next hl =>
    refine .inl ⟨hl, ?_⟩
    simp only [bind, Except.bind] at h
    split at h
    · exact absurd h (by simp)
    next c hc =>
      refine ⟨c, hc, ?_⟩
      split at h
      next hi => exact .inl ⟨hi, (Except.ok.inj h).symm⟩
      next hi => exact .inr ⟨by simpa using hi, (Except.ok.inj h).symm⟩
  next hl => exact .inr ⟨by omega, h⟩

/-- The emission of step 6, when it answers (R95). -/
theorem emitByte_ok (h : emitByte p d = .ok d') :
    (d.nb.toNat < 8 ∧ d' = d) ∨
    (8 ≤ d.nb.toNat ∧ d.dOut.toNat < docap p ∧
      d' = { d with
        regs := { d.regs with obuf := Memory.insert d.regs.obuf d.dOut.toNat (accEmit d.acc (d.nb - 8#4)) }
        nb := d.nb - 8#4, dOut := d.dOut + 1#16, acc := accRetain d.acc (d.nb - 8#4) }) := by
  unfold emitByte at h
  split at h
  next hn =>
    refine .inr ⟨hn, ?_⟩
    simp only [bind, Except.bind] at h
    split at h
    · exact absurd h (by simp)
    next m hm =>
      obtain ⟨hi, rfl⟩ := bufWrite_ok.1 hm
      exact ⟨hi, (Except.ok.inj h).symm⟩
  next hn => exact .inl ⟨by omega, (Except.ok.inj h).symm⟩

/-- One turn of step 6's loop, when it answers (R89, R95). -/
theorem reassembleTurn_ok (h : reassembleTurn p d = .ok d') :
    ∃ c x, textAt p d d.di.toNat = .ok c ∧
      emitByte p { d with acc := accShiftIn d.acc (dtabVal c), nb := d.nb + 6#4 } = .ok x ∧ d' = { x with di := x.di + 1#16 } := by
  simp only [reassembleTurn, bind, Except.bind] at h
  split at h
  · exact absurd h (by simp)
  next c hc =>
    split at h
    · exact absurd h (by simp)
    next x hx => exact ⟨c, x, hc, hx, (Except.ok.inj h).symm⟩

/-- A turn of step 6's loop never writes the input, the status or `PADCNT`. -/
theorem reassembleTurn_keeps (h : reassembleTurn p d = .ok d') :
    d'.regs = { d.regs with obuf := d'.regs.obuf } ∧ d'.ekind = d.ekind ∧ d'.padcnt = d.padcnt ∧ d'.stg = d.stg ∧ d'.free = d.free := by
  obtain ⟨c, x, _, hx, rfl⟩ := reassembleTurn_ok h
  rcases emitByte_ok hx with ⟨_, rfl⟩ | ⟨_, _, rfl⟩ <;> simp

theorem reassembleLoop_keeps {k : Nat} (h : reassembleLoop p k d = .ok d') :
    d'.regs = { d.regs with obuf := d'.regs.obuf } ∧ d'.ekind = d.ekind ∧ d'.padcnt = d.padcnt ∧ d'.stg = d.stg ∧ d'.free = d.free := by
  induction k generalizing d with
  | zero => obtain rfl := Except.ok.inj h; simp
  | succ k ih =>
    simp only [reassembleLoop] at h
    split at h
    · exact absurd h (by simp)
    next x hx =>
      obtain ⟨r1, r2, r3, r4, r5⟩ := reassembleTurn_keeps hx
      obtain ⟨q1, q2, q3, q4, q5⟩ := ih h
      exact ⟨by rw [q1, r1], q2.trans r2, q3.trans r3, q4.trans r4, q5.trans r5⟩

/-- Step 6, when it answers: the loop from zeroed registers, then the stage. -/
theorem reassemble_ok (h : reassemble p d = .ok d') :
    ∃ x, reassembleLoop p (prefixLen d) { d with acc := 0#12, nb := 0#4, di := 0#16, dOut := 0#16 } = .ok x ∧
      d' = { x with stg := .reassembled } := by
  unfold reassemble at h
  cases hx : reassembleLoop p (prefixLen d) { d with acc := 0#12, nb := 0#4, di := 0#16, dOut := 0#16 } with
  | error f => rw [hx] at h; exact absurd h (by simp [Except.map])
  | ok x => rw [hx] at h; exact ⟨x, rfl, (Except.ok.inj h).symm⟩

/-- One transition of unit D (R97), row by row. -/
theorem stageD_ok (h : stageD p d = .ok d') :
    (d.stg = .start ∧ d' = checkLength d) ∨
    (d.stg = .lengthChecked ∧ discoverPadding p d = .ok d') ∨
    (d.stg = .paddingCounted ∧ d' = { d with di := 0#16, stg := .charScan }) ∨
    (d.stg = .charScan ∧ scanChar p d = .ok d') ∨
    (d.stg = .paddingBitsChecked ∧ reassemble p d = .ok d') ∨
    (d.stg = .reassembled ∧ d' = { d with regs := { d.regs with olen := d.dOut, res := .ok }, stg := .done }) ∨
    ((d.stg = .done ∨ d.stg = .failed) ∧ d' = { d with stg := .start }) := by
  unfold stageD at h
  split at h
  next hs => exact .inl ⟨hs, (Except.ok.inj h).symm⟩
  next hs => exact .inr (.inl ⟨hs, h⟩)
  next hs => exact .inr (.inr (.inl ⟨hs, (Except.ok.inj h).symm⟩))
  next hs => exact .inr (.inr (.inr (.inl ⟨hs, h⟩)))
  next hs => exact .inr (.inr (.inr (.inr (.inl ⟨hs, h⟩))))
  next hs => exact .inr (.inr (.inr (.inr (.inr (.inl ⟨hs, (Except.ok.inj h).symm⟩)))))
  next hs => exact .inr (.inr (.inr (.inr (.inr (.inr ⟨.inl hs, (Except.ok.inj h).symm⟩)))))
  next hs => exact .inr (.inr (.inr (.inr (.inr (.inr ⟨.inr hs, (Except.ok.inj h).symm⟩)))))

/-- Steps 1 and 2, by length (R90, R91). -/
theorem checkLength_cases (d : UnitD) :
    (d.regs.ilen.toNat = 0 ∧ checkLength d = { d with regs := { d.regs with res := .ok }, stg := .done }) ∨
    (d.regs.ilen.toNat % 4 ≠ 0 ∧ checkLength d = raiseFail .length d) ∨
    (0 < d.regs.ilen.toNat ∧ d.regs.ilen.toNat % 4 = 0 ∧ checkLength d = { d with stg := .lengthChecked }) := by
  unfold checkLength
  by_cases h0 : d.regs.ilen.toNat = 0
  · simp [h0]
  · by_cases h4 : d.regs.ilen.toNat % 4 = 0
    · right; right; exact ⟨by omega, h4, by simp [h0, h4]⟩
    · right; left; exact ⟨h4, by simp [h0, h4]⟩

/-- One transition never writes the input, its length or the overflow flag (R43). -/
theorem stageD_keeps (h : stageD p d = .ok d') :
    d'.regs.ibuf = d.regs.ibuf ∧ d'.regs.ilen = d.regs.ilen ∧ d'.regs.ovf = d.regs.ovf ∧ d'.free = d.free := by
  rcases stageD_ok h with ⟨_, rfl⟩ | ⟨_, h⟩ | ⟨_, rfl⟩ | ⟨_, h⟩ | ⟨_, h⟩ | ⟨_, rfl⟩ | ⟨_, rfl⟩
  · rcases checkLength_cases d with ⟨_, h⟩ | ⟨_, h⟩ | ⟨_, _, h⟩ <;> rw [h] <;> simp [raiseFail]
  · obtain ⟨c1, _, h⟩ := discoverPadding_ok h
    rcases h with ⟨_, rfl⟩ | ⟨_, _, _, ⟨_, rfl⟩ | ⟨_, _, _, ⟨_, rfl⟩ | ⟨_, rfl⟩⟩⟩ <;> simp [raiseFail]
  · simp
  · rcases scanChar_ok h with ⟨_, _, _, ⟨_, rfl⟩ | ⟨_, rfl⟩⟩ | ⟨_, h⟩
    · simp [raiseFail]
    · simp
    · rcases checkPadBits_ok h with rfl | rfl <;> simp [raiseFail]
  · obtain ⟨x, hx, rfl⟩ := reassemble_ok h
    obtain ⟨hr, _, _, _, hf⟩ := reassembleLoop_keeps hx
    refine ⟨?_, ?_, ?_, hf⟩ <;> simp only <;> rw [hr]
  · simp
  · simp

/-- A property that every transition keeps holds at the end of a run, which is at `D_START`. -/
theorem runD_induct {P : UnitD → Prop} (hP : ∀ a b, stageD p a = .ok b → P a → P b) (n : Nat) (h : runD p n d = .ok d') (h0 : P d) :
    P d' ∧ d'.stg = .start := by
  induction n generalizing d with
  | zero => exact absurd h (by simp [runD])
  | succ n ih =>
    simp only [runD] at h
    split at h
    · exact absurd h (by simp)
    next x hx =>
      split at h
      next hi => obtain rfl := Except.ok.inj h; exact ⟨hP d _ hx h0, hi⟩
      next => exact ih h (hP d x hx h0)

/-- A run of unit D never writes its input (R43). -/
theorem runD_keeps {n : Nat} (h : runD p n d = .ok d') :
    d'.regs.ibuf = d.regs.ibuf ∧ d'.regs.ilen = d.regs.ilen ∧ d'.regs.ovf = d.regs.ovf ∧ d'.free = d.free ∧ d'.stg = .start := by
  have := runD_induct (P := fun x => x.regs.ibuf = d.regs.ibuf ∧ x.regs.ilen = d.regs.ilen ∧ x.regs.ovf = d.regs.ovf ∧
    x.free = d.free) (fun a b hab ha => by obtain ⟨h1, h2, h3, h4⟩ := stageD_keeps hab; simp_all) n h (by simp)
  simp_all

end unitD

section commands

/-- What `ENC` does when it answers: the refusal, or a run of the stages (R76). -/
theorem execEnc_next {s t : State} (h : execEnc s = .next t) :
    (s.e.regs.ovf = true ∧ t = raiseFault .e (beginRun .e s)) ∨
    (s.e.regs.ovf = false ∧
      ∃ e, runE s.cfg (turnsE s.e.regs.ilen.toNat) (startE (beginRun .e s).e) = .ok e ∧
        t = respondStatus .e false 0#8 { beginRun .e s with e := e.forget }) := by
  simp only [execEnc, beginRun_cfg, beginRun_e] at h
  split at h
  next ho => exact .inl ⟨ho, by simpa using h.symm⟩
  next ho =>
    split at h
    · exact absurd h (by simp)
    next e he => exact .inr ⟨by simpa using ho, e, he, by simpa using h.symm⟩

/-- What `DEC` does when it answers: the refusal, or a run of the stages (R89). -/
theorem execDec_next {s t : State} (h : execDec s = .next t) :
    (s.d.regs.ovf = true ∧ t = raiseFault .d (beginRun .d s)) ∨
    (s.d.regs.ovf = false ∧
      ∃ d, runD s.cfg (turnsD s.d.regs.ilen.toNat) { (beginRun .d s).d with stg := .start } = .ok d ∧
        t = respondStatus .d false 0#8 { beginRun .d s with d := d.forget }) := by
  simp only [execDec, beginRun_cfg, beginRun_d] at h
  split at h
  next ho => exact .inl ⟨ho, by simpa using h.symm⟩
  next ho =>
    split at h
    · exact absurd h (by simp)
    next d hd => exact .inr ⟨by simpa using ho, d, hd, by simpa using h.symm⟩

end commands

end Sys2Proof.Machine
end

