-- ==== Sys2Proof/Tests/Slice0.lean ====
section
/-! SUPPORT. The model's own tests: the static checks, decoding by words written out from 30_encoding.md R44 and R49, one step of each
command (expected values from 95_test_vectors.md and the examples of the rules), and for each statement with hypotheses a witness that
meets them. -/

namespace Sys2Proof.Tests

open Sys2Proof Sys2Proof.Machine

/-! ## Helpers -/

/-- What `f` reads of the next state, if there is one. -/
def after {α : Type} (o : Host.Outcome State Fault Refusal) (f : State → α) : Option α :=
  match o with
  | .next t => some (f t)
  | .fault _ => none
  | .refused _ => none

/-- A buffer that holds `bs` from index 0. -/
def buf (bs : List Byte) : Memory := bs.zipIdx.map fun x => (x.2, x.1)

/-- The registers of a unit with an input, a result and a read pointer. -/
def regs (input result : List Byte) (rptr : Word) (res : Res) (ovf : Bool) : UnitRegs :=
  { ibuf := buf input, ilen := BitVec.ofNat 16 input.length, obuf := buf result, olen := BitVec.ofNat 16 result.length, rptr := rptr,
    res := res, ovf := ovf }

/-- A unit with an input and no result. -/
def loaded (input : List Byte) : UnitRegs := regs input [] 0#16 .none false

/-- A machine with `ECAP` = 3 and `DCAP` = 8, so `EOCAP` = 4 and `DOCAP` = 6. -/
def small (e d : UnitRegs) (k : EKind) : State :=
  { State.reset with
    cfg := { ecap := 3, dcap := 8 }, e := { State.reset.e with regs := e }, d := { State.reset.d with regs := d, ekind := k } }

/-- `"Man"`. -/
def man : List Byte := [0x4D#8, 0x61#8, 0x6E#8]

/-- `"TWFu"`, the text of `"Man"`. -/
def twfu : List Byte := [0x54#8, 0x57#8, 0x46#8, 0x75#8]

/-- `"SGVsbC=="`, the source's example of nonzero padding bits. -/
def sgvsbc : List Byte := [0x53#8, 0x47#8, 0x56#8, 0x73#8, 0x62#8, 0x43#8, 0x3D#8, 0x3D#8]

/-- `"SGVsbG8="`, the text of `"Hello"`. -/
def sgvsbg8 : List Byte := [0x53#8, 0x47#8, 0x56#8, 0x73#8, 0x62#8, 0x47#8, 0x38#8, 0x3D#8]

/-- `"Hello"`. -/
def hello : List Byte := [0x48#8, 0x65#8, 0x6C#8, 0x6C#8, 0x6F#8]

/-- Both units loaded: `"Man"` fills `IBUF.E`, `"SGVsbG8="` fills `IBUF.D`. -/
def full : State := small (loaded man) (loaded sgvsbg8) .none

/-- Both units with a result, unit E's at its last character, unit D's all read. -/
def finished : State := small (regs man twfu 3#16 .ok false) (regs sgvsbg8 hello 5#16 .ok false) .none

/-- Both units overflowed, unit E not yet run, unit D run and refused. -/
def overflowed : State := small (regs man [] 0#16 .none true) (regs sgvsbg8 [] 0#16 .fault true) .none

/-- Unit D with a rejected text. -/
def rejected : State := small (loaded []) (regs sgvsbc [] 0#16 .malformed false) (.fail .padBits)

/-! ## WellFormed: one ill-formed term for each check -/

theorem test_wf_command : CFormat.wf { op := 2#3, u := 1#1, z := 0#4, data := 0xFF#8 } = true := by decide
theorem test_wf_refuses_op_zero : CFormat.wf { op := 0#3, u := 0#1, z := 0#4, data := 0#8 } = false := by decide
theorem test_wf_refuses_reserved_bits : CFormat.wf { op := 2#3, u := 0#1, z := 1#4, data := 0#8 } = false := by decide
theorem test_wf_refuses_data : CFormat.wf { op := 3#3, u := 0#1, z := 0#4, data := 1#8 } = false := by decide
theorem test_wf_params : Params.wf { ecap := 49149, dcap := 65535 } = true ∧ Params.wf { ecap := 1, dcap := 1 } = true := by decide
theorem test_wf_refuses_ecap_zero : Params.wf { ecap := 0, dcap := 256 } = false := by decide
theorem test_wf_refuses_ecap_large : Params.wf { ecap := 49150, dcap := 256 } = false := by decide
theorem test_wf_refuses_dcap_zero : Params.wf { ecap := 192, dcap := 0 } = false := by decide
theorem test_wf_refuses_dcap_large : Params.wf { ecap := 192, dcap := 65536 } = false := by decide

/-! ## Decode: words written bit by bit from R44 (`OP`, `U`, `Z`, `DATA`) and R49 -/

theorem test_decode_eclr : decode 0b001_0_0000_00000000#16 = .ok .eclr := by decide
theorem test_decode_dclr : decode 0b001_1_0000_00000000#16 = .ok .dclr := by decide
theorem test_decode_epush : decode 0b010_0_0000_01001101#16 = .ok (.epush 0x4D#8) := by decide
theorem test_decode_dpush : decode 0b010_1_0000_00111101#16 = .ok (.dpush 0x3D#8) := by decide
theorem test_decode_enc : decode 0b011_0_0000_00000000#16 = .ok .enc := by decide
theorem test_decode_dec : decode 0b011_1_0000_00000000#16 = .ok .dec := by decide
theorem test_decode_epop : decode 0b100_0_0000_00000000#16 = .ok .epop := by decide
theorem test_decode_dpop : decode 0b100_1_0000_00000000#16 = .ok .dpop := by decide
theorem test_decode_estat : decode 0b101_0_0000_00000000#16 = .ok .estat := by decide
theorem test_decode_dstat : decode 0b101_1_0000_00000000#16 = .ok .dstat := by decide
theorem test_decode_eolen : decode 0b110_0_0000_00000000#16 = .ok .eolen := by decide
theorem test_decode_dolen : decode 0b110_1_0000_00000000#16 = .ok .dolen := by decide
theorem test_decode_eilen : decode 0b111_0_0000_00000000#16 = .ok .eilen := by decide
theorem test_decode_dilen : decode 0b111_1_0000_00000000#16 = .ok .dilen := by decide
theorem test_decode_all_zero : decode 0x0000#16 = .error .opZero := by decide
theorem test_decode_epush_with_z : decode 0x4100#16 = .error .reservedNotZero := by decide
theorem test_decode_enc_with_data : decode 0x6001#16 = .error .dataNotZero := by decide
theorem test_encode_push : encode (.epush 0x4D#8) = 0x404D#16 ∧ encode (.dpush 0x3D#8) = 0x503D#16 := by decide
theorem test_table_word : decodeTableWord 16 0x4041 = some (.epush 0x41#8) := by decide

/-! ## One step of each command -/

/-- R62: after an overflow, `ECLR` answers 0x0000 and `EILEN` is 0. -/
theorem test_eclr : after (exec .eclr overflowed) (fun t => (t.resps, t.e.regs.ilen, t.e.regs.ovf)) =
    some ([0x0000#16], 0#16, false) := by decide

/-- R63: `DCLR` after a failed `DEC` answers 0x0000 and clears the kind. -/
theorem test_dclr : after (exec .dclr rejected) (fun t => (t.resps, t.d.regs.res, t.d.ekind)) =
    some ([0x0000#16], .none, .none) := by decide

/-- R64: `EPUSH 0x4D` on an empty unit. -/
theorem test_epush : after (exec (.epush 0x4D#8) (small (loaded []) (loaded []) .none)) (fun t => (t.resps, t.e.regs.ibuf, t.e.regs.ilen)) =
    some ([0x0000#16], [(0, 0x4D#8)], 1#16) := by decide

/-- R64: the push after the one that made `ILEN.E = ECAP` is dropped and answers 0x2000. -/
theorem test_epush_overflow : after (exec (.epush 0x21#8) full) (fun t => (t.resps, t.e.regs.ibuf, t.e.regs.ilen)) =
    some ([0x2000#16], buf man, 3#16) := by decide

/-- R65: `DPUSH 'T'` on an empty unit. -/
theorem test_dpush : after (exec (.dpush 0x54#8) (small (loaded []) (loaded []) .none)) (fun t => (t.resps, t.d.regs.ibuf, t.d.regs.ilen)) =
    some ([0x0000#16], [(0, 0x54#8)], 1#16) := by decide

/-- R65: a push after an overflow leaves `ILEN.D` and answers 0x2000. -/
theorem test_dpush_overflow : after (exec (.dpush 0x54#8) overflowed) (fun t => (t.resps, t.d.regs.ilen, t.d.regs.res)) =
    some ([0x2000#16], 8#16, .none) := by decide

/-- R76: `"Man"` is `"TWFu"`. -/
theorem test_enc : after (exec .enc full) (fun t => (t.resps, outMessage .e t, t.e.regs.olen)) =
    some ([0x0800#16], some twfu, 4#16) := by decide

/-- R81: `"M"` is `"TQ=="`. -/
theorem test_enc_one_byte : after (exec .enc (small (loaded [0x4D#8]) (loaded []) .none)) (fun t => (t.resps, outMessage .e t)) =
    some ([0x0800#16], some [0x54#8, 0x51#8, 0x3D#8, 0x3D#8]) := by decide

/-- R71: `"SGVsbG8="` is `"Hello"`, of length 5. -/
theorem test_dec : after (exec .dec full) (fun t => (t.resps, outMessage .d t, t.d.regs.olen)) =
    some ([0x0800#16], some hello, 5#16) := by decide

/-- R94: `"SGVsbC=="` is rejected with kind `PADBITS`. -/
theorem test_dec_padbits : after (exec .dec (small (loaded []) (loaded sgvsbc) .none)) (fun t => (t.resps, t.d.regs.olen)) =
    some ([0x1400#16], 0#16) := by decide

/-- R66: the fourth pop of `"TWFu"` answers 0x0875. -/
theorem test_epop : after (exec .epop finished) (fun t => (t.resps, t.e.regs.rptr)) = some ([0x0875#16], 4#16) := by decide

/-- R66: with no result the pop answers 0x4000. -/
theorem test_epop_empty : after (exec .epop full) (fun t => (t.resps, t.e)) = some ([0x4000#16], full.e) := by decide

/-- R67: after the last byte the pop answers 0x4800. -/
theorem test_dpop_exhausted : after (exec .dpop finished) (fun t => (t.resps, t.d)) = some ([0x4800#16], finished.d) := by decide

/-- R67: the pop of a rejected text repeats the error, 0x5400 for `PADBITS`. -/
theorem test_dpop_rejected : after (exec .dpop rejected) (fun t => (t.resps, t.d)) = some ([0x5400#16], rejected.d) := by decide

/-- R68: 0x2000 is `NONE`, overflowed. -/
theorem test_estat : after (exec .estat overflowed) (fun t => t.resps) = some [0x2000#16] := by decide

/-- R69: `DSTAT` after `"SGVsbC=="` answers 0x1400, and 0x3800 after a refused run. -/
theorem test_dstat : after (exec .dstat rejected) (fun t => t.resps) = some [0x1400#16] ∧
    after (exec .dstat overflowed) (fun t => t.resps) = some [0x3800#16] := by decide

/-- R70: `EOLEN` does not change with popping. -/
theorem test_eolen : after (exec .eolen finished) (fun t => t.resps) = some [0x0004#16] := by decide

/-- R71: `DOLEN` after `"SGVsbG8="`. -/
theorem test_dolen : after (exec .dolen finished) (fun t => t.resps) = some [0x0005#16] := by decide

/-- R72: `EILEN` after `ELOAD "Man"`. -/
theorem test_eilen : after (exec .eilen full) (fun t => t.resps) = some [0x0003#16] := by decide

/-- R73: `DILEN` after eight pushes. -/
theorem test_dilen : after (exec .dilen full) (fun t => t.resps) = some [0x0008#16] := by decide

/-- R74: 0x6001 answers 0x8000 and does not run the encoder. -/
theorem test_illegal_word : after (step { full with port := [.command 0x6001#16] }) (fun t => (t.resps, t.e, t.d)) =
    some ([0x8000#16], full.e, full.d) := by decide

/-- The word placed for the host is the one the next step runs, from reset. -/
theorem test_with_fetch_word : after (step (State.reset.withFetchWord 16 0x4041)) (fun t => (t.resps, t.e.regs.ibuf)) =
    some ([0x0000#16], [(0, 0x41#8)]) := by decide

/-! ## Witnesses: for each statement with hypotheses, states and operands that meet them -/

/-- The exec of `i` at `s` answers a next state. -/
abbrev runs (i : Instr) (s : State) : Prop := (after (exec i s) fun _ => true) = some true

theorem runs_next {i : Instr} {s : State} (h : runs i s) : ∃ t, exec i s = .next t := by
  unfold runs at h
  cases hx : exec i s <;> simp_all [after]

theorem witness_DecodeEncodeAgree : (Instr.epush 0xFF#8).wf = true ∧ decode 0x40FF#16 = .ok (.epush 0xFF#8) := by decide

theorem witness_DecodeFollowsOpcodeMap :
    0x40FF#16 &&& maskOf (.epush 0x00#8) = matchOf (.epush 0x00#8) ∧ 0x40FF#16 &&& maskOf (.epush 0xFF#8) = matchOf (.epush 0xFF#8) ∧
    decode 0x40FF#16 = .ok (.epush 0xFF#8) ∧ decode 0x4000#16 = .ok (.epush 0x00#8) := by decide

theorem witness_IllegalWordsChangeNothing :
    (0x1FFF#16).extractLsb' 13 3 = 0#3 ∧ (0x4F00#16).extractLsb' 8 4 ≠ 0#4 ∧
    ((0xF0FF#16).extractLsb' 13 3 ≠ 2#3 ∧ (0xF0FF#16).extractLsb' 0 8 ≠ 0#8) := by decide

theorem witness_StepRunsDecodedCommand :
    { full with port := [.command 0x6000#16, .rst] }.port = [.command 0x6000#16, .rst] ∧ decode 0x6000#16 = .ok .enc := by decide

theorem witness_IdlePortChangesNothing : State.reset.port = [] := by decide

theorem witness_EveryCommandAnswersOnce :
    (decode 0x0000#16 = .error .opZero) ∧ full.port = [] ∧ { full with port := [.rst] }.port = [.rst] ∧
    runs .eolen finished ∧ runs .dilen finished ∧ runs .estat finished ∧
    (runs .epop finished ∧ hasUnread .e finished) ∧ (runs .dpop finished ∧ ¬hasUnread .d finished) := by decide

theorem witness_RstEvent :
    { overflowed with port := [.rst, .command 0x6000#16] }.port = [.rst, .command 0x6000#16] ∧
    ∃ a b, exec .eclr { overflowed with port := [.rst, .command 0x6000#16] } = .next a ∧ exec .dclr a = .next b :=
  ⟨rfl, _, _, rfl, rfl⟩

theorem witness_FirstAnswersAfterReset :
    (∀ u, getRegs u State.reset = UnitRegs.reset ∧ readEkind u State.reset = .none) ∧
    kindOf .enc ≠ .push ∧ kindOf .dpop ≠ .push ∧ kindOf .estat ≠ .push ∧ kindOf .dilen ≠ .push ∧ kindOf .eclr ≠ .push := by
  exact ⟨fun u => by cases u <;> decide, by decide⟩

/-- The invariant holds in states of every outcome, full and empty. -/
theorem witness_inv : full.Inv ∧ finished.Inv ∧ overflowed.Inv ∧ rejected.Inv := by
  repeat' (first | decide | apply And.intro)

theorem witness_StepKeepsInvariant :
    { full with port := [.command 0x7000#16] }.Inv ∧
    (after (step { full with port := [.command 0x7000#16] }) fun t => t.d.regs.res) = some .ok := by
  repeat' (first | decide | apply And.intro)

theorem witness_InvariantStepAlwaysAnswers : { finished with port := [.command 0x8000#16] }.Inv := by
  decide

theorem finished_matches : finished.ResultsMatchInputs :=
  ⟨fun _ => ⟨man, by decide, by decide⟩, fun _ => ⟨sgvsbg8, hello, by decide, by decide, by decide⟩, fun h => absurd h (by decide)⟩

theorem rejected_matches : rejected.ResultsMatchInputs :=
  ⟨fun h => absurd h (by decide), fun h => absurd h (by decide), fun _ => ⟨sgvsbc, .padBits, by decide, by decide, by decide⟩⟩

theorem witness_StepKeepsResultsMatchingInputs :
    rejected.Inv ∧ rejected.ResultsMatchInputs ∧ finished.Inv ∧ finished.ResultsMatchInputs ∧
    (after (step { rejected with port := [.command 0x6000#16] }) fun t => t.e.regs.res) = some .ok :=
  ⟨by decide, rejected_matches, by decide, finished_matches, by decide⟩

theorem witness_UnitsDoNotInterfere :
    unitOf .enc = .e ∧ unitOf .dec = .d ∧ unitOf .enc ≠ unitOf .dec ∧
    (∃ s1 s2, exec .enc full = .next s1 ∧ exec .dec s1 = .next s2) ∧ (∃ t, exec .enc full = .next t) ∧
    { full with d := finished.d }.cfg = full.cfg ∧ { full with d := finished.d }.e = full.e ∧ decode 0x0000#16 = .error .opZero :=
  ⟨by decide, by decide, by decide, ⟨_, _, rfl, rfl⟩, ⟨_, rfl⟩, rfl, rfl, by decide⟩

theorem witness_EclrResult : Instr.epush 0#8 ≠ .eclr ∧ runs (.epush 0#8) overflowed ∧ overflowed.e.regs.ovf = true := by decide

theorem witness_DclrResult : Instr.dec ≠ .dclr ∧ runs .dec overflowed ∧ overflowed.d.regs.ovf = true := by decide

theorem witness_EpushResult :
    (small (loaded [0x4D#8, 0x61#8]) (loaded []) .none).e.regs.ilen.toNat + 1 = 3 ∧
    (small (loaded [0x4D#8, 0x61#8]) (loaded []) .none).e.regs.ilen.toNat < 3 ∧
    full.cfg.ecap ≤ full.e.regs.ilen.toNat ∧ runs (.epush 0#8) full := by decide

theorem witness_DpushResult :
    (small (loaded []) (loaded (sgvsbg8.take 7)) .none).d.regs.ilen.toNat + 1 = 8 ∧
    (small (loaded []) (loaded (sgvsbg8.take 7)) .none).d.regs.ilen.toNat < 8 ∧
    full.cfg.dcap ≤ full.d.regs.ilen.toNat ∧ runs (.dpush 0#8) full := by decide

theorem witness_EpopResult :
    finished.Inv ∧ (finished.e.regs.res = .ok ∧ finished.e.regs.rptr < finished.e.regs.olen) ∧ finished.ResultsMatchInputs ∧
    (small (regs man twfu 4#16 .ok false) (loaded []) .none).Inv ∧
    ¬((small (regs man twfu 4#16 .ok false) (loaded []) .none).e.regs.rptr <
      (small (regs man twfu 4#16 .ok false) (loaded []) .none).e.regs.olen) ∧
    (full.Inv ∧ full.e.regs.res = .none ∧ full.e.regs.ovf = false) ∧
    (overflowed.Inv ∧ overflowed.e.regs.res = .none ∧ overflowed.e.regs.ovf = true) :=
  ⟨by decide, by decide, finished_matches, by decide, by decide, ⟨by decide, by decide⟩, ⟨by decide, by decide⟩⟩

theorem witness_DpopResult :
    ((small (loaded []) (regs sgvsbg8 hello 4#16 .ok false) .none).Inv ∧ 4#16 < 5#16) ∧
    (finished.Inv ∧ finished.d.regs.rptr = finished.d.regs.olen) ∧ (rejected.Inv ∧ rejected.d.regs.res = .malformed) ∧
    (overflowed.Inv ∧ overflowed.d.regs.res = .fault) ∧ (full.Inv ∧ full.d.regs.res = .none) := by
  repeat' (first | decide | apply And.intro)

theorem witness_StatusResult : finished.Inv ∧ (rejected.Inv ∧ rejected.d.regs.res = .malformed) ∧ overflowed.Inv := by
  repeat' (first | decide | apply And.intro)

theorem witness_OverflowFlag :
    (full.Inv ∧ full.e.regs.ovf = false ∧ runs (.epush 0#8) full ∧ full.e.regs.ilen.toNat = icap full.cfg .e) ∧
    (overflowed.Inv ∧ overflowed.d.regs.ovf = true ∧ runs .dec overflowed ∧ runs .dclr overflowed) ∧
    { overflowed with port := [.rst] }.port = [.rst] ∧
    (after (step { overflowed with port := [.rst] }) fun t => t.e.regs.ilen) = some 0#16 := by
  repeat' (first | decide | apply And.intro)

theorem witness_OutcomeStaysUntilReplaced :
    runs .dec rejected ∧ (runs .enc overflowed ∧ overflowed.e.regs.ovf = true) ∧ (runs .dec finished ∧ finished.d.regs.ovf = false) ∧
    runs (.dpush 0#8) finished ∧ runs .eclr rejected ∧ unitOf .eclr ≠ .d ∧ runs .dpop rejected ∧
    (after (step { rejected with port := [.rst] }) fun t => t.d.ekind) = some .none := by decide

theorem witness_InputWrittenOnlyByPush : runs .enc full ∧ runs .dclr full ∧ runs (.dpush 0#8) finished := by decide

theorem witness_OutputRegistersRule :
    (runs .epop finished ∧ hasUnread .e finished) ∧ (runs .dpop finished ∧ ¬hasUnread .d finished) ∧ runs .dclr finished ∧
    (runs .dec rejected ∧ (after (exec .dec rejected) fun t => t.d.regs.res) = some .malformed) := by decide

theorem witness_LoadedBytesStandInOrder : full.Inv ∧ (hello.length = 5 ∧ icap full.cfg .e = 3) ∧ overflowed.Inv := by
  repeat' (first | decide | apply And.intro)

theorem witness_EncodeSession : finished.Inv ∧ man.length ≤ finished.cfg.ecap ∧ man.length = 3 ∧ ([] : List Byte).length ≤ 3 := by
  repeat' (first | decide | apply And.intro)

theorem witness_DecodeSession :
    overflowed.Inv ∧ sgvsbg8.length ≤ overflowed.cfg.dcap ∧ base64Decode sgvsbg8 = .ok hello ∧
    sgvsbc.length ≤ overflowed.cfg.dcap ∧ base64Decode sgvsbc = .error .padBits := by
  repeat' (first | decide | apply And.intro)

theorem witness_EncoderNeverMalformed : full.Inv ∧ unitOf .enc = .e ∧ runs .enc full ∧ runs .epop finished := by
  repeat' (first | decide | apply And.intro)

theorem witness_AlphabetRom : alpha 63#6 = alpha 63#6 ∧ (25#6).toNat ≤ 25 ∧ alpha 25#6 = 0x5A#8 ∧ alpha 26#6 = 0x61#8 := by decide

theorem witness_DecodingTableInvertsAlphabet :
    (∀ v : Sextet, alpha v ≠ padch) ∧ 0x80#8 ≤ 0x80#8 ∧ 0x80#8 ≤ 0xFF#8 := by
  decide

theorem witness_DerivedCapacities : { ecap := 49149, dcap := 65535 : Params }.wf = true := by decide

theorem witness_EncComputesEncode :
    full.cfg.wf = true ∧ full.e.regs.ilen.toNat ≤ full.cfg.ecap ∧ full.e.regs.ovf = false ∧ inMessage .e full = some man ∧
    inMessage .e rejected = some [] := by decide

theorem witness_FaultEffect :
    overflowed.e.regs.ovf = true ∧ overflowed.d.regs.ovf = true := by decide

theorem witness_EncodeLength : man.length ≤ { ecap := 3, dcap := 8 : Params }.ecap := by decide

theorem witness_EncodeShape :
    0x54#8 ∈ base64Encode man ∧ (base64Encode [0x4D#8])[2]? = some padch ∧ (base64Encode [0x4D#8])[3]? = some padch := by decide

/-- Unit E in a run over `input`, at a stage, with its index registers. -/
def atE (input : List Byte) (stg : StageE) (ei eo : Word) : UnitE :=
  { regs := loaded input, stg := stg, pack := 0#24, ei := ei, eo := eo, free := 0 }

theorem witness_EncoderStageTable :
    ((atE man .chunk 0#16 0#16).stg = .chunk ∧ 3 ≤ (atE man .chunk 0#16 0#16).regs.ilen.toNat - (0#16).toNat ∧
      (0#16).toNat + 2 < 3 ∧ (0#16).toNat + 3 < eocap { ecap := 3, dcap := 8 } ∧ Memory.find (buf man) 0 = some 0x4D#8 ∧
      Memory.find (buf man) 1 = some 0x61#8 ∧ Memory.find (buf man) 2 = some 0x6E#8) ∧
    ((atE man .chunk 3#16 4#16).regs.ilen.toNat - (3#16).toNat < 3) ∧
    ((atE man .tail 3#16 4#16).stg = .tail ∧ (atE man .tail 3#16 4#16).regs.ilen.toNat - (3#16).toNat = 0) ∧
    ((atE (man.take 1) .tail 0#16 0#16).regs.ilen.toNat - (0#16).toNat = 1) ∧
    ((atE (man.take 2) .tail 0#16 0#16).regs.ilen.toNat - (0#16).toNat = 2) ∧
    (atE man .done 3#16 4#16).stg = .done := by decide

theorem witness_EncoderRunInvariant :
    { ecap := 3, dcap := 8 : Params }.wf = true ∧ (atE man .chunk 0#16 0#16).regs.ilen.toNat ≤ 3 ∧
    (0#16).toNat = 4 * ((0#16).toNat / 3) ∧ (stageE { ecap := 3, dcap := 8 } (atE man .chunk 0#16 0#16)).toOption.isSome = true ∧
    ((atE (man.take 2) .tail 0#16 0#16).regs.ilen.toNat - (0#16).toNat < 3) ∧
    (stageE { ecap := 3, dcap := 8 } (atE (man.take 2) .tail 0#16 0#16)).toOption.isSome = true := by
  decide

theorem witness_DecComputesDecode :
    full.cfg.wf = true ∧ full.d.regs.ilen.toNat ≤ full.cfg.dcap ∧ full.d.regs.ovf = false ∧ inMessage .d full = some sgvsbg8 ∧
    base64Decode sgvsbg8 = .ok hello ∧ rejected.d.regs.ovf = false ∧ inMessage .d rejected = some sgvsbc ∧
    base64Decode sgvsbc = .error .padBits := by decide

theorem witness_DecodeLength : base64Decode sgvsbg8 = .ok hello ∧ sgvsbg8.length ≤ 8 := by decide

theorem witness_DecodeQuantumByQuantum :
    (dtabInv 0x54#8 = false ∧ dtabInv 0x57#8 = false ∧ dtabInv 0x46#8 = false ∧ dtabInv 0x75#8 = false ∧
      base64Decode sgvsbg8 = .ok hello) ∧
    (dtabInv 0x45#8 = false ∧ (dtabVal 0x45#8).extractLsb' 0 2 = 0#2) ∧
    (dtabInv 0x51#8 = false ∧ (dtabVal 0x51#8).extractLsb' 0 4 = 0#4) := by
  decide

theorem witness_RoundTripThroughBothUnits :
    full.Inv ∧ inMessage .e full = some man ∧ full.e.regs.ovf = false ∧ (after (exec .enc full) (outMessage .e)) = some (some twfu) ∧
    (small (loaded []) (loaded twfu) .none).Inv ∧ inMessage .d (small (loaded []) (loaded twfu) .none) = some twfu := by
  repeat' (first | decide | apply And.intro)

theorem witness_NoPartialSuccess :
    ((after (exec .dec rejected) fun t => t.d.regs.res) = some .malformed) ∧
    ((after (exec .dec overflowed) fun t => t.d.regs.res) = some .fault) := by decide

theorem witness_RunTwiceGivesSameResult :
    full.Inv ∧ kindOf .enc = .run ∧ kindOf .dec = .run ∧ runs .enc full ∧ runs .dec full := by
  repeat' (first | decide | apply And.intro)

theorem witness_RunDependsOnlyOnInput :
    full.Inv ∧ finished.Inv ∧ inMessage .d full = inMessage .d finished ∧ full.d.regs.ovf = finished.d.regs.ovf ∧
    runs .dec full ∧ runs .dec finished := by
  repeat' (first | decide | apply And.intro)

/-- Unit D in a run over `input`, at a stage, with its working registers. -/
def atD (input : List Byte) (stg : StageD) (padcnt : BitVec 2) (di dOut : Word) (acc : BitVec 12) (nb : BitVec 4) : UnitD :=
  { regs := loaded input, ekind := .none, stg := stg, padcnt := padcnt, di := di, dOut := dOut, acc := acc, nb := nb, free := 0 }

theorem witness_DecoderStageTable :
    (loaded []).ilen = 0#16 ∧ (0 < (loaded twfu).ilen.toNat ∧ (loaded twfu).ilen.toNat % 4 = 0) ∧ (loaded man).ilen.toNat % 4 ≠ 0 ∧
    (4 ≤ (loaded twfu).ilen.toNat ∧ (loaded twfu).ilen.toNat ≤ 8 ∧ Memory.find (loaded twfu).ibuf 3 = some 0x75#8 ∧
      Memory.find (loaded twfu).ibuf 2 = some 0x46#8 ∧ Memory.find (loaded twfu).ibuf 1 = some 0x57#8) ∧
    (0 < (loaded twfu).ilen.toNat - (0#2).toNat ∧ Memory.find (loaded twfu).ibuf 0 = some 0x54#8) ∧
    ((8#16).toNat = (loaded sgvsbc).ilen.toNat - (0#2).toNat ∧ (6#16).toNat = (loaded sgvsbc).ilen.toNat - (2#2).toNat ∧
      (2#2).toNat ≤ 2 ∧ (2#2).toNat < (loaded sgvsbc).ilen.toNat ∧ (loaded sgvsbc).ilen.toNat ≤ 8 ∧
      Memory.find (loaded sgvsbc).ibuf ((loaded sgvsbc).ilen.toNat - (2#2).toNat - 1) = some 0x43#8) ∧
    (stageD { ecap := 3, dcap := 8 } (atD twfu .paddingBitsChecked 0#2 4#16 0#16 0#12 0#4)).toOption.isSome = true ∧
    (atD twfu .reassembled 0#2 4#16 3#16 0#12 0#4).stg = .reassembled ∧ (atD twfu .failed 0#2 4#16 3#16 0#12 0#4).stg = .failed := by
  decide

theorem witness_RaiseFailEffect : (atD twfu .start 0#2 0#16 0#16 0#12 0#4).regs.ovf = false := by decide

theorem witness_DecoderLoopLosesNoBit :
    ((0#4).toNat ≤ 6 ∧ (0#4).toNat % 2 = 0 ∧ (0#12).toNat < 2 ^ (0#4).toNat ∧ (0#4).toNat + 6 < 8) ∧
    ((6#4).toNat ≤ 6 ∧ (6#4).toNat % 2 = 0 ∧ (63#12).toNat < 2 ^ (6#4).toNat ∧ 8 ≤ (6#4).toNat + 6) ∧
    ((2#4).toNat % 2 = 0 ∧ (3#12).toNat < 2 ^ (2#4).toNat ∧ 8 ≤ (2#4).toNat + 6) ∧
    (3#16).toNat < 8 ∧ (5#16).toNat < docap { ecap := 3, dcap := 8 } ∧
    Memory.find (atD twfu .paddingBitsChecked 0#2 3#16 5#16 63#12 6#4).regs.ibuf 3 = some 0x75#8 := by decide

end Sys2Proof.Tests
end

section
/-! PROOFS. The parameters and the capacities derived from them (00_scope.md R6). -/

namespace Sys2Proof

/-- The check of R6 as bounds that `omega` can use. -/
theorem Params.wf_iff {p : Params} : p.wf = true ↔ 1 ≤ p.ecap ∧ p.ecap ≤ 49149 ∧ 1 ≤ p.dcap ∧ p.dcap ≤ 65535 := by
  simp [Params.wf, and_assoc]

namespace Machine

section capacities
variable {p : Params}

@[simp] theorem icap_e : icap p .e = p.ecap := rfl
@[simp] theorem icap_d : icap p .d = p.dcap := rfl
@[simp] theorem ocap_e : ocap p .e = eocap p := rfl
@[simp] theorem ocap_d : ocap p .d = docap p := rfl

/-- 65532 = 16383 * 4 fits a 16-bit register: it is why R6 bounds `ECAP` by 49149 = 16383 * 3. -/
theorem eocap_le (h : p.wf = true) : eocap p ≤ 65532 := by
  obtain ⟨-, hecap, -, -⟩ := Params.wf_iff.mp h
  simp only [eocap]
  omega

theorem docap_le (h : p.wf = true) : docap p ≤ 49149 := by
  obtain ⟨-, -, -, hdcap⟩ := Params.wf_iff.mp h
  simp only [docap]
  omega

end capacities

/-- Settles O38: the range check reads as its bounds, and each derived capacity is its formula, bounded by its value at the upper end. -/
theorem derivedCapacities : Obligations.DerivedCapacities := by
  unfold Obligations.DerivedCapacities
  refine ⟨fun _ => Params.wf_iff, fun p hp => ?_, rfl, rfl, rfl, rfl⟩
  exact ⟨rfl, rfl, icap_e, icap_d, eocap_le hp, docap_le hp⟩

end Machine
end Sys2Proof
end

section
/-! PROOFS. What a command does to the registers of its own unit, and that it leaves the other unit's alone (R40); the overflow flag
(10_state.md R20). -/

namespace Sys2Proof.Machine

section otherUnit

variable {u v : UnitId} (s : State)

/-- A write of one unit's registers is not seen through the other's (R40). -/
theorem getRegs_setRegs_other (r : UnitRegs) (h : v ≠ u) : getRegs v (setRegs u r s) = getRegs v s := 
  match u, v, h with
  | .e, .d, _ | .d, .e, _ => rfl
  | .e, .e, h | .d, .d, h => absurd rfl h

@[simp] theorem getRegs_respondStatus (empty : Bool) (data : Byte) : getRegs v (respondStatus u empty data s) = getRegs v s := by
  simp [respondStatus]

theorem getRegs_beginRun_other (h : v ≠ u) : getRegs v (beginRun u s) = getRegs v s := by
  simp [beginRun, getRegs_setRegs_other s _ h]

theorem getRegs_raiseFault_other (h : v ≠ u) : getRegs v (raiseFault u s) = getRegs v s := by
  simp [raiseFault, getRegs_setRegs_other s _ h]

@[simp] theorem getRegs_resetUnits : getRegs v (resetUnits s) = UnitRegs.reset := by cases v <;> rfl

end otherUnit

/-- What a command of each kind may make of its unit's registers `r`, when the unit's input capacity is `cap`. A run that starts is
described only by what it leaves alone (R43). -/
inductive RegsStep (cap : Nat) (r : UnitRegs) : CommandKind → UnitRegs → Prop where
  /-- R62, R63. -/
  | cleared : RegsStep cap r .clear r.cleared
  /-- R64, R65, below the capacity. -/
  | appended (b : Byte) (room : r.ilen.toNat < cap) :
      RegsStep cap r .push { r.discardResult with ibuf := Memory.insert r.ibuf r.ilen.toNat b, ilen := r.ilen + 1#16 }
  /-- R64, R65, at the capacity. -/
  | dropped (noRoom : cap ≤ r.ilen.toNat) : RegsStep cap r .push { r.discardResult with ovf := true }
  /-- R105. -/
  | refused (overflow : r.ovf = true) : RegsStep cap r .run { r with olen := 0#16, rptr := 0#16, res := .fault }
  /-- R76, R89. -/
  | ran (r' : UnitRegs) (noOverflow : r.ovf = false) (ibuf : r'.ibuf = r.ibuf) (ilen : r'.ilen = r.ilen) (ovf : r'.ovf = r.ovf) :
      RegsStep cap r .run r'
  /-- R66, R67, with an unread byte. -/
  | popped (unread : r.res = .ok ∧ r.rptr < r.olen) : RegsStep cap r .pop { r with rptr := r.rptr + 1#16 }
  /-- R116. -/
  | emptyPop (noUnread : ¬(r.res = .ok ∧ r.rptr < r.olen)) : RegsStep cap r .pop r
  /-- R68, R69. -/
  | status : RegsStep cap r .status r
  /-- R70, R71. -/
  | outLength : RegsStep cap r .outLength r
  /-- R72, R73. -/
  | inLength : RegsStep cap r .inLength r

/-- From `s` to `t` unit `u`'s registers take a step of kind `k`, and the other unit's stay (R40). -/
structure RegsActOn (u : UnitId) (k : CommandKind) (s t : State) : Prop where
  own : RegsStep (icap s.cfg u) (getRegs u s) k (getRegs u t)
  other : ∀ v, v ≠ u → getRegs v t = getRegs v s

section operations

variable {u : UnitId} {s t : State}

theorem clearUnit_regsActOn : RegsActOn u .clear s (clearUnit u s) where
  own := by simpa [clearUnit] using RegsStep.cleared
  other v hv := by simp [clearUnit, getRegs_setRegs_other s _ hv]

theorem pushUnit_regsActOn {b : Byte} (h : pushUnit u b s = .next t) : RegsActOn u .push s t := by
  obtain ⟨r, hr, hnext⟩ := pushUnit_next (u := u) (b := b) (s := s)
  obtain rfl := Host.Outcome.next.inj (hnext.symm.trans h)
  refine ⟨?_, fun v hv => by simp [getRegs_setRegs_other s _ hv]⟩
  simp only [getRegs_respondStatus, getRegs_writeEkind, getRegs_setRegs]
  rcases pushRegs_cases (icap s.cfg u) b (getRegs u s) with ⟨room, hpush⟩ | ⟨noRoom, hpush⟩
  · obtain rfl := Except.ok.inj (hpush.symm.trans hr)
    exact .appended b room
  · obtain rfl := Except.ok.inj (hpush.symm.trans hr)
    exact .dropped noRoom

theorem popUnit_regsActOn (h : popUnit u s = .next t) : RegsActOn u .pop s t := by
  rcases popUnit_next h with ⟨v, hunread, -, rfl⟩ | ⟨hempty, rfl⟩
  · exact ⟨by simpa using .popped hunread, fun v hv => by simp [getRegs_setRegs_other s _ hv]⟩
  · exact ⟨by simpa using .emptyPop hempty, fun v _ => by simp⟩

theorem raiseFault_regsActOn (h : (getRegs u s).ovf = true) : RegsActOn u .run s (raiseFault u (beginRun u s)) where
  own := by simpa using RegsStep.refused h
  other v hv := by rw [getRegs_raiseFault_other _ hv, getRegs_beginRun_other _ hv]

theorem execEnc_regsActOn (h : execEnc s = .next t) : RegsActOn .e .run s t := by
  rcases execEnc_next h with ⟨hovf, rfl⟩ | ⟨hovf, e, he, rfl⟩
  · exact raiseFault_regsActOn hovf
  · obtain ⟨hibuf, hilen, -, hkeep, -, -⟩ := runE_keeps he
    refine ⟨.ran _ hovf hibuf hilen hkeep, fun v hv => ?_⟩
    cases v with
    | e => exact absurd rfl hv
    | d => rfl

theorem execDec_regsActOn (h : execDec s = .next t) : RegsActOn .d .run s t := by
  rcases execDec_next h with ⟨hovf, rfl⟩ | ⟨hovf, d, hd, rfl⟩
  · exact raiseFault_regsActOn hovf
  · obtain ⟨hibuf, hilen, hkeep, -, -⟩ := runD_keeps hd
    refine ⟨.ran _ hovf hibuf hilen hkeep, fun v hv => ?_⟩
    cases v with
    | e => rfl
    | d => exact absurd rfl hv

end operations

/-- Every command acts on the registers of the unit it is addressed to, as its kind says. -/
theorem exec_regsActOn {i : Instr} {s t : State} (h : exec i s = .next t) : RegsActOn (unitOf i) (kindOf i) s t := by
  cases i with
  | eclr => obtain rfl := Host.Outcome.next.inj h; exact clearUnit_regsActOn
  | dclr => obtain rfl := Host.Outcome.next.inj h; exact clearUnit_regsActOn
  | epush b => exact pushUnit_regsActOn h
  | dpush c => exact pushUnit_regsActOn h
  | enc => exact execEnc_regsActOn h
  | dec => exact execDec_regsActOn h
  | epop => exact popUnit_regsActOn h
  | dpop => exact popUnit_regsActOn h
  | estat => obtain rfl := Host.Outcome.next.inj h; exact ⟨.status, fun _ _ => by simp [statusUnit]⟩
  | dstat => obtain rfl := Host.Outcome.next.inj h; exact ⟨.status, fun _ _ => by simp [statusUnit]⟩
  | eolen => obtain rfl := Host.Outcome.next.inj h; exact ⟨.outLength, fun _ _ => by simp [outLenUnit]⟩
  | dolen => obtain rfl := Host.Outcome.next.inj h; exact ⟨.outLength, fun _ _ => by simp [outLenUnit]⟩
  | eilen => obtain rfl := Host.Outcome.next.inj h; exact ⟨.inLength, fun _ _ => by simp [inLenUnit]⟩
  | dilen => obtain rfl := Host.Outcome.next.inj h; exact ⟨.inLength, fun _ _ => by simp [inLenUnit]⟩

section overflow

variable {cap : Nat} {k : CommandKind} {r r' : UnitRegs}

theorem RegsStep.ovf_set_iff (h : RegsStep cap r k r') (hcap : r.ilen.toNat ≤ cap) (hovf : r.ovf = false) :
    r'.ovf = true ↔ k = .push ∧ r.ilen.toNat = cap := by
  cases h with
  | appended b room => simp [hovf, room.ne]
  | dropped noRoom => simp [hcap.antisymm noRoom]
  | refused overflow => simp [hovf] at overflow
  | ran _ noOverflow ibuf ilen ovf => simp [ovf, hovf]
  | cleared | popped | emptyPop | status | outLength | inLength => simp [hovf]

theorem RegsStep.ovf_cleared_iff (h : RegsStep cap r k r') (hovf : r.ovf = true) : r'.ovf = false ↔ k = .clear := by
  cases h with
  | ran _ noOverflow ibuf ilen ovf => simp [hovf] at noOverflow
  | cleared | appended | dropped | refused | popped | emptyPop | status | outLength | inLength => simp [hovf]

theorem RegsStep.push_full (h : RegsStep cap r .push r') (hfull : r.ilen.toNat = cap) : r'.ibuf = r.ibuf ∧ r'.ilen = r.ilen := by
  cases h with
  | appended b room => exact absurd hfull room.ne
  | dropped noRoom => exact ⟨rfl, rfl⟩

theorem RegsStep.run_overflowed (h : RegsStep cap r .run r') (hovf : r.ovf = true) : r'.res = .fault := by
  cases h with
  | refused overflow => rfl
  | ran _ noOverflow ibuf ilen ovf => simp [hovf] at noOverflow

end overflow

theorem State.Inv.ilen_le {s : State} (h : s.Inv) (u : UnitId) : (getRegs u s).ilen.toNat ≤ icap s.cfg u := by
  obtain ⟨-, ⟨⟨-, -, he, -⟩, -⟩, ⟨⟨-, -, hd, -⟩, -⟩⟩ := h
  cases u with
  | e => exact he
  | d => exact hd

/-- A step that takes `rst` resets the registers of both units (R121). -/
theorem getRegs_step_rst {s t : State} {rest : List PortInput} (hport : s.port = .rst :: rest) (h : step s = .next t) (u : UnitId) :
    getRegs u t = UnitRegs.reset := by
  simp only [step, takeInput, hport, Host.Outcome.next.injEq] at h
  simp [← h]

/-- Settles O26: a command of the other unit leaves the flag alone, and one of the unit's own acts on it as its kind says. -/
theorem overflowFlag : Obligations.OverflowFlag := by
  unfold Obligations.OverflowFlag
  refine ⟨fun i s t u hinv hexec => ?_, fun s t rest u hport hstep => by rw [getRegs_step_rst hport hstep]; rfl⟩
  obtain ⟨own, other⟩ := exec_regsActOn hexec
  by_cases hu : unitOf i = u
  · subst hu
    simp only [true_and, and_true]
    exact ⟨own.ovf_set_iff (hinv.ilen_le _), own.ovf_cleared_iff,
      fun hk _ => (hk ▸ own).push_full, fun hk _ => (hk ▸ own).run_overflowed⟩
  · rw [other u (Ne.symm hu)]
    simp +contextual [hu]

end Sys2Proof.Machine
end

section
/-! PROOFS. Each command acts on its own unit alone and reads nothing else but the capacities (20_memory.md R40). -/

namespace Sys2Proof.Machine

/-- The state `s` with unit `u` as `t` holds it. -/
def graft (u : UnitId) (t s : State) : State :=
  match u with
  | .e => { s with e := t.e }
  | .d => { s with d := t.d }

section graft

variable (u : UnitId) (t s : State)

@[simp] theorem graft_self : graft u s s = s := by cases u <;> rfl
@[simp] theorem graft_cfg : (graft u t s).cfg = s.cfg := by cases u <;> rfl
@[simp] theorem graft_port : (graft u t s).port = s.port := by cases u <;> rfl
@[simp] theorem graft_resps : (graft u t s).resps = s.resps := by cases u <;> rfl
@[simp] theorem graft_e_e : (graft .e t s).e = t.e := rfl
@[simp] theorem graft_e_d : (graft .e t s).d = s.d := rfl
@[simp] theorem graft_d_e : (graft .d t s).e = s.e := rfl
@[simp] theorem graft_d_d : (graft .d t s).d = t.d := rfl

/-- Grafting a unit that the two states share changes nothing. -/
theorem graft_eq_self_iff : graft u t s = s ↔ (u = .e → s.e = t.e) ∧ (u = .d → s.d = t.d) := by
  cases s
  cases u <;> simp [graft, eq_comm]

@[simp] theorem getRegs_graft : getRegs u (graft u t s) = getRegs u t := by cases u <;> rfl
@[simp] theorem statusWord_graft (empty : Bool) (data : Byte) : statusWord u empty data (graft u t s) = statusWord u empty data t := by
  cases u <;> rfl

@[simp] theorem setRegs_graft (r : UnitRegs) : setRegs u r (graft u t s) = graft u (setRegs u r t) s := by cases u <;> rfl
@[simp] theorem writeEkind_graft (k : EKind) : writeEkind u k (graft u t s) = graft u (writeEkind u k t) s := by cases u <;> rfl
@[simp] theorem graft_respond (r : Word) : graft u (respond r t) s = graft u t s := by cases u <;> rfl
@[simp] theorem graft_respondStatus (empty : Bool) (data : Byte) : graft u (respondStatus u empty data t) s = graft u t s :=
  graft_respond u t s _

theorem respondStatus_graft (empty : Bool) (data : Byte) :
    respondStatus u empty data (graft u t s) = respond (statusWord u empty data t) (graft u t s) := by
  simp [respondStatus]

theorem graft_respond_right (r : Word) : graft u t (respond r s) = respond r (graft u t s) := by cases u <;> rfl

section different

variable {u v : UnitId} (huv : u ≠ v) (x y s : State)
include huv

/-- Changing unit `u` leaves unit `v` as `s` holds it. -/
theorem graft_graft_other : graft v (graft u x s) s = s := by
  cases u <;> cases v <;> simp [graft] at huv ⊢

theorem graft_comm : graft u x (graft v y s) = graft v y (graft u x s) := by
  cases u <;> cases v <;> simp [graft] at huv ⊢

/-- Changing unit `v` leaves unit `u` as `s` holds it. -/
theorem graft_onto_other : graft u s (graft v y s) = graft v y s := by
  rw [graft_comm huv, graft_self]

end different

@[simp] theorem beginRun_graft : beginRun u (graft u t s) = graft u (beginRun u t) s := by simp [beginRun]

end graft

/-- `run` acts on unit `u` alone (R40): when it answers in `s`, then from every state with that unit and those capacities it answers
with the same contents of the unit (those of `x`) and the same response, and leaves the rest of that state as it is. -/
def ActsOnUnit (u : UnitId) (run : State → Host.Outcome State Fault Refusal) : Prop :=
  ∀ s t : State, run s = .next t →
    ∃ x r, ∀ s' : State, s'.cfg = s.cfg → run (graft u s s') = .next (respond r (graft u x s'))

section operations

variable {u : UnitId}

/-- A run whose response is the unit's status word acts on the unit alone when what it makes of the unit does not depend on the rest. -/
theorem ActsOnUnit.of_status {run : State → Host.Outcome State Fault Refusal}
    (hrun : ∀ s t : State, run s = .next t → ∃ x empty data, ∀ s' : State, s'.cfg = s.cfg →
      run (graft u s s') = .next (respondStatus u empty data (graft u x s'))) : ActsOnUnit u run := by
  intro s t h
  obtain ⟨x, empty, data, hresult⟩ := hrun s t h
  exact ⟨x, statusWord u empty data x, fun s' hcfg => by rw [hresult s' hcfg, respondStatus_graft]⟩

theorem clearUnit_actsOnUnit : ActsOnUnit u fun s => .next (clearUnit u s) :=
  .of_status fun s _ _ => ⟨clearUnit u s, false, 0#8, fun s' _ => by simp [clearUnit]⟩

theorem pushUnit_actsOnUnit (b : Byte) : ActsOnUnit u (pushUnit u b) :=
  .of_status fun s _ _ => by
    obtain ⟨r, hr, -⟩ := pushUnit_next (u := u) (b := b) (s := s)
    exact ⟨writeEkind u .none (setRegs u r s), false, 0#8, fun s' hcfg => by simp [pushUnit, hcfg, hr]⟩

theorem popUnit_actsOnUnit : ActsOnUnit u (popUnit u) :=
  .of_status fun s t h => by
    unfold popUnit at h
    split at h
    next hunread =>
      split at h
      next v hread =>
        exact ⟨setRegs u { getRegs u s with rptr := (getRegs u s).rptr + 1#16 } s, false, v, fun s' hcfg => by
          simp [popUnit, hunread, hcfg, hread]⟩
      next => cases h
    next hempty => exact ⟨s, true, 0#8, fun s' _ => by simp [popUnit, hempty]⟩

theorem statusUnit_actsOnUnit : ActsOnUnit u fun s => .next (statusUnit u s) :=
  .of_status fun s _ _ => ⟨s, false, 0#8, fun _ _ => rfl⟩

theorem outLenUnit_actsOnUnit : ActsOnUnit u fun s => .next (outLenUnit u s) :=
  fun s _ _ => ⟨s, lWord (getRegs u s).olen, fun s' _ => by simp [outLenUnit]⟩

theorem inLenUnit_actsOnUnit : ActsOnUnit u fun s => .next (inLenUnit u s) :=
  fun s _ _ => ⟨s, lWord (getRegs u s).ilen, fun s' _ => by simp [inLenUnit]⟩

/-- A refusal writes its own unit only, and answers with its status (R105). -/
theorem raiseFault_graft (t s : State) :
    raiseFault u (graft u t s) = respondStatus u false 0#8 (graft u (raiseFault u t) s) := by
  simp [raiseFault]

/-- `ENC` refused (R105): the converse of the first case of `execEnc_next`. -/
theorem execEnc_of_ovf {s : State} (hovf : s.e.regs.ovf = true) : execEnc s = .next (raiseFault .e (beginRun .e s)) := by
  simp [execEnc, beginRun_e, hovf]

/-- `ENC` run (R76): the converse of the second case of `execEnc_next`. -/
theorem execEnc_of_runE {s : State} {e : UnitE} (hovf : s.e.regs.ovf = false)
    (hrun : runE s.cfg (turnsE s.e.regs.ilen.toNat) (startE (beginRun .e s).e) = .ok e) :
    execEnc s = .next (respondStatus .e false 0#8 { beginRun .e s with e := e.forget }) := by
  have hbegun : (beginRun .e s).e.regs.ovf = false ∧ (beginRun .e s).e.regs.ilen = s.e.regs.ilen := ⟨hovf, rfl⟩
  simp [execEnc, hbegun, hrun]

/-- `DEC` refused (R105): the converse of the first case of `execDec_next`. -/
theorem execDec_of_ovf {s : State} (hovf : s.d.regs.ovf = true) : execDec s = .next (raiseFault .d (beginRun .d s)) := by
  simp [execDec, beginRun_d, hovf]

/-- `DEC` run (R89): the converse of the second case of `execDec_next`. -/
theorem execDec_of_runD {s : State} {d : UnitD} (hovf : s.d.regs.ovf = false)
    (hrun : runD s.cfg (turnsD s.d.regs.ilen.toNat) { (beginRun .d s).d with stg := .start } = .ok d) :
    execDec s = .next (respondStatus .d false 0#8 { beginRun .d s with d := d.forget }) := by
  have hbegun : (beginRun .d s).d.regs.ovf = false ∧ (beginRun .d s).d.regs.ilen = s.d.regs.ilen := ⟨hovf, rfl⟩
  simp [execDec, hbegun, hrun]

theorem execEnc_actsOnUnit : ActsOnUnit .e execEnc :=
  .of_status fun s t h => by
    rcases execEnc_next h with ⟨hovf, -⟩ | ⟨hovf, e, hrun, -⟩
    · refine ⟨raiseFault .e (beginRun .e s), false, 0#8, fun s' _ => ?_⟩
      rw [execEnc_of_ovf (by simpa using hovf), beginRun_graft, raiseFault_graft]
    · refine ⟨{ beginRun .e s with e := e.forget }, false, 0#8, fun s' hcfg => ?_⟩
      rw [execEnc_of_runE (e := e) (by simpa using hovf) (by simpa [hcfg] using hrun)]
      rfl

theorem execDec_actsOnUnit : ActsOnUnit .d execDec :=
  .of_status fun s t h => by
    rcases execDec_next h with ⟨hovf, -⟩ | ⟨hovf, d, hrun, -⟩
    · refine ⟨raiseFault .d (beginRun .d s), false, 0#8, fun s' _ => ?_⟩
      rw [execDec_of_ovf (by simpa using hovf), beginRun_graft, raiseFault_graft]
    · refine ⟨{ beginRun .d s with d := d.forget }, false, 0#8, fun s' hcfg => ?_⟩
      rw [execDec_of_runD (d := d) (by simpa using hovf) (by simpa [hcfg] using hrun)]
      rfl

end operations

/-- Every command acts on the unit it is addressed to, and on nothing else (R40). -/
theorem exec_actsOnUnit (i : Instr) : ActsOnUnit (unitOf i) (exec i) := by
  cases i with
  | eclr => exact clearUnit_actsOnUnit
  | dclr => exact clearUnit_actsOnUnit
  | epush b => exact pushUnit_actsOnUnit b
  | dpush c => exact pushUnit_actsOnUnit c
  | enc => exact execEnc_actsOnUnit
  | dec => exact execDec_actsOnUnit
  | epop => exact popUnit_actsOnUnit
  | dpop => exact popUnit_actsOnUnit
  | estat => exact statusUnit_actsOnUnit
  | dstat => exact statusUnit_actsOnUnit
  | eolen => exact outLenUnit_actsOnUnit
  | dolen => exact outLenUnit_actsOnUnit
  | eilen => exact inLenUnit_actsOnUnit
  | dilen => exact inLenUnit_actsOnUnit

section consequences

variable {u v : UnitId} {run run' : State → Host.Outcome State Fault Refusal} {s s1 s2 t : State}

/-- The next state is the old one with the unit's new contents and one more response, and the same holds from every other state with
the same unit and the same capacities. -/
theorem ActsOnUnit.exists_result (hrun : ActsOnUnit u run) (hs : run s = .next t) :
    ∃ x r, t = respond r (graft u x s) ∧
      ∀ s' : State, s'.cfg = s.cfg → graft u s s' = s' → run s' = .next (respond r (graft u x s')) := by
  obtain ⟨x, r, hresult⟩ := hrun s t hs
  have hsame (s' : State) (hcfg : s'.cfg = s.cfg) (hgraft : graft u s s' = s') : run s' = .next (respond r (graft u x s')) :=
    (congrArg run hgraft).symm.trans (hresult s' hcfg)
  exact ⟨x, r, Host.Outcome.next.inj (hs.symm.trans (hsame s rfl (graft_self u s))), hsame⟩

/-- Runs on different units may change places: the two orders differ in the order of the two responses only (R40). The state
`x` is the final one before the two responses. -/
theorem ActsOnUnit.commute (hrun : ActsOnUnit u run) (hrun' : ActsOnUnit v run') (huv : u ≠ v) (h1 : run s = .next s1)
    (h2 : run' s1 = .next s2) :
    ∃ x r r' t1, x.resps = s.resps ∧ s2 = respond r' (respond r x) ∧
      run' s = .next t1 ∧ run t1 = .next (respond r (respond r' x)) := by
  obtain ⟨x, r, rfl, hfrom⟩ := hrun.exists_result h1
  obtain ⟨y, r', rfl, hfrom'⟩ := hrun'.exists_result h2
  have hfirst : run' s = .next (respond r' (graft v y s)) := hfrom' s (by simp) (by simp [graft_graft_other huv])
  have hsecond : run (respond r' (graft v y s)) = .next (respond r (graft u x (respond r' (graft v y s)))) :=
    hfrom _ (by simp) (by simp [graft_respond_right, graft_onto_other huv])
  refine ⟨graft v y (graft u x s), r, r', _, by simp, ?_, hfirst, hsecond.trans ?_⟩
  · rw [graft_respond_right]
  · rw [graft_respond_right, graft_comm huv]

end consequences

/-- An illegal word is answered, and that is all (R40, R74). -/
theorem commandCycle_of_decode_error {w : Word} {e : Illegal} (h : decode w = .error e) (s : State) :
    commandCycle w s = .next (respond 0x8000#16 s) := by
  have hword : illegalWord = 0x8000#16 := by decide
  simp [commandCycle, h, illegalCommand, hword]

/-- Settles O17: every command acts on its own unit alone, so two of different units commute. -/
theorem unitsDoNotInterfere : Obligations.UnitsDoNotInterfere := by
  unfold Obligations.UnitsDoNotInterfere
  refine ⟨fun i s t hexec => ?_, fun i s s' t hcfg he hd hexec => ?_, fun i j s s1 s2 hij h1 h2 => ?_,
    fun w s ⟨e, he⟩ => commandCycle_of_decode_error he s⟩
  · obtain ⟨x, r, rfl, -⟩ := (exec_actsOnUnit i).exists_result hexec
    exact ⟨fun hu => by simp [hu], fun hu => by simp [hu], by simp, by simp⟩
  · obtain ⟨x, r, rfl, hfrom⟩ := (exec_actsOnUnit i).exists_result hexec
    exact ⟨_, r, hfrom s' hcfg ((graft_eq_self_iff _ _ _).2 ⟨he, hd⟩),
      fun hu => by simp [hu], fun hu => by simp [hu], by simp, by simp⟩
  · obtain ⟨x, ri, rj, t1, hresps, rfl, hj, hi⟩ := (exec_actsOnUnit i).commute (exec_actsOnUnit j) hij h1 h2
    exact ⟨t1, _, ri, rj, hj, hi, rfl, rfl, rfl, rfl, by simp [hresps], by simp [hresps]⟩

end Sys2Proof.Machine
end

section
/-! PROOFS. The two views of the 24 bits of a group (30_encoding.md R55). -/

namespace Sys2Proof

/-- A slice of a slice. -/
theorem extract_extract {w : Nat} (x : BitVec w) (s n t l : Nat) (h : t + l ≤ n) :
    (x.extractLsb' s n).extractLsb' t l = x.extractLsb' (s + t) l := by
  apply BitVec.eq_of_getLsbD_eq
  intro i hi
  simp [hi, show t + i < n by omega, Nat.add_assoc]

/-- A slice of `k + l` bits cut in two, the more significant `k` bits first. -/
theorem extract_cut {w : Nat} (x : BitVec w) (s k l : Nat) :
    x.extractLsb' s (k + l) = x.extractLsb' (s + l) k ++ x.extractLsb' s l :=
  (BitVec.extractLsb'_append_extractLsb'_eq_extractLsb' rfl).symm

namespace Machine

section group

variable (b0 b1 b2 : Byte) (g : Group)

@[simp] theorem extract_pack3_b0 : (pack3 b0 b1 b2).extractLsb' 16 8 = b0 := by
  simp [pack3, extract_cat_high]

@[simp] theorem extract_pack3_b1 : (pack3 b0 b1 b2).extractLsb' 8 8 = b1 := by
  simp [pack3, extract_cat_high, extract_cat_low]

@[simp] theorem extract_pack3_b2 : (pack3 b0 b1 b2).extractLsb' 0 8 = b2 := by
  simp [pack3, extract_cat_low]

theorem toNat_pack3 : (pack3 b0 b1 b2).toNat = b0.toNat * 65536 + b1.toNat * 256 + b2.toNat := by
  calc (pack3 b0 b1 b2).toNat
    _ = (cat 16 b0 b1).toNat * 2 ^ 8 + b2.toNat := toNat_cat _ b2
    _ = (b0.toNat * 2 ^ 8 + b1.toNat) * 2 ^ 8 + b2.toNat := by rw [show (cat 16 b0 b1).toNat = _ from toNat_cat b0 b1]
    _ = b0.toNat * 65536 + b1.toNat * 256 + b2.toNat := by ring

/-- Each sextet is one slice of a byte, or a slice of each of two neighbouring bytes (R55). -/
theorem sextets_of_bytes :
    sextet0 g = (g.extractLsb' 16 8).extractLsb' 2 6 ∧
    sextet1 g = (g.extractLsb' 16 8).extractLsb' 0 2 ++ (g.extractLsb' 8 8).extractLsb' 4 4 ∧
    sextet2 g = (g.extractLsb' 8 8).extractLsb' 0 4 ++ (g.extractLsb' 0 8).extractLsb' 6 2 ∧
    sextet3 g = (g.extractLsb' 0 8).extractLsb' 0 6 := by
  simp only [extract_extract, Nat.reduceAdd, Nat.reduceLeDiff]
  exact ⟨rfl, extract_cut g 12 2 4, extract_cut g 6 4 2, rfl⟩

/-- Each byte is a slice of each of two neighbouring sextets (R55). -/
theorem bytes_of_sextets :
    g.extractLsb' 16 8 = sextet0 g ++ (sextet1 g).extractLsb' 4 2 ∧
    g.extractLsb' 8 8 = (sextet1 g).extractLsb' 0 4 ++ (sextet2 g).extractLsb' 2 4 ∧
    g.extractLsb' 0 8 = (sextet2 g).extractLsb' 0 2 ++ sextet3 g := by
  simp only [sextet0, sextet1, sextet2, sextet3, extract_extract, Nat.reduceAdd, Nat.reduceLeDiff]
  exact ⟨extract_cut g 16 6 2, extract_cut g 8 4 4, extract_cut g 0 2 6⟩

end group

/-- Settles O36: the bytes are slices of the group, so both views slice the same 24 bits, and neighbouring slices join. -/
theorem groupLayout : Obligations.GroupLayout := by
  unfold Obligations.GroupLayout
  intro b0 b1 b2 g
  have hb0 : g.extractLsb' 16 8 = b0 := extract_pack3_b0 b0 b1 b2
  have hb1 : g.extractLsb' 8 8 = b1 := extract_pack3_b1 b0 b1 b2
  have hb2 : g.extractLsb' 0 8 = b2 := extract_pack3_b2 b0 b1 b2
  obtain ⟨hs0, hs1, hs2, hs3⟩ := hb0 ▸ hb1 ▸ hb2 ▸ sextets_of_bytes g
  obtain ⟨h0, h1, h2⟩ := hb0 ▸ hb1 ▸ hb2 ▸ bytes_of_sextets g
  exact ⟨hb0, hb1, hb2, toNat_pack3 b0 b1 b2, hs0, hs1, hs2, hs3, h0, h1, h2⟩

end Machine
end Sys2Proof
end

section
/-! PROOFS. The response of every command (40_host_commands.md R60), in its format (30_encoding.md R47, R48). -/

namespace Sys2Proof.Machine

section responseFields

variable (ill empty ovf : Bool) (res : Res) (ekind : EKind) (data : Byte)

@[simp] theorem sWord_ill : (sWord ill empty ovf res ekind data)[15] = ill := by
  simp [← BitVec.getLsbD_eq_getElem, sWord, getLsbD_cat]

@[simp] theorem sWord_empty : (sWord ill empty ovf res ekind data)[14] = empty := by
  simp [← BitVec.getLsbD_eq_getElem, sWord, getLsbD_cat]

@[simp] theorem sWord_ovf : (sWord ill empty ovf res ekind data)[13] = ovf := by
  simp [← BitVec.getLsbD_eq_getElem, sWord, getLsbD_cat]

@[simp] theorem sWord_res : (sWord ill empty ovf res ekind data).extractLsb' 11 2 = res.code := by
  simp [sWord, extract_cat_high, extract_cat_low]

@[simp] theorem sWord_ekind : (sWord ill empty ovf res ekind data).extractLsb' 8 3 = ekind.code := by
  simp [sWord, extract_cat_high, extract_cat_low]

@[simp] theorem sWord_data : (sWord ill empty ovf res ekind data).extractLsb' 0 8 = data := by
  simp [sWord, extract_cat_low]

end responseFields

@[simp] theorem readEkind_respondStatus (u : UnitId) (empty : Bool) (data : Byte) (s : State) :
    readEkind u (respondStatus u empty data s) = readEkind u s := readEkind_respond ..

@[simp] theorem resetUnits_resps (s : State) : (resetUnits s).resps = s.resps := rfl

/-- The next state of a command of kind `k` addressed to unit `u`, as far as its one response says: `x` is the state the response is
formed from (R47: after the command's effect). -/
inductive Answer (u : UnitId) (s : State) : CommandKind → State → Prop where
  /-- R70, R71. -/
  | outLength : Answer u s .outLength (outLenUnit u s)
  /-- R72, R73. -/
  | inLength : Answer u s .inLength (inLenUnit u s)
  /-- R66, R67, with an unread byte. -/
  | popped (v : Byte) (x : State) (unread : hasUnread u s)
      (found : Memory.find (getRegs u s).obuf (getRegs u s).rptr.toNat = some v) (resps : x.resps = s.resps) :
      Answer u s .pop (respondStatus u false v x)
  /-- R116. -/
  | emptyPop (noUnread : ¬hasUnread u s) : Answer u s .pop (respondStatus u true 0#8 s)
  /-- The clear, push, run and status commands. -/
  | status (k : CommandKind) (x : State) (noPop : k ≠ .pop) (noOutLength : k ≠ .outLength) (noInLength : k ≠ .inLength)
      (resps : x.resps = s.resps) : Answer u s k (respondStatus u false 0#8 x)

section operations

variable {u : UnitId} {s t : State}

theorem clearUnit_answer : Answer u s .clear (clearUnit u s) := .status _ _ nofun nofun nofun (by simp)

theorem pushUnit_answer {b : Byte} (h : pushUnit u b s = .next t) : Answer u s .push t := by
  obtain ⟨r, -, hnext⟩ := pushUnit_next (u := u) (b := b) (s := s)
  obtain rfl := Host.Outcome.next.inj (hnext.symm.trans h)
  exact .status _ _ nofun nofun nofun (by simp)

theorem popUnit_answer (h : popUnit u s = .next t) : Answer u s .pop t := by
  rcases popUnit_next h with ⟨v, unread, found, rfl⟩ | ⟨noUnread, rfl⟩
  · exact .popped v _ unread found (by simp)
  · exact .emptyPop noUnread

theorem raiseFault_answer : Answer u s .run (raiseFault u (beginRun u s)) := .status _ _ nofun nofun nofun (by simp)

theorem execEnc_answer (h : execEnc s = .next t) : Answer .e s .run t := by
  rcases execEnc_next h with ⟨-, rfl⟩ | ⟨-, e, -, rfl⟩
  · exact raiseFault_answer
  · exact .status _ _ nofun nofun nofun (by simp)

theorem execDec_answer (h : execDec s = .next t) : Answer .d s .run t := by
  rcases execDec_next h with ⟨-, rfl⟩ | ⟨-, d, -, rfl⟩
  · exact raiseFault_answer
  · exact .status _ _ nofun nofun nofun (by simp)

theorem statusUnit_answer : Answer u s .status (statusUnit u s) := .status _ _ nofun nofun nofun rfl

end operations

/-- Every command that completes gives the one answer of its kind (R60). -/
theorem exec_answer {i : Instr} {s t : State} (h : exec i s = .next t) : Answer (unitOf i) s (kindOf i) t := by
  cases i with
  | eclr => obtain rfl := Host.Outcome.next.inj h; exact clearUnit_answer
  | dclr => obtain rfl := Host.Outcome.next.inj h; exact clearUnit_answer
  | epush b => exact pushUnit_answer h
  | dpush c => exact pushUnit_answer h
  | enc => exact execEnc_answer h
  | dec => exact execDec_answer h
  | epop => exact popUnit_answer h
  | dpop => exact popUnit_answer h
  | estat => obtain rfl := Host.Outcome.next.inj h; exact statusUnit_answer
  | dstat => obtain rfl := Host.Outcome.next.inj h; exact statusUnit_answer
  | eolen => obtain rfl := Host.Outcome.next.inj h; exact .outLength
  | dolen => obtain rfl := Host.Outcome.next.inj h; exact .outLength
  | eilen => obtain rfl := Host.Outcome.next.inj h; exact .inLength
  | dilen => obtain rfl := Host.Outcome.next.inj h; exact .inLength

/-- The word of a status response shows the unit as the next state holds it (R47). -/
theorem respondStatus_resps (u : UnitId) (empty : Bool) (data : Byte) (x : State) :
    (respondStatus u empty data x).resps = x.resps ++ [statusWord u empty data (respondStatus u empty data x)] := by
  simp [respondStatus, statusWord]

/-- Settles O7: an illegal word is answered by 0x8000, `rst` and the idle step answer nothing, and a command gives the answer of its
kind. -/
theorem everyCommandAnswersOnce : Obligations.EveryCommandAnswersOnce := by
  unfold Obligations.EveryCommandAnswersOnce
  refine ⟨fun w s ⟨e, he⟩ => ⟨_, commandCycle_of_decode_error he s, by decide, by decide⟩, ?_, fun i s t hexec => ?_⟩
  · rintro s (hidle | ⟨rest, hrst⟩)
    · exact ⟨s, by simp [step, takeInput, hidle], rfl⟩
    · exact ⟨resetUnits { s with port := rest }, by simp [step, takeInput, hrst], resetUnits_resps _⟩
  · have hanswer := exec_answer hexec
    generalize kindOf i = k, unitOf i = u at hanswer ⊢
    cases hanswer with
    | outLength => exact ⟨_, rfl, fun _ => by simp [outLenUnit, lWord], nofun, fun h => absurd rfl h⟩
    | inLength => exact ⟨_, rfl, nofun, fun _ => by simp [inLenUnit, lWord], fun _ h => absurd rfl h⟩
    | popped v x unread found resps =>
      exact ⟨_, resps ▸ respondStatus_resps u false v x, nofun, nofun, by simp [statusWord, unread, found]⟩
    | emptyPop noUnread =>
      exact ⟨_, respondStatus_resps u true 0#8 s, nofun, nofun, by simp [statusWord, noUnread]⟩
    | status k x noPop noOutLength noInLength resps =>
      exact ⟨_, resps ▸ respondStatus_resps u false 0#8 x, fun h => absurd h noOutLength, fun h => absurd h noInLength,
        by simp [statusWord, noPop]⟩

end Sys2Proof.Machine
end

section
/-! PROOFS. The illegal command words (30_encoding.md R50, 40_host_commands.md R74). -/

namespace Sys2Proof

/-- Decoding fails exactly by one of the three clauses of R50. -/
theorem decodeFields_error_iff (f : CFormat) :
    (∃ e, decodeFields f = .error e) ↔ f.op = 0#3 ∨ f.z ≠ 0#4 ∨ (f.op ≠ 2#3 ∧ f.data ≠ 0#8) := by
  by_cases hop : f.op = 0#3
  · simp [decodeFields, hop]
  by_cases hz : f.z = 0#4
  · by_cases hpush : f.op = 2#3
    · simp [decodeFields, hz, hpush]
    by_cases hdata : f.data = 0#8
    · have hlegal : ¬∃ e, decodeFields f = .error e := by
        rintro ⟨e, he⟩
        simp only [decodeFields, hop, hz, hpush, hdata, ne_eq, not_true_eq_false, if_false] at he
        split_ifs at he
      simp [hlegal, hop, hz, hdata]
    · simp [decodeFields, hop, hz, hpush, hdata]
  · simp [decodeFields, hop, hz]

namespace Machine

/-- Settles O3: `decode` reads the fields that the clauses of R50 name, and an illegal word is answered and does nothing else. -/
theorem illegalWordsChangeNothing : Obligations.IllegalWordsChangeNothing := by
  unfold Obligations.IllegalWordsChangeNothing
  intro w
  have hclauses := decodeFields_error_iff (cFormatOf w)
  refine ⟨hclauses, fun s rest hillegal => ?_⟩
  obtain ⟨e, he⟩ := hclauses.2 hillegal
  exact commandCycle_of_decode_error he { s with port := rest }

end Machine
end Sys2Proof
end

section
/-! PROOFS. The status words that can stand in a response (30_encoding.md R47), from what R22 says of `OVF`, `RES` and `EKIND`. -/

namespace Sys2Proof.Machine

/-- The values of `OVF.u`, `RES.u` and `EKIND.u` that R22 (items 4 and 6) allows together. -/
inductive Flags : Bool → Res → EKind → Prop where
  | noResult (ovf : Bool) : Flags ovf .none .none
  | ok : Flags false .ok .none
  | malformed (k : FailKind) : Flags false .malformed (.fail k)
  | fault : Flags true .fault .none

section words

variable {ovf : Bool} {res : Res} {ekind : EKind}

/-- The status word of a command that returns no byte (R68, R69). -/
theorem Flags.sWord_status : Flags ovf res ekind →
    sWord false false ovf res ekind 0#8 =
      match res with
      | .none => if ovf then 0x2000#16 else 0x0000#16
      | .ok => 0x0800#16
      | .malformed => 0x1000#16 ||| (ekind.code.setWidth 16 <<< 8)
      | .fault => 0x3800#16 := by
  intro h
  cases h with
  | noResult ovf => cases ovf <;> rfl
  | ok => rfl
  | malformed k => cases k <;> rfl
  | fault => rfl

/-- The status word of an empty pop (R66, R67). -/
theorem Flags.sWord_emptyPop : Flags ovf res ekind →
    sWord false true ovf res ekind 0#8 =
      match res with
      | .none => if ovf then 0x6000#16 else 0x4000#16
      | .ok => 0x4800#16
      | .malformed => 0x5000#16 ||| (ekind.code.setWidth 16 <<< 8)
      | .fault => 0x7800#16 := by
  intro h
  cases h with
  | noResult ovf => cases ovf <;> rfl
  | ok => rfl
  | malformed k => cases k <;> rfl
  | fault => rfl

/-- `EKIND` 0 adds nothing to a response. -/
theorem or_code_none (w : Word) : w ||| (EKind.none.code.setWidth 16 <<< 8) = w := by simp [EKind.code]

theorem Flags.ovf_of_ok (h : Flags ovf .ok ekind) : ovf = false := by cases h; rfl
theorem Flags.ekind_of_ok (h : Flags ovf .ok ekind) : ekind = .none := by cases h; rfl

/-- The response of a pop that returns a byte (R66, R67). -/
theorem sWord_popped (v : Byte) : sWord false false false .ok .none v = 0x0800#16 ||| v.setWidth 16 := rfl

end words

/-- What R22 and R37 say of the registers of either unit. -/
theorem State.Inv.regs {s : State} (h : s.Inv) (u : UnitId) : (getRegs u s).Inv (icap s.cfg u) (ocap s.cfg u) := by
  obtain ⟨-, ⟨he, -⟩, ⟨hd, -⟩⟩ := h
  cases u with
  | e => exact he
  | d => exact hd

/-- `EKIND.u` is not 0 exactly when `RES.u` is `MALFORMED` (R22 item 4); for unit E neither happens. -/
theorem State.Inv.malformed_iff {s : State} (h : s.Inv) (u : UnitId) : (getRegs u s).res = .malformed ↔ readEkind u s ≠ .none := by
  obtain ⟨-, ⟨-, -, he, -⟩, ⟨-, -, hd, -⟩⟩ := h
  cases u with
  | e => simpa [getRegs] using he
  | d => exact hd

/-- The invariant leaves each unit only the combinations of `Flags`. -/
theorem State.Inv.flags {s : State} (h : s.Inv) (u : UnitId) : Flags (getRegs u s).ovf (getRegs u s).res (readEkind u s) := by
  obtain ⟨-, -, -, -, -, -, hovf, hfault, -⟩ := h.regs u
  have hovf (ho : (getRegs u s).ovf = true) : (getRegs u s).res = .none ∨ (getRegs u s).res = .fault := (hovf ho).2
  have hkind := h.malformed_iff u
  generalize (getRegs u s).ovf = ovf, (getRegs u s).res = res, readEkind u s = ekind at hovf hfault hkind ⊢
  cases res with
  | none =>
    obtain rfl : ekind = .none := by simpa using hkind
    exact .noResult ovf
  | ok =>
    obtain rfl : ekind = .none := by simpa using hkind
    obtain rfl : ovf = false := by simpa using hovf
    exact .ok
  | malformed =>
    obtain rfl : ovf = false := by simpa using hovf
    cases ekind with
    | none => simp at hkind
    | fail k => exact .malformed k
  | fault =>
    obtain rfl : ekind = .none := by simpa using hkind
    obtain rfl : ovf = true := hfault rfl
    exact .fault

end Sys2Proof.Machine
end

section
/-! PROOFS. The clear and push commands (40_host_commands.md R62 to R65). -/

namespace Sys2Proof.Machine

section operations

variable {u : UnitId} {s t : State}

theorem clearUnit_eq : clearUnit u s = respond 0x0000#16 (writeEkind u .none (setRegs u (getRegs u s).cleared s)) := by
  simp [clearUnit, respondStatus, statusWord, (Flags.noResult false).sWord_status]

theorem clearUnit_messages : inMessage u (clearUnit u s) = some [] ∧ outMessage u (clearUnit u s) = some [] := by
  simp [inMessage, outMessage, clearUnit, Memory.firstN]

/-- Only a clear of the unit clears its overflow flag (R20). -/
theorem ovf_of_exec {i : Instr} (hexec : exec i s = .next t) (hi : unitOf i = u → kindOf i ≠ .clear) (hovf : (getRegs u s).ovf = true) :
    (getRegs u t).ovf = true := by
  obtain ⟨own, other⟩ := exec_regsActOn hexec
  by_cases hu : unitOf i = u
  · subst hu
    simpa using mt (own.ovf_cleared_iff hovf).1 (hi rfl)
  · rw [other u (Ne.symm hu), hovf]

/-- A push below the capacity appends (R64, R65). -/
theorem pushUnit_of_room (b : Byte) (h : (getRegs u s).ilen.toNat < icap s.cfg u) :
    pushUnit u b s = .next (respond (if (getRegs u s).ovf then 0x2000#16 else 0x0000#16) (writeEkind u .none (setRegs u
      { (getRegs u s).discardResult with
        ibuf := Memory.insert (getRegs u s).ibuf (getRegs u s).ilen.toNat b, ilen := (getRegs u s).ilen + 1#16 } s))) := by
  simp [pushUnit, pushRegs, bufWrite, h, respondStatus, statusWord, (Flags.noResult _).sWord_status]

/-- A push at the capacity drops the byte and sets the overflow flag (R64, R65). -/
theorem pushUnit_of_full (b : Byte) (h : icap s.cfg u ≤ (getRegs u s).ilen.toNat) :
    pushUnit u b s =
      .next (respond 0x2000#16 (writeEkind u .none (setRegs u { (getRegs u s).discardResult with ovf := true } s))) := by
  simp [pushUnit, pushRegs, h.not_gt, respondStatus, statusWord, (Flags.noResult true).sWord_status]

/-- The answer of a refused run (R105). -/
theorem raiseFault_resps (hovf : (getRegs u s).ovf = true) : (raiseFault u s).resps = s.resps ++ [0x3800#16] := by
  simp [raiseFault, respondStatus, statusWord, hovf, Flags.fault.sWord_status]

/-- `ENC` after an overflow (R20, R105). -/
theorem exec_enc_of_ovf (hovf : s.e.regs.ovf = true) : ∃ t, exec .enc s = .next t ∧ t.resps = s.resps ++ [0x3800#16] :=
  ⟨_, execEnc_of_ovf hovf, raiseFault_resps (s := beginRun .e s) hovf⟩

/-- `DEC` after an overflow (R20, R105). -/
theorem exec_dec_of_ovf (hovf : s.d.regs.ovf = true) : ∃ t, exec .dec s = .next t ∧ t.resps = s.resps ++ [0x3800#16] :=
  ⟨_, execDec_of_ovf hovf, raiseFault_resps (s := beginRun .d s) hovf⟩

end operations

theorem eq_eclr_of_clear {i : Instr} (hu : unitOf i = .e) (hk : kindOf i = .clear) : i = .eclr :=
  match i, hu, hk with
  | .eclr, _, _ => rfl

theorem eq_dclr_of_clear {i : Instr} (hu : unitOf i = .d) (hk : kindOf i = .clear) : i = .dclr :=
  match i, hu, hk with
  | .dclr, _, _ => rfl

/-- Settles O18: `ECLR` is the clear of unit E, and no other command is. -/
theorem eclrResult : Obligations.EclrResult := by
  unfold Obligations.EclrResult
  refine ⟨fun s => congrArg Host.Outcome.next clearUnit_eq, fun s t hexec => ?_, fun i s t hi hexec hovf => ?_⟩
  · obtain rfl := Host.Outcome.next.inj hexec
    exact clearUnit_messages
  · exact ovf_of_exec (u := .e) hexec (fun hu hk => hi (eq_eclr_of_clear hu hk)) hovf

/-- Settles O19: `DCLR` is the clear of unit D, and no other command is. -/
theorem dclrResult : Obligations.DclrResult := by
  unfold Obligations.DclrResult
  refine ⟨fun s => congrArg Host.Outcome.next clearUnit_eq, fun s t hexec => ?_, fun i s t hi hexec hovf => ?_⟩
  · obtain rfl := Host.Outcome.next.inj hexec
    exact clearUnit_messages
  · exact ovf_of_exec (u := .d) hexec (fun hu hk => hi (eq_dclr_of_clear hu hk)) hovf

/-- Settles O20: below the capacity and at it; after an overflow `ENC` is refused. -/
theorem epushResult : Obligations.EpushResult := by
  unfold Obligations.EpushResult
  refine fun b s => ⟨fun hroom => ?_, fun hfull => ?_⟩
  · exact ⟨_, fun i => Memory.find_insert _ _ i b, pushUnit_of_room (u := .e) b hroom⟩
  · have hpush := pushUnit_of_full (u := .e) b hfull
    refine ⟨hpush, fun t ht => ?_⟩
    obtain rfl := Host.Outcome.next.inj (hpush.symm.trans ht)
    exact exec_enc_of_ovf rfl

/-- Settles O21: below the capacity and at it; after an overflow `DEC` is refused. -/
theorem dpushResult : Obligations.DpushResult := by
  unfold Obligations.DpushResult
  refine fun c s => ⟨fun hroom => ?_, fun hfull => ?_⟩
  · exact ⟨_, fun i => Memory.find_insert _ _ i c, pushUnit_of_room (u := .d) c hroom⟩
  · have hpush := pushUnit_of_full (u := .d) c hfull
    refine ⟨hpush, fun t ht => ?_⟩
    obtain rfl := Host.Outcome.next.inj (hpush.symm.trans ht)
    exact exec_dec_of_ovf rfl

end Sys2Proof.Machine
end

section
/-! PROOFS. The pop and status commands (40_host_commands.md R66 to R69). -/

namespace Sys2Proof.Machine

section operations

variable {u : UnitId} {s : State}

/-- From the invariant a pop with an unread byte finds it and answers it (R66, R67). -/
theorem popUnit_of_unread (hinv : s.Inv) (hunread : hasUnread u s) :
    ∃ v, Memory.find (getRegs u s).obuf (getRegs u s).rptr.toNat = some v ∧
      popUnit u s = .next (respond (0x0800#16 ||| v.setWidth 16)
        (setRegs u { getRegs u s with rptr := (getRegs u s).rptr + 1#16 } s)) := by
  obtain ⟨-, -, -, -, holen, -, -, -, -, hwritten⟩ := hinv.regs u
  obtain ⟨hok, hlt⟩ := hunread
  obtain ⟨v, hfind⟩ := Option.isSome_iff_exists.1 (Memory.firstN_isSome.1 hwritten _ hlt)
  have hflags := hok ▸ hinv.flags u
  refine ⟨v, hfind, ?_⟩
  rw [popUnit_of_find ⟨hok, hlt⟩ (Nat.lt_of_lt_of_le hlt holen) hfind]
  simp [respondStatus, statusWord, hok, hflags.ovf_of_ok, hflags.ekind_of_ok, sWord_popped]

end operations

/-- Every character of an encoded text is one of the Alphabet or `=` (R87). -/
theorem mem_base64Encode {b : List Byte} {c : Byte} (h : c ∈ base64Encode b) : c = padch ∨ ∃ x, c = alpha x := by
  induction b using base64Encode.induct with
  | case1 => simp [base64Encode] at h
  | case2 b0 =>
    simp only [base64Encode, List.mem_cons, List.not_mem_nil, or_false] at h
    rcases h with h | h | h | h
    · exact .inr ⟨_, h⟩
    · exact .inr ⟨_, h⟩
    · exact .inl h
    · exact .inl h
  | case3 b0 b1 =>
    simp only [base64Encode, List.mem_cons, List.not_mem_nil, or_false] at h
    rcases h with h | h | h | h
    · exact .inr ⟨_, h⟩
    · exact .inr ⟨_, h⟩
    · exact .inr ⟨_, h⟩
    · exact .inl h
  | case4 b0 b1 b2 rest ih =>
    simp only [base64Encode, List.mem_append, List.mem_cons, List.not_mem_nil, or_false] at h
    rcases h with (h | h | h | h) | h
    · exact .inr ⟨_, h⟩
    · exact .inr ⟨_, h⟩
    · exact .inr ⟨_, h⟩
    · exact .inr ⟨_, h⟩
    · exact ih h

theorem alpha_ne_zero (x : Sextet) : alpha x ≠ 0#8 := by
  revert x; decide

/-- An unread result that belongs to the input is a character of an encoded text (R64, R66). -/
theorem State.ResultsMatchInputs.unread_character {s : State} (h : s.ResultsMatchInputs) (hunread : hasUnread .e s) {v : Byte}
    (hfind : Memory.find s.e.regs.obuf s.e.regs.rptr.toNat = some v) : v = padch ∨ ∃ x, v = alpha x := by
  obtain ⟨hok, hlt⟩ := hunread
  obtain ⟨b, -, hout⟩ := h.1 hok
  have hget : (base64Encode b)[s.e.regs.rptr.toNat]? = some v :=
    ((Memory.firstN_eq_some.1 hout).2 _ hlt).symm.trans hfind
  exact mem_base64Encode (List.mem_of_getElem? hget)

/-- Settles O22: the invariant gives the unread character its element and its status; the empty pop answers the status alone. -/
theorem epopResult : Obligations.EpopResult := by
  unfold Obligations.EpopResult
  refine fun s hinv => ⟨fun hunread => ?_, fun hempty => ?_⟩
  · obtain ⟨v, hfind, hpop⟩ := popUnit_of_unread (u := .e) hinv hunread
    refine ⟨v, hfind, hpop, fun hmatch => ?_⟩
    have hchar := hmatch.unread_character hunread hfind
    refine ⟨hchar, ?_⟩
    rcases hchar with rfl | ⟨x, rfl⟩
    · decide
    · exact alpha_ne_zero x
  · have hword := (hinv.flags .e).sWord_emptyPop
    rw [readEkind_e, or_code_none] at hword
    exact (popUnit_empty (u := .e) hempty).trans (congrArg (fun w => Host.Outcome.next (respond w s)) hword)

/-- Settles O23: the same argument on unit D, where the status of an empty pop may hold an error kind. -/
theorem dpopResult : Obligations.DpopResult := by
  unfold Obligations.DpopResult
  refine fun s hinv => ⟨popUnit_of_unread (u := .d) hinv, fun hempty => ?_⟩
  have hword := (hinv.flags .d).sWord_emptyPop
  exact (popUnit_empty (u := .d) hempty).trans (congrArg (fun w => Host.Outcome.next (respond w s)) hword)

/-- Settles O24: under the invariant the status word is one that R68 or R69 lists. -/
theorem statusResult : Obligations.StatusResult := by
  unfold Obligations.StatusResult
  intro s hinv
  refine ⟨?_, (hinv.malformed_iff .e).not.2 (by simp), ?_, (hinv.malformed_iff .d).1⟩
  · have hword := (hinv.flags .e).sWord_status
    rw [readEkind_e, or_code_none] at hword
    exact congrArg (fun w => Host.Outcome.next (respond w s)) hword
  · exact congrArg (fun w => Host.Outcome.next (respond w s)) (hinv.flags .d).sWord_status

end Sys2Proof.Machine
end

section
/-! PROOFS. The length of an encoded text and its padding (41_encoder.md R83). -/

namespace Sys2Proof.Machine

/-- `=` is not a character of the Alphabet (R53). -/
@[simp] theorem alpha_ne_padch (v : Sextet) : alpha v ≠ padch := by
  revert v; decide

/-- What stands in front of a text does not change its padding, when it ends in no `=` itself (R92). -/
theorem trailingPads_append_of_unpadded {s : List Byte} (t : List Byte) (hs : trailingPads s = 0) :
    trailingPads (s ++ t) = trailingPads t := by
  unfold trailingPads at hs ⊢
  rw [List.reverse_append, List.takeWhile_append, List.eq_nil_of_length_eq_zero hs, List.append_nil]
  split
  case isTrue hall => rw [hall]
  case isFalse => rfl

/-- Each chunk of up to three bytes gives four characters (R83). -/
theorem length_base64Encode (b : List Byte) : (base64Encode b).length = (b.length + 2) / 3 * 4 := by
  induction b using base64Encode.induct with
  | case1 => rfl
  | case2 b0 => simp [base64Encode]
  | case3 b0 b1 => simp [base64Encode]
  | case4 b0 b1 b2 rest ih =>
    simp only [base64Encode, List.length_append, List.length_cons, List.length_nil, ih]
    omega

/-- The characters of a chunk of three bytes (R77) hold no padding. -/
theorem trailingPads_fullGroup (v0 v1 v2 v3 : Sextet) : trailingPads [alpha v0, alpha v1, alpha v2, alpha v3] = 0 := by
  simp [trailingPads]

/-- Only a last chunk of one or two bytes is padded (R83). -/
theorem trailingPads_base64Encode (b : List Byte) :
    trailingPads (base64Encode b) = if b.length % 3 = 1 then 2 else if b.length % 3 = 2 then 1 else 0 := by
  induction b using base64Encode.induct with
  | case1 => rfl
  | case2 b0 => simp [base64Encode, trailingPads]
  | case3 b0 b1 => simp [base64Encode, trailingPads]
  | case4 b0 b1 b2 rest ih =>
    have hmod : (b0 :: b1 :: b2 :: rest).length % 3 = rest.length % 3 := Nat.add_mod_right rest.length 3
    rw [hmod, base64Encode, trailingPads_append_of_unpadded _ (trailingPads_fullGroup ..), ih]

/-- Settles O40: the length and the padding count are inductions over the chunks; `EOCAP` is the length at `ECAP` bytes. -/
theorem encodeLength : Obligations.EncodeLength := by
  unfold Obligations.EncodeLength
  refine fun b => ⟨length_base64Encode b, ?_, trailingPads_base64Encode b, fun p hfit => ?_⟩
  · rw [length_base64Encode, Nat.mul_mod_left]
  · calc
      (base64Encode b).length = (b.length + 2) / 3 * 4 := length_base64Encode b
      _ ≤ (p.ecap + 2) / 3 * 4 := by gcongr
      _ = eocap p := rfl

end Sys2Proof.Machine
end

section
/-! PROOFS. The padding count of step 3 (42_decoder.md R92) and the length of a decoded payload (R96). -/

namespace Sys2Proof.Machine

/-- A character counted from the end of the text, as step 3 reads it (R92). -/
theorem charAt_reverse (r : List Byte) {i : Nat} (hi : i < r.length) : charAt r.reverse (r.length - (i + 1)) = charAt r i := by
  unfold charAt
  rw [List.getD_eq_getElem?_getD, List.getD_eq_getElem?_getD, List.getElem?_reverse (by omega)]
  congr 2
  omega

/-- Step 3 counts the trailing `=` of a text of three characters or more, and answers nothing when there are three or more (R92). -/
theorem countPadding_eq {t : List Byte} (h : 3 ≤ t.length) :
    countPadding t = if trailingPads t ≤ 2 then some (trailingPads t) else none := by
  obtain ⟨r, rfl⟩ : ∃ r : List Byte, t = r.reverse := ⟨t.reverse, t.reverse_reverse.symm⟩
  rw [List.length_reverse] at h
  have hlast (i : Nat) (hi : i < 3) := charAt_reverse r (i := i) (by omega)
  match r, h with
  | c1 :: c2 :: c3 :: rest, _ =>
    simp only [countPadding, trailingPads, List.length_reverse, List.reverse_reverse]
    rw [hlast 0 (by omega), hlast 1 (by omega), hlast 2 (by omega)]
    by_cases h1 : c1 = padch
    · by_cases h2 : c2 = padch
      · by_cases h3 : c3 = padch
        · simp [charAt, h1, h2, h3]
        · simp [charAt, h1, h2, h3]
      · simp [charAt, h1, h2]
    · simp [charAt, h1]

@[simp] theorem length_reassembled (t : List Byte) (l : Nat) : (reassembled t l).length = l := by
  simp [reassembled]

/-- What a successful decode says: the text is empty, or a whole number of quanta with at most two trailing `=` (R88). -/
theorem base64Decode_ok {t out : List Byte} (h : base64Decode t = .ok out) :
    (t = [] ∧ out = []) ∨
    (0 < t.length ∧ t.length % 4 = 0 ∧ trailingPads t ≤ 2 ∧
      out = reassembled (t.take (t.length - trailingPads t)) (3 * (t.length / 4) - trailingPads t)) := by
  simp only [base64Decode] at h
  split at h
  next hempty => exact .inl ⟨List.eq_nil_of_length_eq_zero hempty, (Except.ok.inj h).symm⟩
  next hempty =>
    split at h
    · cases h
    next hquanta =>
      rw [countPadding_eq (by omega)] at h
      split at h
      · cases h
      next p hp =>
        obtain ⟨hpads, hcount⟩ := Option.ite_none_right_eq_some.1 hp
        obtain rfl := Option.some.inj hcount
        split_ifs at h
        exact .inr ⟨by omega, by omega, hpads, (Except.ok.inj h).symm⟩

/-- Settles O47: a successful decode reassembles `3 * (n / 4) - p` bytes, `p` being the number of trailing `=`. -/
theorem decodeLength : Obligations.DecodeLength := by
  unfold Obligations.DecodeLength
  intro t out h
  rcases base64Decode_ok h with ⟨rfl, rfl⟩ | ⟨-, hquanta, hpads, rfl⟩
  · exact ⟨rfl, rfl, fun _ _ => Nat.zero_le _⟩
  · rw [length_reassembled]
    refine ⟨rfl, by omega, fun p hfit => ?_⟩
    rw [docap]
    omega

end Sys2Proof.Machine
end

section
/-! PROOFS. A run of unit D that does not succeed (42_decoder.md R98): what it leaves, and that the same text fails again. -/

namespace Sys2Proof.Machine

section run

variable {p : Params} {d d' : UnitD}

theorem checkLength_stg_ne_start (d : UnitD) : (checkLength d).stg ≠ .start := by
  rcases checkLength_cases d with ⟨-, h⟩ | ⟨-, h⟩ | ⟨-, -, h⟩ <;> simp [h]

/-- The first transition of a run is steps 1 and 2 (R97). -/
theorem runD_of_start (n : Nat) (h : d.stg = .start) : runD p (turnsD n) d = runD p (n + 6) (checkLength d) := by
  simp [turnsD, runD, stageD, h, checkLength_stg_ne_start]

/-- `runD_induct` for a property of a run under way: it need not be kept by a second start. -/
theorem runD_induct_underWay {P : UnitD → Prop} (hP : ∀ a b, a.stg ≠ .start → stageD p a = .ok b → P a → P b) {n : Nat}
    (hrun : runD p n d = .ok d') (hstg : d.stg ≠ .start) (h0 : P d) : P d' ∧ d'.stg = .start := by
  induction n generalizing d with
  | zero => cases hrun
  | succ n ih =>
    simp only [runD] at hrun
    split at hrun
    · cases hrun
    next x hx =>
      split at hrun
      next hend => obtain rfl := Except.ok.inj hrun; exact ⟨hP d _ hstg hx h0, hend⟩
      next hgoes => exact ih hrun hgoes (hP d x hstg hx h0)

end run

section failure

/-- The registers after `raise Fail` (R104), or after a run that has failed. -/
def UnitRegs.failed (r : UnitRegs) : UnitRegs := { r with olen := 0#16, rptr := 0#16, res := .malformed }

/-- A run under way from the registers `r`: nothing of them is written before step 6 (R97), and no failure comes after it. -/
def FailsUnwritten (r : UnitRegs) (d : UnitD) : Prop :=
  match d.stg with
  | .lengthChecked | .paddingCounted | .charScan | .paddingBitsChecked => d.regs = r
  | .reassembled => True
  | .done => d.regs.res = .ok
  | .failed => d.regs = r.failed
  | .start => d.regs.res = .ok ∨ d.regs = r.failed

variable {p : Params} {r : UnitRegs} {d d' : UnitD}

theorem failsUnwritten_checkLength : FailsUnwritten d.regs (checkLength d) := by
  rcases checkLength_cases d with ⟨-, h⟩ | ⟨-, h⟩ | ⟨-, -, h⟩ <;> rw [h] <;> rfl

theorem failsUnwritten_discoverPadding (h : discoverPadding p d = .ok d') : FailsUnwritten d.regs d' := by
  obtain ⟨-, -, ⟨-, rfl⟩ | ⟨-, -, -, ⟨-, rfl⟩ | ⟨-, -, -, ⟨-, rfl⟩ | ⟨-, rfl⟩⟩⟩⟩ := discoverPadding_ok h <;> rfl

theorem failsUnwritten_scanChar (hstg : d.stg = .charScan) (h : scanChar p d = .ok d') : FailsUnwritten d.regs d' := by
  rcases scanChar_ok h with ⟨-, -, -, ⟨-, rfl⟩ | ⟨-, rfl⟩⟩ | ⟨-, hcheck⟩
  · rfl
  · simp [FailsUnwritten, hstg]
  · rcases checkPadBits_ok hcheck with rfl | rfl <;> rfl

theorem stageD_keeps_failsUnwritten (hstg : d.stg ≠ .start) (h : stageD p d = .ok d') (hd : FailsUnwritten r d) :
    FailsUnwritten r d' := by
  rcases stageD_ok h with ⟨hs, -⟩ | ⟨hs, h⟩ | ⟨hs, rfl⟩ | ⟨hs, h⟩ | ⟨hs, h⟩ | ⟨hs, rfl⟩ | ⟨hs | hs, rfl⟩ <;>
    simp only [FailsUnwritten, hs] at hd
  · exact absurd hs hstg
  · exact hd ▸ failsUnwritten_discoverPadding h
  · exact hd
  · exact hd ▸ failsUnwritten_scanChar hs h
  · obtain ⟨x, -, rfl⟩ := reassemble_ok h
    trivial
  · rfl
  · exact .inl hd
  · exact .inr hd

/-- A run that does not succeed writes `OLEN.D`, `RPTR.D` and `RES.D` of the registers, and nothing else (R98, R104). -/
theorem runD_regs_of_not_ok {n : Nat} (hstg : d.stg = .start) (hrun : runD p (turnsD n) d = .ok d') (hres : d'.regs.res ≠ .ok) :
    d'.regs = d.regs.failed := by
  rw [runD_of_start n hstg] at hrun
  obtain ⟨hend, hstart⟩ := runD_induct_underWay (fun a b => stageD_keeps_failsUnwritten) hrun (checkLength_stg_ne_start d)
    failsUnwritten_checkLength
  simp only [FailsUnwritten, hstart] at hend
  exact hend.resolve_left hres

end failure

section determinism

/-- The unit without its outcome and without the model's counter: step 6 reads neither. -/
def UnitD.dropRes (d : UnitD) : UnitD := { d with regs := { d.regs with res := .none }, free := 0 }

/-- What a whole run reads of the unit: a run writes its working registers and the outcome before it reads them (R89, R97). -/
def UnitD.fresh (d : UnitD) : UnitD :=
  { d.dropRes with stg := .start, padcnt := 0#2, di := 0#16, dOut := 0#16, acc := 0#12, nb := 0#4 }

theorem fresh_congr {a b : UnitD} (hregs : { a.regs with res := .none } = { b.regs with res := .none }) (hkind : a.ekind = b.ekind) :
    a.fresh = b.fresh := by
  simp only [UnitD.fresh, UnitD.dropRes, hregs, hkind]

/-- What the rest of a run reads of the unit, and what it leaves: beside `UnitD.fresh` the registers that the rows of R97 before this
stage have written and a later row reads. -/
def UnitD.live (d : UnitD) : UnitD :=
  match d.stg with
  | .lengthChecked => { d.fresh with stg := d.stg }
  | .paddingCounted | .paddingBitsChecked => { d.fresh with stg := d.stg, padcnt := d.padcnt }
  | .charScan => { d.fresh with stg := d.stg, padcnt := d.padcnt, di := d.di }
  | .reassembled => { d.fresh with stg := d.stg, dOut := d.dOut }
  | .start | .done | .failed => { d.fresh with stg := d.stg, regs := d.regs }

variable {p : Params} (d : UnitD)

@[simp] theorem live_stg : d.live.stg = d.stg := by
  unfold UnitD.live; split <;> rfl

@[simp] theorem live_ekind : d.live.ekind = d.ekind := by
  unfold UnitD.live; split <;> rfl

@[simp] theorem live_fresh : d.live.fresh = d.fresh := by
  unfold UnitD.live; split <;> rfl

theorem live_regs_of_start (h : d.stg = .start) : d.live.regs = d.regs := by
  simp only [UnitD.live, h]

theorem checkLength_fresh : (checkLength d.fresh).live = (checkLength d).live := by
  simp only [checkLength, show d.fresh.regs.ilen = d.regs.ilen from rfl]
  split
  · rfl
  · split <;> rfl

/-- Two reads of one element, followed by steps that agree up to `φ`. -/
theorem map_read_congr {φ : UnitD → UnitD} (x : Except Fault Byte) {f g : Byte → Except Fault UnitD}
    (h : ∀ c, (f c).map φ = (g c).map φ) : (x >>= f).map φ = (x >>= g).map φ := by
  cases x with
  | error e => rfl
  | ok c => exact h c

/-- Two branchings on one condition, to steps that agree up to `φ`. -/
theorem map_ite_congr {φ : UnitD → UnitD} {c : Prop} [Decidable c] {a a' b b' : Except Fault UnitD}
    (ha : a.map φ = a'.map φ) (hb : b.map φ = b'.map φ) :
    (if c then a else b).map φ = (if c then a' else b').map φ := by
  split
  · exact ha
  · exact hb

theorem discoverPadding_live (h : d.stg = .lengthChecked) :
    (discoverPadding p d.live).map UnitD.live = (discoverPadding p d).map UnitD.live := by
  obtain ⟨⟩ := d
  cases h
  exact map_read_congr _ fun c1 => map_ite_congr rfl <| map_read_congr _ fun c2 => map_ite_congr rfl <|
    map_read_congr _ fun c3 => map_ite_congr rfl rfl

theorem checkPadBits_live (h : d.stg = .charScan) :
    (checkPadBits p d.live).map UnitD.live = (checkPadBits p d).map UnitD.live := by
  obtain ⟨⟩ := d
  cases h
  exact map_ite_congr (map_read_congr _ fun c => map_ite_congr rfl rfl) <|
    map_ite_congr (map_read_congr _ fun c => map_ite_congr rfl rfl) rfl

theorem scanChar_live (h : d.stg = .charScan) : (scanChar p d.live).map UnitD.live = (scanChar p d).map UnitD.live := by
  have hcheck := checkPadBits_live (p := p) d h
  obtain ⟨⟩ := d
  cases h
  exact map_ite_congr (map_read_congr _ fun c => map_ite_congr rfl rfl) hcheck

theorem emitByte_dropRes : emitByte p d.dropRes = (emitByte p d).map UnitD.dropRes := by
  by_cases h : 8 ≤ d.nb.toNat
  · simp only [emitByte, UnitD.dropRes, h, if_true]
    cases bufWrite (docap p) d.regs.obuf d.dOut.toNat (accEmit d.acc (d.nb - 8#4)) <;> rfl
  · simp only [emitByte, UnitD.dropRes, h, if_false]
    rfl

/-- A turn of step 6 whose read answers `c` (R95). -/
theorem reassembleTurn_of_textAt {c : Byte} (hc : textAt p d d.di.toNat = .ok c) :
    reassembleTurn p d = (emitByte p { d with acc := accShiftIn d.acc (dtabVal c), nb := d.nb + 6#4 }).map
      fun x => { x with di := x.di + 1#16 } := by
  rw [reassembleTurn, hc]
  rfl

theorem reassembleTurn_dropRes : reassembleTurn p d.dropRes = (reassembleTurn p d).map UnitD.dropRes := by
  cases hc : textAt p d d.di.toNat with
  | error f =>
    rw [reassembleTurn, reassembleTurn, show textAt p d.dropRes d.dropRes.di.toNat = .error f from hc, hc]
    rfl
  | ok c =>
    have hemit := emitByte_dropRes (p := p) { d with acc := accShiftIn d.acc (dtabVal c), nb := d.nb + 6#4 }
    rw [reassembleTurn_of_textAt d.dropRes hc, reassembleTurn_of_textAt d hc]
    refine (congrArg _ hemit).trans ?_
    cases emitByte p { d with acc := accShiftIn d.acc (dtabVal c), nb := d.nb + 6#4 } <;> rfl

theorem reassembleLoop_dropRes (k : Nat) : reassembleLoop p k d.dropRes = (reassembleLoop p k d).map UnitD.dropRes := by
  induction k generalizing d with
  | zero => rfl
  | succ k ih =>
    rw [reassembleLoop, reassembleLoop, reassembleTurn_dropRes]
    cases reassembleTurn p d with
    | error f => rfl
    | ok x => exact ih x

theorem reassemble_live (h : d.stg = .paddingBitsChecked) :
    (reassemble p d.live).map UnitD.live = (reassemble p d).map UnitD.live := by
  have hprefix : prefixLen d.live = prefixLen d := by
    simp only [UnitD.live, h]
    rfl
  have hzeroed : { d.live with acc := 0#12, nb := 0#4, di := 0#16, dOut := 0#16 } =
      UnitD.dropRes { d with acc := 0#12, nb := 0#4, di := 0#16, dOut := 0#16 } := by
    simp only [UnitD.live, h]
    rw [← h]
    rfl
  rw [reassemble, hprefix, hzeroed, reassembleLoop_dropRes, reassemble]
  cases reassembleLoop p (prefixLen d) { d with acc := 0#12, nb := 0#4, di := 0#16, dOut := 0#16 } <;> rfl

theorem stageD_live : (stageD p d.live).map UnitD.live = (stageD p d).map UnitD.live := by
  cases h : d.stg with
  | start =>
    simp only [stageD, live_stg, h]
    refine congrArg Except.ok ?_
    rw [← checkLength_fresh, live_fresh, checkLength_fresh]
  | lengthChecked => simpa [stageD, h] using discoverPadding_live d h
  | paddingCounted =>
    simp only [stageD, UnitD.live, h]
    rfl
  | charScan => simpa [stageD, h] using scanChar_live d h
  | paddingBitsChecked => simpa [stageD, h] using reassemble_live d h
  | reassembled =>
    simp only [stageD, UnitD.live, h]
    rfl
  | done =>
    simp only [stageD, UnitD.live, h]
    rfl
  | failed =>
    simp only [stageD, UnitD.live, h]
    rfl

/-- Two runs on from states that agree in what is live end in states that do. -/
theorem runD_live (n : Nat) : (runD p n d.live).map UnitD.live = (runD p n d).map UnitD.live := by
  induction n generalizing d with
  | zero => rfl
  | succ n ih =>
    have hstage := stageD_live (p := p) d
    rw [runD, runD]
    generalize stageD p d.live = a, stageD p d = b at hstage
    match a, b, hstage with
    | .error f, .error g, hstage =>
      obtain rfl := Except.error.inj hstage
      rfl
    | .ok x, .ok y, hstage =>
      have hxy : x.live = y.live := Except.ok.inj hstage
      have hstg : x.stg = y.stg := by simpa using congrArg UnitD.stg hxy
      have hrest : (runD p n x).map UnitD.live = (runD p n y).map UnitD.live := by rw [← ih x, ← ih y, hxy]
      show (if x.stg = .start then .ok x else runD p n x).map UnitD.live =
        (if y.stg = .start then .ok y else runD p n y).map UnitD.live
      rw [hstg]
      exact map_ite_congr hstage hrest

/-- Two runs from their start, of units that differ in nothing a run reads, both end, with the same registers and kind (R99). -/
theorem runD_deterministic {a b a' : UnitD} {n : Nat} (ha : a.stg = .start) (hb : b.stg = .start) (hab : a.fresh = b.fresh)
    (hrun : runD p (turnsD n) a = .ok a') : ∃ b', runD p (turnsD n) b = .ok b' ∧ b'.regs = a'.regs ∧ b'.ekind = a'.ekind := by
  have hfirst : (checkLength b).live = (checkLength a).live := by rw [← checkLength_fresh, ← hab, checkLength_fresh]
  have hruns : (runD p (turnsD n) b).map UnitD.live = .ok a'.live := by
    rw [runD_of_start n hb, ← runD_live, hfirst, runD_live, ← runD_of_start n ha, hrun]
    rfl
  cases hrun' : runD p (turnsD n) b with
  | error f => simp [hrun', Except.map] at hruns
  | ok b' =>
    have hlive : b'.live = a'.live := by simpa [hrun', Except.map] using hruns
    obtain ⟨-, -, -, -, hstart⟩ := runD_keeps hrun
    obtain ⟨-, -, -, -, hstart'⟩ := runD_keeps hrun'
    refine ⟨b', rfl, ?_, ?_⟩
    · rw [← live_regs_of_start a' hstart, ← live_regs_of_start b' hstart', hlive]
    · rw [← live_ekind a', ← live_ekind b', hlive]

end determinism

/-- A pop without a result answers `EMPTY` with `DATA` 0 and changes nothing (R67, R116). -/
theorem popUnit_of_not_ok {u : UnitId} {s : State} (h : (getRegs u s).res ≠ .ok) :
    popUnit u s = .next (respond (statusWord u true 0#8 s) s) :=
  popUnit_empty fun ⟨hok, _⟩ => h hok

/-- A `DEC` that does not succeed writes `OLEN.D`, `RPTR.D` and `RES.D` of the registers, and nothing else (R98, R104, R105). -/
theorem execDec_regs_of_not_ok {s t : State} (h : execDec s = .next t) (hres : t.d.regs.res ≠ .ok) :
    t.d.regs = { s.d.regs with olen := 0#16, rptr := 0#16, res := t.d.regs.res } := by
  rcases execDec_next h with ⟨-, ht⟩ | ⟨-, d, hrun, ht⟩
  · show getRegs .d t = { getRegs .d s with olen := 0#16, rptr := 0#16, res := (getRegs .d t).res }
    simp [ht]
  · have htd : t.d = d.forget := congrArg State.d ht
    rw [htd, forgetD_regs] at hres ⊢
    rw [runD_regs_of_not_ok (d := { (beginRun .d s).d with stg := .start }) rfl hrun hres]
    rfl

/-- A `DEC` that does not succeed fails again, in the same way (R98). -/
theorem execDec_again_of_not_ok {s t : State} (h : execDec s = .next t) (hres : t.d.regs.res ≠ .ok) :
    ∃ x, execDec t = .next x ∧ x.d.regs = t.d.regs ∧ x.d.ekind = t.d.ekind := by
  rcases execDec_next h with ⟨hovf, ht⟩ | ⟨hovf, d, hrun, ht⟩
  · have hovf' : (getRegs .d t).ovf = true := by
      simp only [ht, raiseFault_getRegs, beginRun_getRegs]
      exact hovf
    refine ⟨_, execDec_of_ovf hovf', ?_, ?_⟩
    · show getRegs .d (raiseFault .d (beginRun .d t)) = getRegs .d t
      simp [ht]
    · show readEkind .d (raiseFault .d (beginRun .d t)) = readEkind .d t
      simp [ht]
  · have htd : t.d = d.forget := congrArg State.d ht
    rw [htd, forgetD_regs] at hres ⊢
    have hregs : d.regs = (beginRun .d s).d.regs.failed :=
      runD_regs_of_not_ok (d := { (beginRun .d s).d with stg := .start }) rfl hrun hres
    have hovf' : t.d.regs.ovf = false := by rw [htd, forgetD_regs, hregs]; exact hovf
    have hlen : t.d.regs.ilen = s.d.regs.ilen := by rw [htd, forgetD_regs, hregs]; rfl
    have hcfg : t.cfg = s.cfg := by rw [ht]; rfl
    have hfresh : UnitD.fresh { (beginRun .d s).d with stg := .start } = UnitD.fresh { (beginRun .d t).d with stg := .start } :=
      fresh_congr (by simp [beginRun_d, htd, hregs, UnitRegs.failed]) rfl
    obtain ⟨d', hrun', hsame, hkind⟩ := runD_deterministic rfl rfl hfresh hrun
    exact ⟨_, execDec_of_runD hovf' (by rw [hlen, hcfg]; exact hrun'), hsame, hkind⟩

/-- Settles O51: a `DEC` that does not succeed leaves no result to pop, and the registers it leaves fail again. -/
theorem noPartialSuccess : Obligations.NoPartialSuccess := by
  unfold Obligations.NoPartialSuccess
  intro s t hexec hres
  have hregs := execDec_regs_of_not_ok hexec hres
  refine ⟨by rw [hregs], by rw [hregs], by rw [hregs], ?_, execDec_again_of_not_ok hexec hres⟩
  exact ⟨_, popUnit_of_not_ok (u := .d) hres, by simp [statusWord], by simp [statusWord]⟩

end Sys2Proof.Machine
end

section
/-! PROOFS. The two primitives that stand in the place of an exception entry: `raise Fail` (60_exceptions.md R104) and `raise Fault`
(R105). -/

namespace Sys2Proof.Machine

/-- The response of unit D with a failure recorded and no overflow (R104). -/
theorem respondStatus_of_malformed {s : State} (k : FailKind) (hovf : s.d.regs.ovf = false) (hres : s.d.regs.res = .malformed)
    (hkind : s.d.ekind = .fail k) :
    respondStatus .d false 0#8 s = respond (0x1000#16 ||| ((EKind.fail k).code.setWidth 16 <<< 8)) s := by
  rw [respondStatus, statusWord, getRegs, readEkind, hovf, hres, hkind, (Flags.malformed k).sWord_status]

/-- A refused run, with its response and every write (R105): what `beginRun` wrote first is written again. -/
theorem raiseFault_beginRun_eq {u : UnitId} {s : State} (hovf : (getRegs u s).ovf = true) :
    raiseFault u (beginRun u s) =
      respond 0x3800#16 (writeEkind u .none (setRegs u { getRegs u s with olen := 0#16, rptr := 0#16, res := .fault } s)) := by
  have hwrites : writeEkind u .none (setRegs u { getRegs u (beginRun u s) with olen := 0#16, rptr := 0#16, res := .fault }
      (beginRun u s)) = writeEkind u .none (setRegs u { getRegs u s with olen := 0#16, rptr := 0#16, res := .fault } s) := by
    cases u <;> rfl
  rw [raiseFault, hwrites]
  simp [respondStatus, statusWord, hovf, Flags.fault.sWord_status]

/-- Settles O55: the writes are those of the definition, the next row of R97 is the one from `D_FAILED`, and the response is the status
word of a failure. -/
theorem raiseFailEffect : Obligations.RaiseFailEffect := by
  unfold Obligations.RaiseFailEffect
  exact fun k d p => ⟨rfl, rfl, fun s hovf => respondStatus_of_malformed k hovf rfl rfl⟩

/-- Settles O56: both run commands refuse through `raise Fault`. -/
theorem faultEffect : Obligations.FaultEffect := by
  unfold Obligations.FaultEffect
  refine ⟨fun s hovf => ⟨(execEnc_of_ovf hovf).trans ?_, readEkind_e s⟩, fun s hovf => (execDec_of_ovf hovf).trans ?_⟩
  · exact congrArg Host.Outcome.next (raiseFault_beginRun_eq (u := .e) hovf)
  · exact congrArg Host.Outcome.next (raiseFault_beginRun_eq (u := .d) hovf)

end Sys2Proof.Machine
end

section
/-! PROOFS. The outcome `RES.u`, `EKIND.u` of a unit: what a run leaves in it, that no run reads it, and that nothing but a run, a push
and a clear of the unit writes it (60_exceptions.md R110, R120). -/

namespace Sys2Proof.Machine

section runE

variable {p : Params} {e e' : UnitE} {n : Nat}

/-- A transition of unit E that comes to the idle stage from another one records `OK` (R85). -/
theorem stageE_res_of_idle (h : stageE p e = .ok e') (he : e.stg = .idle → e.regs.res = .ok) : e'.stg = .idle → e'.regs.res = .ok := by
  rcases stageE_ok h with ⟨-, rfl⟩ | ⟨hs, -, hchunk⟩ | ⟨-, -, rfl⟩ | ⟨-, x, -, rfl⟩ | ⟨-, rfl⟩
  · exact he
  · obtain ⟨b0, b1, b2, m, -, -, -, -, rfl⟩ := fullChunk_ok hchunk
    simp [hs]
  · nofun
  · nofun
  · exact fun _ => rfl

theorem startE_stg_ne_idle : (startE e).stg ≠ .idle := by simp [startE]

/-- A run of unit E ends with `OK` (R120). -/
theorem runE_res (hstg : e.stg ≠ .idle) (hrun : runE p n e = .ok e') : e'.regs.res = .ok := by
  obtain ⟨hres, hidle⟩ := runE_induct (fun _ _ => stageE_res_of_idle) n hrun fun h => absurd h hstg
  exact hres hidle

/-- The unit with another `RES.E`. -/
def UnitE.withRes (r : Res) (e : UnitE) : UnitE := { e with regs := { e.regs with res := r } }

section bind

variable {α β : Type} {φ : α → α} {ψ : β → β} {x y : Except Fault α} {f g : α → Except Fault β}

/-- Two computations that differ by `φ`, and that go on so that they differ by `ψ`. -/
theorem bind_eq_map_bind (hxy : x = y.map φ) (hfg : ∀ a, f (φ a) = (g a).map ψ) : (x >>= f) = (y >>= g).map ψ := by
  subst hxy
  cases y with
  | error _ => rfl
  | ok a => exact hfg a

/-- Two computations that begin with the same read. -/
theorem read_eq_map_read (x : Except Fault α) (hfg : ∀ a, f a = (g a).map ψ) : (x >>= f) = (x >>= g).map ψ :=
  bind_eq_map_bind (φ := id) (id_map x).symm hfg

end bind

variable (r : Res) (e)

theorem emitGroup_withRes (c0 c1 c2 c3 : Byte) :
    emitGroup p (e.withRes r) c0 c1 c2 c3 = (emitGroup p e c0 c1 c2 c3).map (UnitE.withRes r) :=
  read_eq_map_read (bufWrite4 (eocap p) e.regs.obuf e.eo.toNat c0 c1 c2 c3) fun _ => rfl

theorem fullChunk_withRes : fullChunk p (e.withRes r) = (fullChunk p e).map (UnitE.withRes r) :=
  read_eq_map_read (chunkByte p e 0) fun b0 => read_eq_map_read (chunkByte p e 1) fun b1 =>
    read_eq_map_read (chunkByte p e 2) fun b2 =>
      bind_eq_map_bind (emitGroup_withRes { e with pack := pack3 b0 b1 b2 } r _ _ _ _) fun _ => rfl

theorem tail1_withRes : tail1 p (e.withRes r) = (tail1 p e).map (UnitE.withRes r) :=
  read_eq_map_read (chunkByte p e 0) fun b0 => emitGroup_withRes { e with pack := pack3 b0 0#8 0#8 } r _ _ _ _

theorem tail2_withRes : tail2 p (e.withRes r) = (tail2 p e).map (UnitE.withRes r) :=
  read_eq_map_read (chunkByte p e 0) fun b0 => read_eq_map_read (chunkByte p e 1) fun b1 =>
    emitGroup_withRes { e with pack := pack3 b0 b1 0#8 } r _ _ _ _

theorem tailChunk_withRes : tailChunk p (e.withRes r) = (tailChunk p e).map (UnitE.withRes r) := by
  unfold tailChunk
  rw [show leftE (e.withRes r) = leftE e from rfl, tail1_withRes, tail2_withRes]
  split
  · rfl
  · split <;> rfl

/-- A transition of a run under way does not read the outcome, and the last one overwrites it (R85). -/
theorem stageE_withRes (hstg : e.stg ≠ .idle) :
    stageE p (e.withRes r) = if e.stg = .done then stageE p e else (stageE p e).map (UnitE.withRes r) := by
  cases hs : e.stg with
  | idle => exact absurd hs hstg
  | chunk =>
    simp only [stageE, show (e.withRes r).stg = .chunk from hs, hs, show leftE (e.withRes r) = leftE e from rfl, fullChunk_withRes,
      reduceCtorEq, if_false]
    split <;> rfl
  | tail =>
    simp only [stageE, show (e.withRes r).stg = .tail from hs, hs, tailChunk_withRes, reduceCtorEq, if_false]
    cases tailChunk p e <;> rfl
  | done =>
    simp only [stageE, show (e.withRes r).stg = .done from hs, hs, if_true]
    rfl

/-- Only the last transition of a run goes back to the idle stage (R85). -/
theorem stageE_stg_ne_idle (hstg : e.stg ≠ .idle) (hdone : e.stg ≠ .done) (h : stageE p e = .ok e') : e'.stg ≠ .idle := by
  rcases stageE_ok h with ⟨hs, -⟩ | ⟨hs, -, hchunk⟩ | ⟨-, -, rfl⟩ | ⟨-, x, -, rfl⟩ | ⟨hs, -⟩
  · exact absurd hs hstg
  · obtain ⟨b0, b1, b2, m, -, -, -, -, rfl⟩ := fullChunk_ok hchunk
    exact hstg
  · nofun
  · nofun
  · exact absurd hs hdone

/-- A run under way does not depend on the outcome that stood there before it (R110). -/
theorem runE_withRes (hstg : e.stg ≠ .idle) : runE p n (e.withRes r) = runE p n e := by
  induction n generalizing e with
  | zero => rfl
  | succ n ih =>
    rw [runE, runE, stageE_withRes e r hstg]
    by_cases hdone : e.stg = .done
    · rw [if_pos hdone]
    · rw [if_neg hdone]
      cases hstage : stageE p e with
      | error f => rfl
      | ok x =>
        have hgoes : x.stg ≠ .idle := stageE_stg_ne_idle e hstg hdone hstage
        show (if x.stg = .idle then _ else runE p n (x.withRes r)) = if x.stg = .idle then _ else runE p n x
        rw [if_neg hgoes, if_neg hgoes, ih x hgoes]

end runE

section runD

/-- The outcome of a run of unit D under way: a kind is recorded exactly by a failure (R89, R104). -/
def HasOutcome (d : UnitD) : Prop :=
  match d.stg with
  | .lengthChecked | .paddingCounted | .charScan | .paddingBitsChecked | .reassembled => d.ekind = .none
  | .done => d.regs.res = .ok ∧ d.ekind = .none
  | .failed => d.regs.res = .malformed ∧ ∃ k, d.ekind = .fail k
  | .start => (d.regs.res = .ok ∧ d.ekind = .none) ∨ (d.regs.res = .malformed ∧ ∃ k, d.ekind = .fail k)

variable {p : Params} {d d' : UnitD} {n : Nat}

theorem hasOutcome_raiseFail (k : FailKind) (d : UnitD) : HasOutcome (raiseFail k d) := ⟨rfl, k, rfl⟩

theorem hasOutcome_checkLength (hkind : d.ekind = .none) : HasOutcome (checkLength d) := by
  rcases checkLength_cases d with ⟨-, h⟩ | ⟨-, h⟩ | ⟨-, -, h⟩ <;> rw [h]
  · exact ⟨rfl, hkind⟩
  · exact hasOutcome_raiseFail ..
  · exact hkind

theorem hasOutcome_discoverPadding (hkind : d.ekind = .none) (h : discoverPadding p d = .ok d') : HasOutcome d' := by
  obtain ⟨-, -, ⟨-, rfl⟩ | ⟨-, -, -, ⟨-, rfl⟩ | ⟨-, -, -, ⟨-, rfl⟩ | ⟨-, rfl⟩⟩⟩⟩ := discoverPadding_ok h
  · exact hkind
  · exact hkind
  · exact hkind
  · exact hasOutcome_raiseFail ..

theorem hasOutcome_scanChar (hstg : d.stg = .charScan) (hkind : d.ekind = .none) (h : scanChar p d = .ok d') : HasOutcome d' := by
  rcases scanChar_ok h with ⟨-, -, -, ⟨-, rfl⟩ | ⟨-, rfl⟩⟩ | ⟨-, hcheck⟩
  · exact hasOutcome_raiseFail ..
  · simpa only [HasOutcome, hstg] using hkind
  · rcases checkPadBits_ok hcheck with rfl | rfl
    · exact hkind
    · exact hasOutcome_raiseFail ..

theorem stageD_keeps_hasOutcome (hstg : d.stg ≠ .start) (h : stageD p d = .ok d') (hd : HasOutcome d) : HasOutcome d' := by
  rcases stageD_ok h with ⟨hs, -⟩ | ⟨hs, h⟩ | ⟨hs, rfl⟩ | ⟨hs, h⟩ | ⟨hs, h⟩ | ⟨hs, rfl⟩ | ⟨hs | hs, rfl⟩ <;>
    simp only [HasOutcome, hs] at hd
  · exact absurd hs hstg
  · exact hasOutcome_discoverPadding hd h
  · exact hd
  · exact hasOutcome_scanChar hs hd h
  · obtain ⟨x, hloop, rfl⟩ := reassemble_ok h
    obtain ⟨-, hkind, -, -, -⟩ := reassembleLoop_keeps hloop
    exact hkind.trans hd
  · exact ⟨rfl, hd⟩
  · exact .inl hd
  · exact .inr hd

/-- A run of unit D ends with `OK` and no kind, or with `MALFORMED` and the kind of its failure (R89, R104). -/
theorem runD_outcome (hstg : d.stg = .start) (hkind : d.ekind = .none) (hrun : runD p (turnsD n) d = .ok d') :
    (d'.regs.res = .ok ∧ d'.ekind = .none) ∨ (d'.regs.res = .malformed ∧ ∃ k, d'.ekind = .fail k) := by
  rw [runD_of_start n hstg] at hrun
  obtain ⟨hend, hstart⟩ := runD_induct_underWay (fun a b => stageD_keeps_hasOutcome) hrun (checkLength_stg_ne_start d)
    (hasOutcome_checkLength hkind)
  simpa only [HasOutcome, hstart] using hend

end runD

/-- What a command of each kind may make of the outcome `res`, `ekind` of its unit, whose overflow flag is `ovf` (R110). -/
inductive OutcomeStep (ovf : Bool) (res : Res) (ekind : EKind) : CommandKind → Res → EKind → Prop where
  /-- R62, R63. -/
  | cleared : OutcomeStep ovf res ekind .clear .none .none
  /-- R64, R65. -/
  | pushed : OutcomeStep ovf res ekind .push .none .none
  /-- R105. -/
  | refused (overflow : ovf = true) : OutcomeStep ovf res ekind .run .fault .none
  /-- R76, R89. -/
  | succeeded (noOverflow : ovf = false) : OutcomeStep ovf res ekind .run .ok .none
  /-- R104. -/
  | failed (noOverflow : ovf = false) (k : FailKind) : OutcomeStep ovf res ekind .run .malformed (.fail k)
  /-- The pop, status and length commands (R66 to R73). -/
  | kept (k : CommandKind) (noRun : k ≠ .run) (noPush : k ≠ .push) (noClear : k ≠ .clear) : OutcomeStep ovf res ekind k res ekind

/-- From `s` to `t` the outcome of unit `u` takes a step of kind `k`. -/
def OutcomeActsOn (u : UnitId) (k : CommandKind) (s t : State) : Prop :=
  OutcomeStep (getRegs u s).ovf (getRegs u s).res (readEkind u s) k (getRegs u t).res (readEkind u t)

section operations

variable {u : UnitId} {s t : State}

theorem clearUnit_outcome : OutcomeActsOn u .clear s (clearUnit u s) := by
  simpa [OutcomeActsOn, clearUnit] using OutcomeStep.cleared

theorem pushUnit_outcome {b : Byte} (h : pushUnit u b s = .next t) : OutcomeActsOn u .push s t := by
  obtain ⟨r, hr, hnext⟩ := pushUnit_next (u := u) (b := b) (s := s)
  obtain rfl := Host.Outcome.next.inj (hnext.symm.trans h)
  have hres : r.res = .none := by
    rcases pushRegs_cases (icap s.cfg u) b (getRegs u s) with ⟨-, hpush⟩ | ⟨-, hpush⟩
    · rw [← Except.ok.inj (hpush.symm.trans hr)]; rfl
    · rw [← Except.ok.inj (hpush.symm.trans hr)]; rfl
  simpa [OutcomeActsOn, hres] using OutcomeStep.pushed

theorem popUnit_outcome (h : popUnit u s = .next t) : OutcomeActsOn u .pop s t := by
  rcases popUnit_next h with ⟨v, -, -, rfl⟩ | ⟨-, rfl⟩
  · simpa [OutcomeActsOn] using OutcomeStep.kept .pop nofun nofun nofun
  · simpa [OutcomeActsOn] using OutcomeStep.kept .pop nofun nofun nofun

/-- A command that only answers keeps the outcome. -/
theorem respond_outcome {k : CommandKind} (w : Word) (noRun : k ≠ .run) (noPush : k ≠ .push) (noClear : k ≠ .clear) :
    OutcomeActsOn u k s (respond w s) := by
  simpa [OutcomeActsOn] using OutcomeStep.kept k noRun noPush noClear

theorem raiseFault_outcome (hovf : (getRegs u s).ovf = true) : OutcomeActsOn u .run s (raiseFault u (beginRun u s)) := by
  simpa [OutcomeActsOn] using OutcomeStep.refused hovf

theorem execEnc_outcome (h : execEnc s = .next t) : OutcomeActsOn .e .run s t := by
  rcases execEnc_next h with ⟨hovf, rfl⟩ | ⟨hovf, e, hrun, rfl⟩
  · exact raiseFault_outcome hovf
  · have hres : e.regs.res = .ok := runE_res startE_stg_ne_idle hrun
    show OutcomeStep _ _ _ .run e.regs.res .none
    exact hres ▸ .succeeded hovf

theorem execDec_outcome (h : execDec s = .next t) : OutcomeActsOn .d .run s t := by
  rcases execDec_next h with ⟨hovf, rfl⟩ | ⟨hovf, d, hrun, rfl⟩
  · exact raiseFault_outcome hovf
  · show OutcomeStep _ _ _ .run d.regs.res d.ekind
    rcases runD_outcome rfl rfl hrun with ⟨hres, hkind⟩ | ⟨hres, k, hkind⟩
    · exact hres ▸ hkind ▸ .succeeded hovf
    · exact hres ▸ hkind ▸ .failed hovf k

end operations

/-- Every command acts on the outcome of the unit it is addressed to, as its kind says (R110). -/
theorem exec_outcome {i : Instr} {s t : State} (h : exec i s = .next t) : OutcomeActsOn (unitOf i) (kindOf i) s t := by
  cases i with
  | eclr => obtain rfl := Host.Outcome.next.inj h; exact clearUnit_outcome
  | dclr => obtain rfl := Host.Outcome.next.inj h; exact clearUnit_outcome
  | epush b => exact pushUnit_outcome h
  | dpush c => exact pushUnit_outcome h
  | enc => exact execEnc_outcome h
  | dec => exact execDec_outcome h
  | epop => exact popUnit_outcome h
  | dpop => exact popUnit_outcome h
  | estat | dstat | eolen | dolen | eilen | dilen =>
    obtain rfl := Host.Outcome.next.inj h
    exact respond_outcome _ nofun nofun nofun

/-- A command leaves the outcome of the other unit alone (R40). -/
theorem exec_outcome_other {i : Instr} {s t : State} {u : UnitId} (h : exec i s = .next t) (hu : unitOf i ≠ u) :
    (getRegs u t).res = (getRegs u s).res ∧ readEkind u t = readEkind u s := by
  obtain ⟨x, w, rfl, -⟩ := (exec_actsOnUnit i).exists_result h
  generalize unitOf i = v at hu
  cases u with
  | e => cases v with
    | e => exact absurd rfl hu
    | d => exact ⟨rfl, rfl⟩
  | d => cases v with
    | e => exact ⟨rfl, rfl⟩
    | d => exact absurd rfl hu

section step

variable {ovf : Bool} {res res' : Res} {ekind ekind' : EKind} {k : CommandKind}

theorem OutcomeStep.of_run (h : OutcomeStep ovf res ekind .run res' ekind') :
    res' ≠ .none ∧ (res' = .fault ↔ ovf = true) ∧ (res' = .malformed ↔ ekind' ≠ .none) := by
  cases h with
  | refused overflow => simp [overflow]
  | succeeded noOverflow => simp [noOverflow]
  | failed noOverflow k => simp [noOverflow]
  | kept _ noRun noPush noClear => exact absurd rfl noRun

theorem OutcomeStep.of_push_or_clear (h : OutcomeStep ovf res ekind k res' ekind') (hk : k = .push ∨ k = .clear) :
    res' = .none ∧ ekind' = .none := by
  cases h with
  | cleared | pushed => exact ⟨rfl, rfl⟩
  | refused | succeeded | failed => simp at hk
  | kept _ noRun noPush noClear => exact absurd hk (by simp [noPush, noClear])

theorem OutcomeStep.kept_of_ne (h : OutcomeStep ovf res ekind k res' ekind') (hk : k ≠ .run ∧ k ≠ .push ∧ k ≠ .clear) :
    res' = res ∧ ekind' = ekind := by
  cases h with
  | kept => exact ⟨rfl, rfl⟩
  | cleared | pushed | refused | succeeded | failed => simp at hk

/-- A kind stands beside `MALFORMED` only (R22 item 4), and every command keeps it so. -/
theorem OutcomeStep.malformed_iff (h : OutcomeStep ovf res ekind k res' ekind') (hold : res = .malformed ↔ ekind ≠ .none) :
    res' = .malformed ↔ ekind' ≠ .none := by
  cases h with
  | kept => exact hold
  | cleared | pushed | refused | succeeded | failed => simp

end step

/-- The state with another outcome of unit `u`. -/
def withOutcome (u : UnitId) (r : Res) (k : EKind) (s : State) : State :=
  writeEkind u k (setRegs u { getRegs u s with res := r } s)

/-- `ENC` does not depend on the outcome before it (R110). -/
theorem execEnc_withOutcome {s t : State} (r : Res) (k : EKind) (h : execEnc s = .next t) :
    execEnc (withOutcome .e r k s) = .next t := by
  rcases execEnc_next h with ⟨hovf, rfl⟩ | ⟨hovf, e, hrun, rfl⟩
  · exact execEnc_of_ovf (s := withOutcome .e r k s) hovf
  · exact execEnc_of_runE (s := withOutcome .e r k s) hovf ((runE_withRes (startE (beginRun .e s).e) r startE_stg_ne_idle).trans hrun)

/-- What `DEC` leaves as the outcome does not depend on the outcome before it (R99, R110). -/
theorem execDec_withOutcome {s t : State} (r : Res) (k : EKind) (h : execDec s = .next t) :
    ∃ t', execDec (withOutcome .d r k s) = .next t' ∧ (getRegs .d t').res = (getRegs .d t).res ∧ readEkind .d t' = readEkind .d t := by
  rcases execDec_next h with ⟨hovf, rfl⟩ | ⟨hovf, d, hrun, rfl⟩
  · exact ⟨_, execDec_of_ovf (s := withOutcome .d r k s) hovf, rfl, rfl⟩
  · obtain ⟨d', hrun', hregs, hkind⟩ := runD_deterministic (a := { (beginRun .d s).d with stg := .start })
      (b := { (beginRun .d (withOutcome .d r k s)).d with stg := .start }) rfl rfl (fresh_congr rfl rfl) hrun
    exact ⟨_, execDec_of_runD (s := withOutcome .d r k s) hovf hrun', congrArg UnitRegs.res hregs, hkind⟩

/-- A run overwrites the outcome of its unit, whatever it was (R110). -/
theorem exec_run_withOutcome {i : Instr} {s t : State} (hk : kindOf i = .run) (h : exec i s = .next t) (r : Res) (k : EKind) :
    ∃ t', exec i (withOutcome (unitOf i) r k s) = .next t' ∧
      (getRegs (unitOf i) t').res = (getRegs (unitOf i) t).res ∧ readEkind (unitOf i) t' = readEkind (unitOf i) t :=
  match i, hk with
  | .enc, _ => ⟨t, execEnc_withOutcome r k h, rfl, rfl⟩
  | .dec, _ => execDec_withOutcome r k h

@[simp] theorem readEkind_resetUnits (u : UnitId) (s : State) : readEkind u (resetUnits s) = .none := by cases u <;> rfl

/-- A step that takes `rst` clears the error kind (R121). -/
theorem readEkind_step_rst {s t : State} {rest : List PortInput} (hport : s.port = .rst :: rest) (h : step s = .next t) (u : UnitId) :
    readEkind u t = .none := by
  simp only [step, takeInput, hport, Host.Outcome.next.injEq] at h
  simp [← h]

/-- Settles O27: every command takes its own unit's outcome by the step of its kind and leaves the other unit's, and a run reads no
outcome. -/
theorem outcomeStaysUntilReplaced : Obligations.OutcomeStaysUntilReplaced := by
  unfold Obligations.OutcomeStaysUntilReplaced
  refine ⟨fun s t rest u hport hstep => ⟨?_, readEkind_step_rst hport hstep u⟩, fun i s t u hexec => ⟨?_, ?_, ?_⟩⟩
  · rw [getRegs_step_rst hport hstep]
    rfl
  · rintro rfl hrun
    obtain ⟨hres, hfault, hmalformed⟩ := OutcomeStep.of_run (hrun ▸ exec_outcome hexec)
    exact ⟨hres, hfault, hmalformed, exec_run_withOutcome hrun hexec⟩
  · rintro rfl
    exact (exec_outcome hexec).of_push_or_clear
  · intro hk
    by_cases hu : unitOf i = u
    · subst hu
      exact (exec_outcome hexec).kept_of_ne (hk.resolve_left fun h => h rfl)
    · exact exec_outcome_other hexec hu

theorem Res.code_ne_malformed {r : Res} (h : r ≠ .malformed) : r.code ≠ 2#2 := by
  cases r with
  | malformed => exact absurd rfl h
  | none | ok | fault => decide

/-- Settles O33: `MALFORMED` stands only beside a kind, which unit E has not; the response shows the two fields as the unit holds them. -/
theorem encoderNeverMalformed : Obligations.EncoderNeverMalformed := by
  unfold Obligations.EncoderNeverMalformed
  intro i s t hinv hu hexec
  have hmalformed : t.e.regs.res = .malformed ↔ readEkind .e t ≠ .none :=
    OutcomeStep.malformed_iff (hu ▸ exec_outcome hexec) (hinv.malformed_iff .e)
  have hres : t.e.regs.res ≠ .malformed := by simp [hmalformed]
  refine ⟨hres, readEkind_e t, fun hout hin => ?_⟩
  obtain ⟨-, -, hanswers⟩ := everyCommandAnswersOnce
  obtain ⟨r, hresps, -, -, hfields⟩ := hanswers i s t hexec
  obtain ⟨-, -, -, hresField, hkindField, -⟩ := hfields hout hin
  rw [hu] at hresField hkindField
  exact ⟨r, hresps, hkindField, hresField ▸ Res.code_ne_malformed hres⟩

end Sys2Proof.Machine
end

section
/-! PROOFS. Decoding and encoding of the command words, and the opcode map (30_encoding.md R44 to R51). -/

namespace Sys2Proof

open Laws.LegalEncoding (cWord_fields)

/-- The fields of a word put together again (R44). -/
theorem cWord_cFormatOf (w : Word) : cWord (cFormatOf w).op (cFormatOf w).u (cFormatOf w).z (cFormatOf w).data = w := by
  have hopu : cat 4 (w.extractLsb' 13 3) (w.extractLsb' 12 1) = w.extractLsb' 12 4 :=
    (cat_eq_append _ _).trans (extract_cut w 12 3 1).symm
  have hhigh : cat 8 (w.extractLsb' 12 4) (w.extractLsb' 8 4) = w.extractLsb' 8 8 :=
    (cat_eq_append _ _).trans (extract_cut w 8 4 4).symm
  calc cWord (w.extractLsb' 13 3) (w.extractLsb' 12 1) (w.extractLsb' 8 4) (w.extractLsb' 0 8)
    _ = cat 16 (w.extractLsb' 8 8) (w.extractLsb' 0 8) := by rw [cWord, hopu, hhigh]
    _ = w.extractLsb' 0 16 := (cat_eq_append _ _).trans (extract_cut w 0 8 8).symm
    _ = w := extract_whole w

/-- Every command's word decodes to it. -/
theorem decode_encode (i : Instr) : decode (encode i) = .ok i := by
  cases i with
  | epush b | dpush b => simp [decode, encode, cWord_fields, decodeFields, byUnit]
  | eclr | dclr | enc | dec | epop | dpop | estat | dstat | eolen | dolen | eilen | dilen => rfl

/-- A row of the opcode map is chosen by `OP` and `U` together (R49). -/
theorem encode_byUnit {op : BitVec 3} {z : BitVec 4} {data : Byte} {onE onD : Instr} (u : BitVec 1)
    (he : encode onE = cWord op 0#1 z data) (hd : encode onD = cWord op 1#1 z data) :
    encode (byUnit u onE onD) = cWord op u z data := by
  obtain rfl | rfl : u = 0#1 ∨ u = 1#1 := by revert u; decide
  · exact he
  · exact hd

/-- Legal fields are those of the command's word. -/
theorem encode_of_decodeFields {f : CFormat} {i : Instr} (h : decodeFields f = .ok i) : encode i = cWord f.op f.u f.z f.data := by
  obtain ⟨op, u, z, data⟩ := f
  unfold decodeFields at h
  split at h
  · cases h
  split at h
  · cases h
  next hz =>
    obtain rfl : z = 0#4 := by simpa using hz
    split at h
    next hop =>
      obtain rfl : op = 2#3 := hop
      obtain rfl := Except.ok.inj h
      exact encode_byUnit u rfl rfl
    split at h
    · cases h
    next hdata =>
      obtain rfl : data = 0#8 := by simpa using hdata
      split_ifs at h with h1 h3 h4 h5 h6
      all_goals obtain rfl := Except.ok.inj h
      · obtain rfl : op = 1#3 := h1
        exact encode_byUnit u rfl rfl
      · obtain rfl : op = 3#3 := h3
        exact encode_byUnit u rfl rfl
      · obtain rfl : op = 4#3 := h4
        exact encode_byUnit u rfl rfl
      · obtain rfl : op = 5#3 := h5
        exact encode_byUnit u rfl rfl
      · obtain rfl : op = 6#3 := h6
        exact encode_byUnit u rfl rfl
      · obtain rfl : op = 7#3 := by simp only at *; bv_omega
        exact encode_byUnit u rfl rfl

theorem decode_eq_ok_iff {w : Word} {i : Instr} : decode w = .ok i ↔ w = encode i := by
  refine ⟨fun h => ?_, fun h => h ▸ decode_encode i⟩
  rw [encode_of_decodeFields h, cWord_cFormatOf]

/-- Settles O1: decoding reads the fields that encoding writes, and legal fields are those of one command. -/
theorem decodeEncodeAgree : Obligations.DecodeEncodeAgree := by
  unfold Obligations.DecodeEncodeAgree
  exact ⟨fun i _ => decode_encode i, fun w i h => (decode_eq_ok_iff.1 h).symm⟩

section opcodeMap

variable {v w : Word} {i j : Instr}

theorem extract_append_extract (w : Word) : w.extractLsb' 8 8 ++ w.extractLsb' 0 8 = w :=
  (extract_cut w 0 8 8).symm.trans (extract_whole w)

/-- The mask of a push row keeps `OP`, `U` and `Z` (R49). -/
theorem and_pushMask (w : Word) : w &&& 0xFF00#16 = w.extractLsb' 8 8 ++ 0#8 := by
  calc w &&& 0xFF00#16
    _ = (w.extractLsb' 8 8 ++ w.extractLsb' 0 8) &&& (BitVec.allOnes 8 ++ 0#8) := by rw [extract_append_extract]; rfl
    _ = w.extractLsb' 8 8 ++ 0#8 := by rw [BitVec.and_append, BitVec.and_allOnes, BitVec.and_zero]

/-- A push row of the map: the high byte is fixed and the low byte is the operand. -/
theorem push_row_iff (high data : Byte) :
    (w &&& 0xFF00#16 = high ++ 0#8 ∧ w.extractLsb' 0 8 = data) ↔ w = high ++ data := by
  rw [and_pushMask, BitVec.append_left_inj]
  constructor
  · rintro ⟨rfl, rfl⟩
    exact (extract_append_extract w).symm
  · rintro rfl
    exact ⟨BitVec.extractLsb'_append_eq_left, BitVec.extractLsb'_append_eq_right⟩

theorem encode_epush (b : Byte) : encode (.epush b) = 0x40#8 ++ b := cat_eq_append (0x40#8) b
theorem encode_dpush (c : Byte) : encode (.dpush c) = 0x50#8 ++ c := cat_eq_append (0x50#8) c

/-- A row with no operand matches its one word. -/
theorem fullMask_row_iff (hmask : maskOf i = BitVec.allOnes 16) (hmatch : matchOf i = encode i) :
    w &&& maskOf i = matchOf i ↔ w = encode i := by
  rw [hmask, hmatch, BitVec.and_allOnes]

/-- A row and an operand make up the word of their command (R49). -/
theorem row_and_operand_iff :
    (w &&& maskOf i = matchOf i ∧ ∀ b, operandOf i = some b → w.extractLsb' 0 8 = b) ↔ w = encode i := by
  cases i with
  | epush b => simpa [operandOf, encode_epush, maskOf, matchOf] using push_row_iff 0x40#8 b
  | dpush c => simpa [operandOf, encode_dpush, maskOf, matchOf] using push_row_iff 0x50#8 c
  | eclr | dclr | enc | dec | epop | dpop | estat | dstat | eolen | dolen | eilen | dilen =>
    exact (and_iff_left nofun).trans (fullMask_row_iff (by decide) (by decide))

/-- A word that matches a row is the word of a command of that row, with `DATA` for the operand. -/
theorem exists_encode_of_row (h : w &&& maskOf i = matchOf i) : ∃ j, matchOf j = matchOf i ∧ w = encode j := by
  cases i with
  | epush b => exact ⟨.epush (w.extractLsb' 0 8), rfl, row_and_operand_iff.1 ⟨h, fun _ => Option.some.inj⟩⟩
  | dpush c => exact ⟨.dpush (w.extractLsb' 0 8), rfl, row_and_operand_iff.1 ⟨h, fun _ => Option.some.inj⟩⟩
  | eclr | dclr | enc | dec | epop | dpop | estat | dstat | eolen | dolen | eilen | dilen =>
    exact ⟨_, rfl, row_and_operand_iff.1 ⟨h, nofun⟩⟩

theorem encode_injective (h : encode i = encode j) : i = j :=
  Except.ok.inj ((decode_encode i).symm.trans (decode_eq_ok_iff.2 h))

open Machine (CommandKind UnitId kindOf unitOf)

/-- The `OP` column of R49. -/
def opOf : CommandKind → BitVec 3
  | .clear => 1#3
  | .push => 2#3
  | .run => 3#3
  | .pop => 4#3
  | .status => 5#3
  | .outLength => 6#3
  | .inLength => 7#3

/-- The `U` column of R49. -/
def unitBit : UnitId → BitVec 1
  | .e => 0#1
  | .d => 1#1

theorem opOf_inj {k l : CommandKind} : opOf k = opOf l ↔ k = l := by
  cases k <;> cases l <;> decide

theorem unitBit_inj {a b : UnitId} : unitBit a = unitBit b ↔ a = b := by
  cases a <;> cases b <;> decide

theorem extract_encode (i : Instr) : (encode i).extractLsb' 12 4 = opOf (kindOf i) ++ unitBit (unitOf i) := by
  cases i with
  | epush b | dpush b =>
    simp only [encode, cWord, kindOf, unitOf]
    rw [extract_cat_high _ _ _ _ (by decide) (by decide)]
    decide
  | eclr | dclr | enc | dec | epop | dpop | estat | dstat | eolen | dolen | eilen | dilen => rfl

theorem op_append_unit_inj {k l : CommandKind} {a b : UnitId} :
    opOf k ++ unitBit a = opOf l ++ unitBit b ↔ k = l ∧ a = b := by
  constructor
  · intro h
    have hop := congrArg (BitVec.extractLsb' 1 3) h
    have hunit := congrArg (BitVec.extractLsb' 0 1) h
    rw [BitVec.extractLsb'_append_eq_left, BitVec.extractLsb'_append_eq_left] at hop
    rw [BitVec.extractLsb'_append_eq_right, BitVec.extractLsb'_append_eq_right] at hunit
    exact ⟨opOf_inj.1 hop, unitBit_inj.1 hunit⟩
  · rintro ⟨rfl, rfl⟩
    rfl

end opcodeMap

/-- Settles O2: a row with an operand is the word of one command, and a word is the word of at most one command. -/
theorem decodeFollowsOpcodeMap : Obligations.DecodeFollowsOpcodeMap := by
  unfold Obligations.DecodeFollowsOpcodeMap
  refine ⟨fun w i => decode_eq_ok_iff.trans row_and_operand_iff.symm, fun w i j hi hj => ?_, fun w => ⟨?_, fun hnone => ?_⟩,
    fun v w i j hi hj => ?_⟩
  · obtain ⟨i', hrow, hw⟩ := exists_encode_of_row hi
    obtain ⟨j', hrow', hw'⟩ := exists_encode_of_row hj
    obtain rfl := encode_injective (hw.symm.trans hw')
    rw [← hrow, hrow']
  · rintro ⟨e, he⟩ i hi
    obtain ⟨j, -, hw⟩ := exists_encode_of_row hi
    simp [decode_eq_ok_iff.2 hw] at he
  · cases hdecode : decode w with
    | error e => exact ⟨e, rfl⟩
    | ok i => exact absurd (row_and_operand_iff.2 (decode_eq_ok_iff.1 hdecode)).1 (hnone i)
  · rw [decode_eq_ok_iff.1 hi, decode_eq_ok_iff.1 hj, extract_encode, extract_encode]
    exact op_append_unit_inj

/-- Settles O4: each legal word is the word of its command, and each illegal one breaks the clause of R50 that is named. -/
theorem sampleWordsDecode : Obligations.SampleWordsDecode := by
  unfold Obligations.SampleWordsDecode
  simp only [decode_eq_ok_iff]
  decide

end Sys2Proof
end

section
/-! PROOFS. The tables `ALPHA` and `DTAB` (30_encoding.md R52 to R54) and the padding bits (42_decoder.md R94). -/

namespace Sys2Proof.Machine

section tables

variable {c : Byte}

@[simp] theorem dtabInv_alpha (v : Sextet) : dtabInv (alpha v) = false := by revert v; decide
@[simp] theorem dtabVal_alpha (v : Sextet) : dtabVal (alpha v) = v := by revert v; decide
@[simp] theorem dtabInv_padch : dtabInv padch = true := by decide

theorem alpha_dtabVal (h : dtabInv c = false) : alpha (dtabVal c) = c := by
  revert c; decide

theorem dtab_of_invalid (h : dtabInv c = true) : dtab c = 0x40#7 ∧ dtabVal c = 0#6 := by
  revert c; decide

theorem ne_padch_of_valid (h : dtabInv c = false) : c ≠ padch := by
  rintro rfl
  simp at h

end tables

section padBits

theorem extract_low_eq_zero_iff {w : Nat} (v : BitVec w) (k : Nat) : v.extractLsb' 0 k = 0#k ↔ v.toNat % 2 ^ k = 0 := by
  rw [← BitVec.toNat_inj, BitVec.extractLsb'_toNat]
  simp

/-- The padding-bit test as R94 says it in numbers. -/
theorem padBitsNonzero_iff (p : Nat) (v : Sextet) :
    padBitsNonzero p v = true ↔ (p = 1 ∧ v.toNat % 4 ≠ 0) ∨ (p = 2 ∧ v.toNat % 16 ≠ 0) := by
  simp [padBitsNonzero, extract_low_eq_zero_iff]

@[simp] theorem padBitsNonzero_zero (v : Sextet) : padBitsNonzero 0 v = false := rfl

end padBits

/-- Settles O34: the closed form is checked at each value; `DTAB` undoes `ALPHA`, so its entries are distinct. -/
theorem alphabetRom : Obligations.AlphabetRom := by
  unfold Obligations.AlphabetRom
  refine ⟨by decide, fun v w h => ?_, by decide⟩
  rw [← dtabVal_alpha v, h, dtabVal_alpha]

/-- Settles O35: a valid entry gives its character back through `ALPHA`, so what is no character of the Alphabet has no valid entry. -/
theorem decodingTableInvertsAlphabet : Obligations.DecodingTableInvertsAlphabet := by
  unfold Obligations.DecodingTableInvertsAlphabet
  refine ⟨fun v => ⟨dtabInv_alpha v, dtabVal_alpha v⟩, fun c hc => ?_, by decide⟩
  have hinv : dtabInv c = true := by
    by_contra hvalid
    exact hc (dtabVal c) (alpha_dtabVal (by simpa using hvalid))
  obtain ⟨hentry, hval⟩ := dtab_of_invalid hinv
  exact ⟨hentry, hinv, hval⟩

/-- Settles O37: the test asks for the sextet modulo 4 and modulo 16. -/
theorem legalLastSextets : Obligations.LegalLastSextets := by
  unfold Obligations.LegalLastSextets
  intro v
  have hv : v.toNat < 64 := v.isLt
  refine ⟨rfl, ?_, ?_⟩
  · rw [← Bool.not_eq_true, padBitsNonzero_iff]
    omega
  · rw [← Bool.not_eq_true, padBitsNonzero_iff]
    omega

end Sys2Proof.Machine
end

section
/-! PROOFS. The order of the checks of `decode` (42_decoder.md R91 to R94), and the valid encoded texts (30_encoding.md R57). -/

namespace Sys2Proof.Machine

theorem trailingPads_le_length (t : List Byte) : trailingPads t ≤ t.length := by
  unfold trailingPads
  simpa using (List.takeWhile_sublist fun c => c == padch).length_le (l₂ := t.reverse)

/-- `decode`, with the padding count as R92 says it and the empty text in no case of its own. -/
theorem base64Decode_eq (t : List Byte) :
    base64Decode t =
      if t.length % 4 ≠ 0 then .error .length
      else if 2 < trailingPads t then .error .padding
      else if (t.take (t.length - trailingPads t)).any dtabInv then .error .char
      else if padBitsNonzero (trailingPads t) (dtabVal (charAt t (t.length - trailingPads t - 1))) then .error .padBits
      else .ok (reassembled (t.take (t.length - trailingPads t)) (3 * (t.length / 4) - trailingPads t)) := by
  by_cases hempty : t.length = 0
  · obtain rfl := List.eq_nil_of_length_eq_zero hempty
    rfl
  by_cases hquanta : t.length % 4 = 0
  · rw [base64Decode, countPadding_eq (by omega)]
    by_cases hpads : trailingPads t ≤ 2
    · simp [hempty, hquanta, hpads, hpads.not_gt]
    · simp [hempty, hquanta, hpads, not_le.1 hpads]
  · simp [base64Decode, hempty, hquanta]

/-- The test of step 5 as R57 and R94 say it of the text. -/
theorem padBits_of_text (t : List Byte) :
    padBitsNonzero (trailingPads t) (dtabVal (charAt t (t.length - trailingPads t - 1))) = true ↔
      (trailingPads t = 1 ∧ (dtabVal (charAt t (t.length - 2))).toNat % 4 ≠ 0) ∨
      (trailingPads t = 2 ∧ (dtabVal (charAt t (t.length - 3))).toNat % 16 ≠ 0) := by
  rw [padBitsNonzero_iff, Nat.sub_sub]
  refine or_congr (and_congr_right fun h => ?_) (and_congr_right fun h => ?_) <;> rw [h]

/-- Settles O46: `decode` is one chain of tests, so each kind is answered when its test fails and those before it pass. -/
theorem decodeFailureOrder : Obligations.DecodeFailureOrder := by
  unfold Obligations.DecodeFailureOrder
  intro t
  have hchars : (t.take (t.length - trailingPads t)).any dtabInv = true ↔
      ∃ c ∈ t.take (t.length - trailingPads t), dtabInv c = true := List.any_eq_true
  have hvalid : (∀ c ∈ t.take (t.length - trailingPads t), dtabInv c = false) ↔
      ¬(t.take (t.length - trailingPads t)).any dtabInv = true := by simp
  rw [base64Decode_eq, hvalid, ← hchars, ← padBits_of_text, Nat.lt_iff_add_one_le.symm, ← not_lt]
  split_ifs with hquanta hpads hchar hbits <;> simp_all

/-- R57 in the terms of the chain of tests. -/
theorem validText_iff (t : List Byte) :
    ValidText t ↔ t.length % 4 = 0 ∧ trailingPads t ≤ 2 ∧ (∀ c ∈ t.take (t.length - trailingPads t), dtabInv c = false) ∧
      ¬padBitsNonzero (trailingPads t) (dtabVal (charAt t (t.length - trailingPads t - 1))) = true := by
  rw [padBits_of_text]
  constructor
  · rintro ⟨hquanta, hpads, -, hchars, hone, htwo⟩
    exact ⟨hquanta, hpads, hchars, by tauto⟩
  · rintro ⟨hquanta, hpads, hchars, hbits⟩
    exact ⟨hquanta, hpads, by omega, hchars, by tauto, by tauto⟩

/-- A text is valid clause by clause exactly when `decode` accepts it (R57, R102). -/
theorem validText_iff_decode (t : List Byte) : ValidText t ↔ ∃ b, base64Decode t = .ok b := by
  have hchars : (∀ c ∈ t.take (t.length - trailingPads t), dtabInv c = false) ↔
      ¬(t.take (t.length - trailingPads t)).any dtabInv = true := by simp
  rw [validText_iff, base64Decode_eq, hchars]
  split_ifs with hquanta hpads hchar hbits
  · simp [hquanta]
  · simp [hpads.not_ge]
  · simp [hchar]
  · simp [hbits]
  · simp [not_not.1 hquanta, not_lt.1 hpads, hchar, hbits]

end Sys2Proof.Machine
end

section
/-! PROOFS. Step 6 of `decode` on the pieces of a text, and decoding quantum by quantum (42_decoder.md R95, R101). -/

namespace Sys2Proof

theorem toNat_append_eq {m n : Nat} (a : BitVec m) (b : BitVec n) : (a ++ b).toNat = a.toNat * 2 ^ n + b.toNat := by
  rw [← cat_eq_append, toNat_cat]

namespace Machine

section sextetString

theorem foldl_sextets (w : Nat) (t : List Byte) :
    t.foldl (fun w c => w * 64 + (dtabVal c).toNat) w = w * 64 ^ t.length + sextetString t := by
  unfold sextetString
  induction t generalizing w with
  | nil => simp
  | cons c t ih =>
    rw [List.foldl_cons, List.foldl_cons, ih, ih (0 * 64 + _), List.length_cons]
    ring

theorem sextetString_append (s t : List Byte) : sextetString (s ++ t) = sextetString s * 64 ^ t.length + sextetString t := by
  rw [← foldl_sextets, sextetString, List.foldl_append]
  rfl

theorem sextetString_lt (t : List Byte) : sextetString t < 2 ^ (6 * t.length) := by
  induction t using List.reverseRecOn with
  | nil => decide
  | append_singleton t c ih =>
    have hc : sextetString [c] < 64 := by simpa [sextetString] using (dtabVal c).isLt
    rw [sextetString_append, List.length_append, Nat.mul_add, Nat.pow_add]
    simp only [List.length_singleton, pow_one]
    omega

/-- The bits of a string of sextets, and those of the sextets after it. -/
theorem sextetString_append_bits (s t : List Byte) :
    sextetString (s ++ t) = sextetString s * 2 ^ (6 * t.length) + sextetString t := by
  rw [sextetString_append, Nat.pow_mul]

end sextetString

section reassembled

variable {s t : List Byte} {k l : Nat}

/-- Sextets behind them do not change the bytes that a string of sextets fills (R101). -/
theorem reassembled_append_of_le (hl : 8 * l ≤ 6 * s.length) : reassembled (s ++ t) l = reassembled s l := by
  refine List.map_congr_left fun j hj => congrArg _ ?_
  have hj : j < l := List.mem_range.1 hj
  have hshift : 6 * (s ++ t).length - 8 - 8 * j = 6 * t.length + (6 * s.length - 8 - 8 * j) := by
    rw [List.length_append]
    omega
  rw [hshift, Nat.shiftRight_add, sextetString_append_bits, Nat.shiftRight_eq_div_pow _ (6 * t.length), Nat.mul_comm,
    Nat.mul_add_div (by positivity), Nat.div_eq_of_lt (sextetString_lt t), Nat.add_zero]

/-- Whole bytes of sextets in front do not change the bytes behind them (R101). -/
theorem reassembled_append (hk : 8 * k = 6 * s.length) (hl : 8 * l ≤ 6 * t.length) :
    reassembled (s ++ t) (k + l) = reassembled s k ++ reassembled t l := by
  rw [reassembled, List.range_add, List.map_append, List.map_map]
  refine congrArg₂ _ (reassembled_append_of_le hk.le) (List.map_congr_left fun j hj => ?_)
  have hj : j < l := List.mem_range.1 hj
  have hshift : 6 * (s ++ t).length - 8 - 8 * (k + j) = 6 * t.length - 8 - 8 * j := by
    rw [List.length_append]
    omega
  have hsplit : 6 * t.length = (6 * t.length - 8 - 8 * j) + (8 + 8 * j) := by omega
  rw [Function.comp_apply, hshift, sextetString_append_bits]
  generalize 6 * t.length - 8 - 8 * j = e at hsplit
  apply BitVec.eq_of_toNat_eq
  rw [BitVec.toNat_ofNat, BitVec.toNat_ofNat, hsplit, Nat.shiftRight_eq_div_pow, Nat.shiftRight_eq_div_pow, pow_add, pow_add,
    show sextetString s * (2 ^ e * (2 ^ 8 * 2 ^ (8 * j))) = 2 ^ e * (sextetString s * 2 ^ (8 * j) * 2 ^ 8) by ring,
    Nat.mul_add_div (by positivity), Nat.mul_add_mod_self_right]

theorem take_reassembled (h : l ≤ k) : (reassembled t k).take l = reassembled t l := by
  rw [reassembled, ← List.map_take, List.take_range, Nat.min_eq_left h, reassembled]

end reassembled

section quantum

variable {c0 c1 c2 c3 : Byte}

/-- The three bytes of the group of four sextets (R55). -/
def groupBytes (v0 v1 v2 v3 : Sextet) : List Byte :=
  [v0 ++ v1.extractLsb' 4 2, v1.extractLsb' 0 4 ++ v2.extractLsb' 2 4, v2.extractLsb' 0 2 ++ v3]

theorem reassembled_quantum (c0 c1 c2 c3 : Byte) :
    reassembled [c0, c1, c2, c3] 3 = groupBytes (dtabVal c0) (dtabVal c1) (dtabVal c2) (dtabVal c3) := by
  have h0 := (dtabVal c0).isLt
  have h1 := (dtabVal c1).isLt
  have h2 := (dtabVal c2).isLt
  have h3 := (dtabVal c3).isLt
  simp only [reassembled, groupBytes, sextetString, List.range_succ, List.range_zero, List.nil_append, List.cons_append, List.map_cons,
    List.map_nil, List.foldl_cons, List.foldl_nil, List.length_cons, List.length_nil, List.cons.injEq, and_true,
    ← BitVec.toNat_inj, BitVec.toNat_ofNat, toNat_append_eq, BitVec.extractLsb'_toNat, Nat.shiftRight_eq_div_pow]
  omega

/-- A last quantum with one `=` fills two bytes. -/
theorem reassembled_of_three (c0 c1 c2 : Byte) :
    reassembled [c0, c1, c2] 2 = (groupBytes (dtabVal c0) (dtabVal c1) (dtabVal c2) 0#6).take 2 := by
  calc reassembled [c0, c1, c2] 2
    _ = reassembled ([c0, c1, c2] ++ [c0]) 2 := (reassembled_append_of_le (by simp)).symm
    _ = (reassembled [c0, c1, c2, c0] 3).take 2 := (take_reassembled (by decide)).symm
    _ = _ := by rw [reassembled_quantum]; rfl

/-- A last quantum with two `=` fills one byte. -/
theorem reassembled_of_two (c0 c1 : Byte) :
    reassembled [c0, c1] 1 = (groupBytes (dtabVal c0) (dtabVal c1) 0#6 0#6).take 1 := by
  calc reassembled [c0, c1] 1
    _ = reassembled ([c0, c1] ++ [c0, c0]) 1 := (reassembled_append_of_le (by simp)).symm
    _ = (reassembled [c0, c1, c0, c0] 3).take 1 := (take_reassembled (by decide)).symm
    _ = _ := by rw [reassembled_quantum]; rfl

/-- A quantum in front does not move the last significant character away from the test of step 5 (R94). -/
theorem padBits_quantum {rest : List Byte} (hquanta : rest.length % 4 = 0) (hpads : trailingPads rest ≤ 2) :
    padBitsNonzero (trailingPads rest) (dtabVal (charAt (c0 :: c1 :: c2 :: c3 :: rest) (rest.length + 4 - trailingPads rest - 1))) =
      padBitsNonzero (trailingPads rest) (dtabVal (charAt rest (rest.length - trailingPads rest - 1))) := by
  have hle := trailingPads_le_length rest
  by_cases hnone : trailingPads rest = 0
  · rw [hnone, padBitsNonzero_zero, padBitsNonzero_zero]
  · rw [show rest.length + 4 - trailingPads rest - 1 = rest.length - trailingPads rest - 1 + 4 by omega]
    rfl

/-- A full quantum of valid characters leaves the checks of the rest as they are, and puts its three bytes in front (R101). -/
theorem base64Decode_quantum (h0 : dtabInv c0 = false) (h1 : dtabInv c1 = false) (h2 : dtabInv c2 = false) (h3 : dtabInv c3 = false)
    (rest : List Byte) :
    base64Decode (c0 :: c1 :: c2 :: c3 :: rest) =
      (base64Decode rest).map (groupBytes (dtabVal c0) (dtabVal c1) (dtabVal c2) (dtabVal c3) ++ ·) := by
  have hpads : trailingPads (c0 :: c1 :: c2 :: c3 :: rest) = trailingPads rest :=
    trailingPads_append_of_unpadded (s := [c0, c1, c2, c3]) rest (by simp [trailingPads, ne_padch_of_valid h3])
  have hle := trailingPads_le_length rest
  have hlen : (c0 :: c1 :: c2 :: c3 :: rest).length = rest.length + 4 := rfl
  have htake : (c0 :: c1 :: c2 :: c3 :: rest).take (rest.length + 4 - trailingPads rest) =
      [c0, c1, c2, c3] ++ rest.take (rest.length - trailingPads rest) := by
    rw [Nat.sub_add_comm hle]
    rfl
  have hany : ([c0, c1, c2, c3] ++ rest.take (rest.length - trailingPads rest)).any dtabInv =
      (rest.take (rest.length - trailingPads rest)).any dtabInv := by simp [h0, h1, h2, h3]
  rw [base64Decode_eq, base64Decode_eq, hpads, hlen, htake, hany, Nat.add_mod_right]
  by_cases hquanta : rest.length % 4 = 0
  · by_cases htwo : trailingPads rest ≤ 2
    · have hbytes : reassembled ([c0, c1, c2, c3] ++ rest.take (rest.length - trailingPads rest))
          (3 * ((rest.length + 4) / 4) - trailingPads rest) =
          groupBytes (dtabVal c0) (dtabVal c1) (dtabVal c2) (dtabVal c3) ++
            reassembled (rest.take (rest.length - trailingPads rest)) (3 * (rest.length / 4) - trailingPads rest) := by
        rw [← reassembled_quantum, ← reassembled_append (by simp) (by rw [List.length_take]; omega)]
        congr 1
        omega
      rw [padBits_quantum hquanta htwo, hbytes]
      simp only [hquanta, htwo.not_gt, ne_eq, not_true_eq_false, if_false, apply_ite (Except.map _)]
      rfl
    · simp [hquanta, not_le.1 htwo, Except.map]
  · simp [hquanta, Except.map]

/-- A last quantum with one `=` (R101). -/
theorem base64Decode_lastOne (h0 : dtabInv c0 = false) (h1 : dtabInv c1 = false) (h2 : dtabInv c2 = false)
    (hbits : (dtabVal c2).extractLsb' 0 2 = 0#2) :
    base64Decode [c0, c1, c2, padch] = .ok ((groupBytes (dtabVal c0) (dtabVal c1) (dtabVal c2) 0#6).take 2) := by
  have hpads : trailingPads [c0, c1, c2, padch] = 1 := by simp [trailingPads, ne_padch_of_valid h2]
  have hzero : padBitsNonzero 1 (dtabVal c2) = false := by simp [padBitsNonzero, hbits]
  rw [base64Decode_eq, hpads, ← reassembled_of_three]
  simp [h0, h1, h2, charAt, hzero]

/-- A last quantum with two `=` (R101). -/
theorem base64Decode_lastTwo (h0 : dtabInv c0 = false) (h1 : dtabInv c1 = false) (hbits : (dtabVal c1).extractLsb' 0 4 = 0#4) :
    base64Decode [c0, c1, padch, padch] = .ok ((groupBytes (dtabVal c0) (dtabVal c1) 0#6 0#6).take 1) := by
  have hpads : trailingPads [c0, c1, padch, padch] = 2 := by simp [trailingPads, ne_padch_of_valid h1]
  have hzero : padBitsNonzero 2 (dtabVal c1) = false := by simp [padBitsNonzero, hbits]
  rw [base64Decode_eq, hpads, ← reassembled_of_two]
  simp [h0, h1, charAt, hzero]

end quantum

/-- Settles O48: the tests of a text are those of its rest, and its bytes are those of the first quantum and of the rest. -/
theorem decodeQuantumByQuantum : Obligations.DecodeQuantumByQuantum := by
  unfold Obligations.DecodeQuantumByQuantum
  refine ⟨fun c0 c1 c2 c3 rest out h0 h1 h2 h3 hrest => ?_, fun c0 c1 c2 => base64Decode_lastOne, fun c0 c1 => base64Decode_lastTwo⟩
  rw [base64Decode_quantum h0 h1 h2 h3, hrest]
  rfl

end Machine
end Sys2Proof
end

section
/-! PROOFS. `encode` by groups, that `decode` undoes it, and that `decode` accepts nothing else (42_decoder.md R100 to R102). -/

namespace Sys2Proof.Machine

section encode

variable (b0 b1 b2 : Byte)

/-- The text of a full chunk through its group (R77 to R79). -/
theorem base64Encode_chunk (rest : List Byte) :
    base64Encode (b0 :: b1 :: b2 :: rest) =
      [alpha (sextet0 (pack3 b0 b1 b2)), alpha (sextet1 (pack3 b0 b1 b2)), alpha (sextet2 (pack3 b0 b1 b2)),
        alpha (sextet3 (pack3 b0 b1 b2))] ++ base64Encode rest := by
  obtain ⟨h0, h1, h2, h3⟩ := sextets_of_bytes (pack3 b0 b1 b2)
  rw [h0, h1, h2, h3, extract_pack3_b0, extract_pack3_b1, extract_pack3_b2, ← cat_eq_append, ← cat_eq_append]
  rfl

/-- The text of a last chunk of two bytes through its group, the third byte taken as zero (R56, R82). -/
theorem base64Encode_two :
    base64Encode [b0, b1] = [alpha (sextet0 (pack3 b0 b1 0#8)), alpha (sextet1 (pack3 b0 b1 0#8)), alpha (sextet2 (pack3 b0 b1 0#8)),
      padch] := by
  obtain ⟨h0, h1, h2, -⟩ := sextets_of_bytes (pack3 b0 b1 0#8)
  rw [h0, h1, h2, extract_pack3_b0, extract_pack3_b1, extract_pack3_b2, ← cat_eq_append, ← cat_eq_append]
  rfl

/-- The text of a last chunk of one byte through its group, the other bytes taken as zero (R56, R81). -/
theorem base64Encode_one :
    base64Encode [b0] = [alpha (sextet0 (pack3 b0 0#8 0#8)), alpha (sextet1 (pack3 b0 0#8 0#8)), padch, padch] := by
  obtain ⟨h0, h1, -, -⟩ := sextets_of_bytes (pack3 b0 0#8 0#8)
  rw [h0, h1, extract_pack3_b0, extract_pack3_b1, ← cat_eq_append]
  rfl

/-- The bytes of the sextets of a group are its bytes (R55). -/
theorem groupBytes_sextets :
    groupBytes (sextet0 (pack3 b0 b1 b2)) (sextet1 (pack3 b0 b1 b2)) (sextet2 (pack3 b0 b1 b2)) (sextet3 (pack3 b0 b1 b2)) =
      [b0, b1, b2] := by
  obtain ⟨h0, h1, h2⟩ := bytes_of_sextets (pack3 b0 b1 b2)
  rw [groupBytes, ← h0, ← h1, ← h2, extract_pack3_b0, extract_pack3_b1, extract_pack3_b2]

/-- With a third byte of zero the last sextet is zero, and so are the padding bits of the one before it (R56, R94). -/
theorem pack3_zero_bits : (sextet2 (pack3 b0 b1 0#8)).extractLsb' 0 2 = 0#2 ∧ sextet3 (pack3 b0 b1 0#8) = 0#6 := by
  obtain ⟨-, -, -, h3⟩ := sextets_of_bytes (pack3 b0 b1 0#8)
  obtain ⟨-, -, h2⟩ := bytes_of_sextets (pack3 b0 b1 0#8)
  rw [extract_pack3_b2] at h2 h3
  have hbits := congrArg (BitVec.extractLsb' 6 2) h2
  rw [BitVec.extractLsb'_append_eq_left] at hbits
  exact ⟨hbits.symm, h3⟩

/-- With two last bytes of zero the last two sextets are zero, and so are the padding bits of the one before them (R56, R94). -/
theorem pack3_zero_zero_bits :
    (sextet1 (pack3 b0 0#8 0#8)).extractLsb' 0 4 = 0#4 ∧ sextet2 (pack3 b0 0#8 0#8) = 0#6 ∧ sextet3 (pack3 b0 0#8 0#8) = 0#6 := by
  obtain ⟨-, -, h2, h3⟩ := sextets_of_bytes (pack3 b0 0#8 0#8)
  obtain ⟨-, h1, -⟩ := bytes_of_sextets (pack3 b0 0#8 0#8)
  rw [extract_pack3_b1] at h1 h2
  rw [extract_pack3_b2] at h2 h3
  have hbits := congrArg (BitVec.extractLsb' 4 4) h1
  rw [BitVec.extractLsb'_append_eq_left] at hbits
  exact ⟨hbits.symm, h2, h3⟩

end encode

/-- `decode` undoes `encode` (R100), chunk by chunk. -/
theorem base64Decode_base64Encode (b : List Byte) : base64Decode (base64Encode b) = .ok b := by
  induction b using base64Encode.induct with
  | case1 => rfl
  | case2 b0 =>
    obtain ⟨hbits, hs2, hs3⟩ := pack3_zero_zero_bits b0
    have hbytes := groupBytes_sextets b0 0#8 0#8
    rw [hs2, hs3] at hbytes
    rw [base64Encode_one, base64Decode_lastTwo (dtabInv_alpha _) (dtabInv_alpha _) (by rw [dtabVal_alpha, hbits]), dtabVal_alpha,
      dtabVal_alpha, hbytes]
    rfl
  | case3 b0 b1 =>
    obtain ⟨hbits, hs3⟩ := pack3_zero_bits b0 b1
    have hbytes := groupBytes_sextets b0 b1 0#8
    rw [hs3] at hbytes
    rw [base64Encode_two, base64Decode_lastOne (dtabInv_alpha _) (dtabInv_alpha _) (dtabInv_alpha _) (by rw [dtabVal_alpha, hbits]),
      dtabVal_alpha, dtabVal_alpha, dtabVal_alpha, hbytes]
    rfl
  | case4 b0 b1 b2 rest ih =>
    rw [base64Encode_chunk, List.cons_append, List.cons_append, List.cons_append, List.cons_append, List.nil_append,
      base64Decode_quantum (dtabInv_alpha _) (dtabInv_alpha _) (dtabInv_alpha _) (dtabInv_alpha _), ih]
    simp only [dtabVal_alpha, groupBytes_sextets]
    rfl

section accepted

variable {v0 v1 v2 v3 : Sextet}

/-- The sextets of the bytes of four sextets are those sextets (R55). -/
theorem sextets_of_groupBytes {b0 b1 b2 : Byte} (h : groupBytes v0 v1 v2 v3 = [b0, b1, b2]) :
    sextet0 (pack3 b0 b1 b2) = v0 ∧ sextet1 (pack3 b0 b1 b2) = v1 ∧ sextet2 (pack3 b0 b1 b2) = v2 ∧ sextet3 (pack3 b0 b1 b2) = v3 := by
  simp only [groupBytes, List.cons.injEq, and_true] at h
  obtain ⟨rfl, rfl, rfl⟩ := h
  obtain ⟨h0, h1, h2, h3⟩ := sextets_of_bytes (pack3 (v0 ++ v1.extractLsb' 4 2) (v1.extractLsb' 0 4 ++ v2.extractLsb' 2 4)
    (v2.extractLsb' 0 2 ++ v3))
  rw [extract_pack3_b0] at h0 h1
  rw [extract_pack3_b1] at h1 h2
  rw [extract_pack3_b2] at h2 h3
  rw [BitVec.extractLsb'_append_eq_left] at h0
  rw [BitVec.extractLsb'_append_eq_right, BitVec.extractLsb'_append_eq_left, ← extract_cut v1 0 2 4] at h1
  rw [BitVec.extractLsb'_append_eq_right, BitVec.extractLsb'_append_eq_left, ← extract_cut v2 0 4 2] at h2
  rw [BitVec.extractLsb'_append_eq_right] at h3
  exact ⟨h0, h1.trans (extract_whole v1), h2.trans (extract_whole v2), h3⟩

variable {c0 c1 c2 c3 : Byte} {rest out : List Byte}

/-- The text of the bytes of a full quantum is that quantum (R102). -/
theorem base64Encode_groupBytes (h0 : dtabInv c0 = false) (h1 : dtabInv c1 = false) (h2 : dtabInv c2 = false)
    (h3 : dtabInv c3 = false) :
    base64Encode (groupBytes (dtabVal c0) (dtabVal c1) (dtabVal c2) (dtabVal c3) ++ out) = [c0, c1, c2, c3] ++ base64Encode out := by
  obtain ⟨hs0, hs1, hs2, hs3⟩ := sextets_of_groupBytes (v0 := dtabVal c0) (v1 := dtabVal c1) (v2 := dtabVal c2) (v3 := dtabVal c3) rfl
  refine (base64Encode_chunk _ _ _ out).trans ?_
  rw [hs0, hs1, hs2, hs3, alpha_dtabVal h0, alpha_dtabVal h1, alpha_dtabVal h2, alpha_dtabVal h3]

theorem base64Encode_lastOne (h0 : dtabInv c0 = false) (h1 : dtabInv c1 = false) (h2 : dtabInv c2 = false)
    (hbits : (dtabVal c2).extractLsb' 0 2 = 0#2) :
    base64Encode ((groupBytes (dtabVal c0) (dtabVal c1) (dtabVal c2) 0#6).take 2) = [c0, c1, c2, padch] := by
  have hbytes : groupBytes (dtabVal c0) (dtabVal c1) (dtabVal c2) 0#6 =
      [dtabVal c0 ++ (dtabVal c1).extractLsb' 4 2, (dtabVal c1).extractLsb' 0 4 ++ (dtabVal c2).extractLsb' 2 4, 0#8] := by
    rw [groupBytes, hbits]
    rfl
  obtain ⟨hs0, hs1, hs2, -⟩ := sextets_of_groupBytes hbytes
  refine (base64Encode_two _ _).trans ?_
  rw [hs0, hs1, hs2, alpha_dtabVal h0, alpha_dtabVal h1, alpha_dtabVal h2]

theorem base64Encode_lastTwo (h0 : dtabInv c0 = false) (h1 : dtabInv c1 = false) (hbits : (dtabVal c1).extractLsb' 0 4 = 0#4) :
    base64Encode ((groupBytes (dtabVal c0) (dtabVal c1) 0#6 0#6).take 1) = [c0, c1, padch, padch] := by
  have hbytes : groupBytes (dtabVal c0) (dtabVal c1) 0#6 0#6 = [dtabVal c0 ++ (dtabVal c1).extractLsb' 4 2, 0#8, 0#8] := by
    rw [groupBytes, hbits]
    rfl
  obtain ⟨hs0, hs1, -, -⟩ := sextets_of_groupBytes hbytes
  refine (base64Encode_one _).trans ?_
  rw [hs0, hs1, alpha_dtabVal h0, alpha_dtabVal h1]

/-- A valid text is empty, or begins with a quantum of valid characters, or is one padded quantum (R57). -/
theorem ValidText.quantum {t : List Byte} (h : ValidText t) (hempty : t ≠ []) :
    ∃ c0 c1 c2 c3 rest, t = c0 :: c1 :: c2 :: c3 :: rest ∧ dtabInv c0 = false ∧ dtabInv c1 = false ∧
      ((dtabInv c2 = false ∧ dtabInv c3 = false) ∨
        (dtabInv c2 = false ∧ (dtabVal c2).extractLsb' 0 2 = 0#2 ∧ c3 = padch ∧ rest = []) ∨
        ((dtabVal c1).extractLsb' 0 4 = 0#4 ∧ c2 = padch ∧ c3 = padch ∧ rest = [])) := by
  obtain ⟨hquanta, hpads, -, hchars, hone, htwo⟩ := h
  have hprefix (k : Nat) (hk : k + trailingPads t ≤ t.length) : ∀ c ∈ t.take k, dtabInv c = false :=
    fun c hc => hchars c (List.take_subset_take_left t (by omega) hc)
  match t, hempty, hquanta with
  | c0 :: c1 :: c2 :: c3 :: rest, _, hquanta =>
    obtain ⟨h0, h1⟩ : dtabInv c0 = false ∧ dtabInv c1 = false := by simpa using hprefix 2 (by simp only [List.length_cons]; omega)
    refine ⟨c0, c1, c2, c3, rest, rfl, h0, h1, ?_⟩
    by_cases hlast : rest = [] ∧ c3 = padch
    · obtain ⟨rfl, rfl⟩ := hlast
      by_cases htwoPads : c2 = padch
      · subst htwoPads
        have hcount : trailingPads [c0, c1, padch, padch] = 2 := by simp [trailingPads, ne_padch_of_valid h1]
        exact .inr (.inr ⟨(extract_low_eq_zero_iff _ 4).2 (htwo hcount), rfl, rfl, rfl⟩)
      · have hcount : trailingPads [c0, c1, c2, padch] = 1 := by simp [trailingPads, htwoPads]
        obtain ⟨-, -, h2⟩ : dtabInv c0 = false ∧ dtabInv c1 = false ∧ dtabInv c2 = false := by
          simpa using hprefix 3 (by rw [hcount]; rfl)
        exact .inr (.inl ⟨h2, (extract_low_eq_zero_iff _ 2).2 (hone hcount), rfl, rfl⟩)
    · have hroom : 4 + trailingPads (c0 :: c1 :: c2 :: c3 :: rest) ≤ (c0 :: c1 :: c2 :: c3 :: rest).length := by
        by_cases hrest : rest = []
        · subst hrest
          have hnone : c3 ≠ padch := fun hc => hlast ⟨rfl, hc⟩
          simp [trailingPads, hnone]
        · have hlen := List.length_pos_of_ne_nil hrest
          simp only [List.length_cons] at hquanta ⊢
          omega
      obtain ⟨-, -, h2, h3⟩ : dtabInv c0 = false ∧ dtabInv c1 = false ∧ dtabInv c2 = false ∧ dtabInv c3 = false := by
        simpa using hprefix 4 hroom
      exact .inl ⟨h2, h3⟩

/-- What `decode` accepts is the text of what it answers (R102), quantum by quantum. -/
theorem base64Encode_of_decode {t b : List Byte} (h : base64Decode t = .ok b) : t = base64Encode b := by
  have hvalid := (validText_iff_decode t).2 ⟨b, h⟩
  by_cases hempty : t = []
  · subst hempty
    obtain rfl := Except.ok.inj h
    rfl
  obtain ⟨c0, c1, c2, c3, rest, rfl, h0, h1, ⟨h2, h3⟩ | ⟨h2, hbits, rfl, rfl⟩ | ⟨hbits, rfl, rfl, rfl⟩⟩ := hvalid.quantum hempty
  · rw [base64Decode_quantum h0 h1 h2 h3] at h
    cases hrest : base64Decode rest with
    | error k => simp [hrest, Except.map] at h
    | ok out =>
      rw [hrest] at h
      obtain rfl := Except.ok.inj h
      rw [base64Encode_groupBytes h0 h1 h2 h3, ← base64Encode_of_decode hrest]
      rfl
  · rw [base64Decode_lastOne h0 h1 h2 hbits] at h
    obtain rfl := Except.ok.inj h
    exact (base64Encode_lastOne h0 h1 h2 hbits).symm
  · rw [base64Decode_lastTwo h0 h1 hbits] at h
    obtain rfl := Except.ok.inj h
    exact (base64Encode_lastTwo h0 h1 hbits).symm
termination_by t.length

end accepted

theorem base64Decode_eq_ok_iff {t b : List Byte} : base64Decode t = .ok b ↔ t = base64Encode b :=
  ⟨base64Encode_of_decode, fun h => h ▸ base64Decode_base64Encode b⟩

/-- Settles O49: `decode` and `encode` undo each other, and the tests of `decode` are the clauses of R57. -/
theorem acceptedTextsAreEncodedTexts : Obligations.AcceptedTextsAreEncodedTexts := by
  unfold Obligations.AcceptedTextsAreEncodedTexts
  refine ⟨fun t b => base64Decode_eq_ok_iff, validText_iff_decode, fun t => ?_⟩
  simp only [validText_iff_decode, base64Decode_eq_ok_iff]

theorem validText_base64Encode (b : List Byte) : ValidText (base64Encode b) :=
  (validText_iff_decode _).2 ⟨b, base64Decode_base64Encode b⟩

/-- A `=` of an encoded text is one of its trailing ones (R87), because every other character is valid. -/
theorem padch_position {b : List Byte} {i : Nat} (h : (base64Encode b)[i]? = some padch) :
    (base64Encode b).length ≤ i + trailingPads (base64Encode b) := by
  obtain ⟨-, -, -, hchars, -⟩ := validText_base64Encode b
  by_contra hlt
  have hmem : padch ∈ (base64Encode b).take ((base64Encode b).length - trailingPads (base64Encode b)) :=
    List.mem_of_getElem? ((List.getElem?_take_of_lt (by omega)).trans h)
  simpa using hchars _ hmem

/-- Settles O41: the text of a payload is accepted, so it has the form of R57. -/
theorem encodeShape : Obligations.EncodeShape := by
  unfold Obligations.EncodeShape
  refine fun b => ⟨fun c => mem_base64Encode, fun i hi => ?_, validText_base64Encode b, base64Decode_base64Encode b⟩
  obtain ⟨-, hpads, -⟩ := validText_base64Encode b
  exact (padch_position hi).trans (Nat.add_le_add_left hpads i)

/-- A whole number of chunks is encoded on its own (R77, R131). -/
theorem base64Encode_append {a : List Byte} (b : List Byte) (ha : a.length % 3 = 0) :
    base64Encode (a ++ b) = base64Encode a ++ base64Encode b := by
  induction a using base64Encode.induct with
  | case1 => rfl
  | case2 b0 => cases ha
  | case3 b0 b1 => cases ha
  | case4 b0 b1 b2 rest ih =>
    have hrest : rest.length % 3 = 0 := (Nat.add_mod_right rest.length 3).symm.trans ha
    rw [List.cons_append, List.cons_append, List.cons_append, base64Encode_chunk, base64Encode_chunk, ih hrest, List.append_assoc]

theorem getLast?_of_trailingPads {t : List Byte} (h : 0 < trailingPads t) : t.getLast? = some padch := by
  unfold trailingPads at h
  rw [← List.head?_reverse]
  cases hrev : t.reverse with
  | nil => simp [hrev] at h
  | cons c r =>
    by_cases hc : c = padch
    · rw [hc, List.head?_cons]
    · simp [hrev, hc] at h

/-- The text of a payload that is no whole number of chunks ends in `=` (R83). -/
theorem getLast?_base64Encode {a : List Byte} (ha : a.length % 3 ≠ 0) : (base64Encode a).getLast? = some padch := by
  apply getLast?_of_trailingPads
  rw [trailingPads_base64Encode]
  split_ifs <;> omega

/-- Settles O42: padding inside a text is no text, so a padded first piece joins with nothing but the empty piece. -/
theorem encodeOfPieces : Obligations.EncodeOfPieces := by
  unfold Obligations.EncodeOfPieces
  refine fun a b => ⟨fun hjoin => ?_, ?_⟩
  · by_contra! hpieces
    obtain ⟨ha, hb⟩ := hpieces
    have hlast := getLast?_base64Encode ha
    rw [List.getLast?_eq_getElem?] at hlast
    obtain ⟨hpos, -⟩ := List.getElem?_eq_some_iff.1 hlast
    have hlong : 4 ≤ (base64Encode b).length := by
      have := List.length_pos_of_ne_nil hb
      rw [length_base64Encode]
      omega
    obtain ⟨-, hpads, -⟩ := validText_base64Encode (a ++ b)
    have hposition := padch_position (b := a ++ b) (i := (base64Encode a).length - 1)
      (by rw [hjoin, List.getElem?_append_left (by omega), hlast])
    rw [hjoin, List.length_append] at hposition
    rw [hjoin] at hpads
    omega
  · rintro (ha | rfl)
    · exact base64Encode_append b ha
    · rw [List.append_nil, base64Encode, List.append_nil]

end Sys2Proof.Machine
end

section
/-! PROOFS. One step: what it does with the oldest input (20_memory.md R38, 70_reset_and_hazards.md R121), and the reset state (10_state.md
R26). -/

namespace Sys2Proof.Machine

section step

variable {s : State} {w : Word} {rest : List PortInput}

theorem step_of_empty (h : s.port = []) : step s = .next s := by
  simp [step, takeInput, h]

theorem step_of_rst (h : s.port = .rst :: rest) : step s = .next (resetUnits { s with port := rest }) := by
  simp [step, takeInput, h]

theorem step_of_command {i : Instr} (h : s.port = .command w :: rest) (hw : decode w = .ok i) :
    step s = exec i { s with port := rest } := by
  simp [step, takeInput, h, commandCycle, hw]

theorem step_of_illegal {e : Illegal} (h : s.port = .command w :: rest) (hw : decode w = .error e) :
    step s = .next (respond 0x8000#16 { s with port := rest }) := by
  simp only [step, takeInput, h]
  exact commandCycle_of_decode_error hw _

/-- What reset, a command and an answer keep, whatever is pending at the port, every step keeps. -/
theorem step_keeps {P : State → Prop} (hport : ∀ s q, P s → P { s with port := q }) (hreset : ∀ s, P s → P (resetUnits s))
    (hrespond : ∀ s r, P s → P (respond r s)) (hexec : ∀ i s t, P s → exec i s = .next t → P t) {t : State} (hs : P s)
    (h : step s = .next t) : P t := by
  match hq : s.port with
  | [] =>
    obtain rfl := Host.Outcome.next.inj ((step_of_empty hq).symm.trans h)
    exact hs
  | .rst :: rest =>
    obtain rfl := Host.Outcome.next.inj ((step_of_rst hq).symm.trans h)
    exact hreset _ (hport _ _ hs)
  | .command w :: rest =>
    cases hw : decode w with
    | ok i => exact hexec i _ t (hport _ _ hs) ((step_of_command hq hw).symm.trans h)
    | error e =>
      obtain rfl := Host.Outcome.next.inj ((step_of_illegal hq hw).symm.trans h)
      exact hrespond _ _ (hport _ _ hs)

end step

/-- Settles O5: this is what a step does with a legal word. -/
theorem stepRunsDecodedCommand : Obligations.StepRunsDecodedCommand := by
  unfold Obligations.StepRunsDecodedCommand
  exact fun s w rest i hport hw => step_of_command hport hw

/-- Settles O6: this is what a step does with an empty port. -/
theorem idlePortChangesNothing : Obligations.IdlePortChangesNothing := by
  unfold Obligations.IdlePortChangesNothing
  exact fun s => step_of_empty

/-- Settles O8: the codes are those of R18 and R19. -/
theorem statusCodes : Obligations.StatusCodes := by
  unfold Obligations.StatusCodes
  decide

theorem getRegs_reset (u : UnitId) : getRegs u State.reset = UnitRegs.reset := by cases u <;> rfl
theorem readEkind_reset (u : UnitId) : readEkind u State.reset = .none := by cases u <;> rfl

/-- Settles O9: both units have the registers of R26, with empty buffers. -/
theorem resetState : Obligations.ResetState := by
  unfold Obligations.ResetState
  refine ⟨fun u => ?_, rfl, rfl⟩
  rw [getRegs_reset]
  exact ⟨rfl, rfl, rfl, rfl, readEkind_reset u, rfl, fun i => ⟨rfl, rfl⟩⟩

/-- The registers of both units and the kinds after `ECLR` and `DCLR`. -/
theorem eclr_dclr_regs {s a b : State} (ha : exec .eclr s = .next a) (hb : exec .dclr a = .next b) (u : UnitId) :
    getRegs u b = (getRegs u s).cleared ∧ readEkind u b = .none := by
  obtain rfl := Host.Outcome.next.inj ha
  obtain rfl := Host.Outcome.next.inj hb
  cases u with
  | e => exact ⟨rfl, rfl⟩
  | d => exact ⟨rfl, rfl⟩

/-- Settles O10: `rst` gives both units the registers of R26, which agree with cleared ones in all but the buffers. -/
theorem rstEvent : Obligations.RstEvent := by
  unfold Obligations.RstEvent
  intro s rest hport
  refine ⟨_, step_of_rst hport, rfl, rfl, rfl, rfl, rfl, fun u => ?_, fun a b ha hb u => ?_⟩
  · rw [getRegs_resetUnits, readEkind_resetUnits]
    exact ⟨rfl, rfl, rfl, rfl, rfl, rfl⟩
  · obtain ⟨hregs, hkind⟩ := eclr_dclr_regs ha hb u
    rw [getRegs_resetUnits, readEkind_resetUnits, hregs, hkind]
    exact ⟨rfl, rfl, rfl, rfl, rfl, rfl⟩

/-- Settles O25: the four commands answer the length register as it is. -/
theorem lengthResult : Obligations.LengthResult := by
  unfold Obligations.LengthResult
  exact fun s => ⟨rfl, rfl, rfl, rfl⟩

end Sys2Proof.Machine
end

section
/-! PROOFS. Which commands write which registers of a unit (10_state.md R12 to R16, 20_memory.md R43). -/

namespace Sys2Proof.Machine

section registers

variable {cap : Nat} {k : CommandKind} {r r' : UnitRegs}

theorem RegsStep.ibuf_of_ne (h : RegsStep cap r k r') (hk : k ≠ .push) : r'.ibuf = r.ibuf := by
  cases h with
  | appended | dropped => exact absurd rfl hk
  | ran _ noOverflow ibuf => exact ibuf
  | cleared | refused | popped | emptyPop | status | outLength | inLength => rfl

theorem RegsStep.ilen_of_ne (h : RegsStep cap r k r') (hk : ¬(k = .push ∨ k = .clear)) : r'.ilen = r.ilen := by
  cases h with
  | appended | dropped | cleared => simp at hk
  | ran _ noOverflow ibuf ilen => exact ilen
  | refused | popped | emptyPop | status | outLength | inLength => rfl

theorem RegsStep.obuf_of_ne (h : RegsStep cap r k r') (hk : k ≠ .run) : r'.obuf = r.obuf := by
  cases h with
  | refused | ran => exact absurd rfl hk
  | cleared | appended | dropped | popped | emptyPop | status | outLength | inLength => rfl

theorem RegsStep.result_of_clear_or_push (h : RegsStep cap r k r') (hk : k = .clear ∨ k = .push) :
    r'.rptr = 0#16 ∧ r'.olen = 0#16 ∧ r'.res = .none := by
  cases h with
  | cleared | appended | dropped => exact ⟨rfl, rfl, rfl⟩
  | refused | ran | popped | emptyPop | status | outLength | inLength => simp at hk

theorem RegsStep.rptr_of_pop (h : RegsStep cap r .pop r') (hunread : r.res = .ok ∧ r.rptr < r.olen) : r'.rptr = r.rptr + 1#16 := by
  cases h with
  | popped => rfl
  | emptyPop noUnread => exact absurd hunread noUnread

/-- A pop, status or length command writes no register of the unit but `RPTR.u`, and that only when it returns a byte. -/
theorem RegsStep.kept_of_ne (h : RegsStep cap r k r') (hk : k ≠ .clear ∧ k ≠ .push ∧ k ≠ .run) :
    r' = { r with rptr := r'.rptr } ∧ (¬(k = .pop ∧ r.res = .ok ∧ r.rptr < r.olen) → r' = r) := by
  cases h with
  | popped unread => exact ⟨rfl, fun hempty => absurd ⟨rfl, unread⟩ hempty⟩
  | emptyPop | status | outLength | inLength => exact ⟨rfl, fun _ => rfl⟩
  | cleared | appended | dropped | refused | ran => simp at hk

end registers

/-- Settles O28: only a push writes `IBUF.u`, only a push and a clear write `ILEN.u`, and the other unit's registers stay. -/
theorem inputWrittenOnlyByPush : Obligations.InputWrittenOnlyByPush := by
  unfold Obligations.InputWrittenOnlyByPush
  intro i s t u hexec
  obtain ⟨own, other⟩ := exec_regsActOn hexec
  by_cases hu : unitOf i = u
  · subst hu
    exact ⟨fun hk => own.ibuf_of_ne fun h => hk ⟨h, rfl⟩, fun hk => own.ilen_of_ne fun h => hk ⟨h, rfl⟩⟩
  · rw [other u (Ne.symm hu)]
    exact ⟨fun _ => rfl, fun _ => rfl⟩

section runs

variable {p : Params} {d d' : UnitD} {n : Nat}

/-- No transition of unit D writes `RPTR.D` but a failure, which sets it to 0 (R104). -/
theorem stageD_keeps_rptr (h : stageD p d = .ok d') (hd : d.regs.rptr = 0#16) : d'.regs.rptr = 0#16 := by
  rcases stageD_ok h with ⟨-, rfl⟩ | ⟨-, h⟩ | ⟨-, rfl⟩ | ⟨-, h⟩ | ⟨-, h⟩ | ⟨-, rfl⟩ | ⟨-, rfl⟩
  · rcases checkLength_cases d with ⟨-, h⟩ | ⟨-, h⟩ | ⟨-, -, h⟩ <;> simp [h, hd]
  · obtain ⟨-, -, ⟨-, rfl⟩ | ⟨-, -, -, ⟨-, rfl⟩ | ⟨-, -, -, ⟨-, rfl⟩ | ⟨-, rfl⟩⟩⟩⟩ := discoverPadding_ok h <;> simp [hd]
  · exact hd
  · rcases scanChar_ok h with ⟨-, -, -, ⟨-, rfl⟩ | ⟨-, rfl⟩⟩ | ⟨-, hcheck⟩
    · rfl
    · exact hd
    · rcases checkPadBits_ok hcheck with rfl | rfl <;> simp [hd]
  · obtain ⟨x, hloop, rfl⟩ := reassemble_ok h
    obtain ⟨hregs, -⟩ := reassembleLoop_keeps hloop
    show x.regs.rptr = 0#16
    rw [hregs]
    exact hd
  · exact hd
  · exact hd

/-- A run leaves `RPTR.u` at 0, and `OLEN.u` too when it does not succeed (R76, R89, R104, R105). -/
theorem exec_run_outputs {i : Instr} {s t : State} (hk : kindOf i = .run) (h : exec i s = .next t) :
    (getRegs (unitOf i) t).rptr = 0#16 ∧ ((getRegs (unitOf i) t).res ≠ .ok → (getRegs (unitOf i) t).olen = 0#16) := by
  match i, hk with
  | .enc, _ =>
    rcases execEnc_next h with ⟨-, rfl⟩ | ⟨-, e, hrun, rfl⟩
    · simp [unitOf]
    · obtain ⟨-, -, hrptr, -⟩ := runE_keeps hrun
      exact ⟨hrptr, fun hres => absurd (runE_res startE_stg_ne_idle hrun) hres⟩
  | .dec, _ =>
    rcases execDec_next h with ⟨-, rfl⟩ | ⟨-, d, hrun, rfl⟩
    · simp [unitOf]
    · obtain ⟨hrptr, -⟩ := runD_induct (P := fun d => d.regs.rptr = 0#16) (fun _ _ => stageD_keeps_rptr) _ hrun rfl
      exact ⟨hrptr, fun hres => congrArg UnitRegs.olen (runD_regs_of_not_ok rfl hrun hres)⟩

end runs

/-- Settles O29: a command acts on the result registers of its own unit as its kind says; a run sets the pointer to 0. -/
theorem outputRegistersRule : Obligations.OutputRegistersRule := by
  unfold Obligations.OutputRegistersRule
  intro i s t u hexec
  obtain ⟨own, other⟩ := exec_regsActOn hexec
  by_cases hu : unitOf i = u
  · subst hu
    refine ⟨fun _ hpop => (hpop ▸ own).rptr_of_pop, fun _ hk => ?_, fun _ hk => (own.result_of_clear_or_push hk).2.1,
      fun _ hrun => (exec_run_outputs hrun hexec).2, fun hk => ?_, fun hk => own.obuf_of_ne fun h => hk ⟨rfl, h⟩⟩
    · rcases or_assoc.2 hk with hk | hrun
      · exact (own.result_of_clear_or_push hk).1
      · exact (exec_run_outputs hrun hexec).1
    · obtain ⟨hkeep, hsame⟩ := own.kept_of_ne (hk.resolve_left fun h => h rfl)
      exact ⟨by rw [hkeep], fun hempty => congrArg UnitRegs.rptr (hsame fun h => hempty ⟨rfl, h⟩)⟩
  · rw [other u (Ne.symm hu)]
    simp [hu]

end Sys2Proof.Machine
end

section
/-! PROOFS. Four characters written at once, and the stage table of unit E with its index registers (41_encoder.md R79, R85; 10_state.md
R21, R22). -/

namespace Sys2Proof.Machine

/-- The buffer with the four elements from `i` on set (R79). -/
def Memory.insert4 (m : Memory) (i : Nat) (c0 c1 c2 c3 : Byte) : Memory :=
  Memory.insert (Memory.insert (Memory.insert (Memory.insert m i c0) (i + 1) c1) (i + 2) c2) (i + 3) c3

theorem Memory.find_insert4 (m : Memory) (i : Nat) (c0 c1 c2 c3 : Byte) (j : Nat) :
    Memory.find (Memory.insert4 m i c0 c1 c2 c3) j =
      if j = i then some c0
      else if j = i + 1 then some c1
      else if j = i + 2 then some c2
      else if j = i + 3 then some c3
      else Memory.find m j := by
  simp only [Memory.insert4, Memory.find_insert]
  split_ifs <;> grind

theorem bufWrite4_of_room {cap : Nat} {m : Memory} {i : Nat} {c0 c1 c2 c3 : Byte} (h : i + 3 < cap) :
    bufWrite4 cap m i c0 c1 c2 c3 = .ok (Memory.insert4 m i c0 c1 c2 c3) :=
  bufWrite4_ok.2 ⟨h, rfl⟩

section stages

variable {p : Params} {e e' : UnitE} {b0 b1 b2 : Byte}

theorem chunkByte_ok {k : Nat} {b : Byte} :
    chunkByte p e k = .ok b ↔ e.ei.toNat + k < p.ecap ∧ Memory.find e.regs.ibuf (e.ei.toNat + k) = some b := bufRead_ok

/-- The unit with the four characters of the group `g` emitted (R79). -/
def UnitE.emitted (e : UnitE) (g : Group) (c0 c1 c2 c3 : Byte) : UnitE :=
  { e with
    regs := { e.regs with obuf := Memory.insert4 e.regs.obuf e.eo.toNat c0 c1 c2 c3 }
    pack := g
    eo := e.eo + 4#16 }

theorem emitGroup_of_room (g : Group) (c0 c1 c2 c3 : Byte) (h : e.eo.toNat + 3 < eocap p) :
    emitGroup p { e with pack := g } c0 c1 c2 c3 = .ok (e.emitted g c0 c1 c2 c3) := by
  rw [emitGroup, bufWrite4_of_room h]
  rfl

/-- A full chunk (R78, R79): the converse of `fullChunk_ok`. -/
theorem stageE_of_fullChunk (hstg : e.stg = .chunk) (hleft : 3 ≤ leftE e) (h0 : chunkByte p e 0 = .ok b0) (h1 : chunkByte p e 1 = .ok b1)
    (h2 : chunkByte p e 2 = .ok b2) (hroom : e.eo.toNat + 3 < eocap p) :
    stageE p e = .ok { e.emitted (pack3 b0 b1 b2) (alpha (sextet0 (pack3 b0 b1 b2))) (alpha (sextet1 (pack3 b0 b1 b2)))
      (alpha (sextet2 (pack3 b0 b1 b2))) (alpha (sextet3 (pack3 b0 b1 b2))) with ei := e.ei + 3#16 } := by
  rw [stageE, hstg]
  simp only [hleft, if_true]
  rw [fullChunk, h0, h1, h2]
  simp only [bind, Except.bind, emitGroup_of_room _ _ _ _ _ hroom]
  rfl

theorem stageE_of_chunk_end (hstg : e.stg = .chunk) (hleft : leftE e < 3) : stageE p e = .ok { e with stg := .tail } := by
  rw [stageE, hstg]
  simp [hleft.not_ge]

theorem stageE_of_tail (hstg : e.stg = .tail) (h : tailChunk p e = .ok e') : stageE p e = .ok { e' with stg := .done } := by
  rw [stageE, hstg, h]
  rfl

theorem tailChunk_of_none (hleft : leftE e = 0) : tailChunk p e = .ok e := by
  simp [tailChunk, hleft]

/-- A last chunk of one byte (R81). -/
theorem tailChunk_of_one (hleft : leftE e = 1) (h0 : chunkByte p e 0 = .ok b0) (hroom : e.eo.toNat + 3 < eocap p) :
    tailChunk p e = .ok (e.emitted (pack3 b0 0#8 0#8) (alpha (sextet0 (pack3 b0 0#8 0#8))) (alpha (sextet1 (pack3 b0 0#8 0#8)))
      padch padch) := by
  rw [tailChunk, if_pos hleft, tail1, h0]
  exact emitGroup_of_room _ _ _ _ _ hroom

/-- A last chunk of two bytes (R82). -/
theorem tailChunk_of_two (hleft : leftE e = 2) (h0 : chunkByte p e 0 = .ok b0) (h1 : chunkByte p e 1 = .ok b1)
    (hroom : e.eo.toNat + 3 < eocap p) :
    tailChunk p e = .ok (e.emitted (pack3 b0 b1 0#8) (alpha (sextet0 (pack3 b0 b1 0#8))) (alpha (sextet1 (pack3 b0 b1 0#8)))
      (alpha (sextet2 (pack3 b0 b1 0#8))) padch) := by
  rw [tailChunk, if_neg (by omega), if_pos hleft, tail2, h0, h1]
  exact emitGroup_of_room _ _ _ _ _ hroom

theorem stageE_of_done (hstg : e.stg = .done) :
    stageE p e = .ok { e with regs := { e.regs with olen := e.eo, res := .ok }, stg := .idle } := by
  rw [stageE, hstg]

end stages

/-- The characters of R81, through the group or straight from the byte. -/
theorem tail_chars_one (b0 : Byte) :
    alpha (sextet0 (pack3 b0 0#8 0#8)) = alpha (b0.extractLsb' 2 6) ∧
    alpha (sextet1 (pack3 b0 0#8 0#8)) = alpha (cat 6 (b0.extractLsb' 0 2) 0#4) := by
  simpa using ((base64Encode_one b0).symm.trans rfl :
    _ = [alpha (b0.extractLsb' 2 6), alpha (cat 6 (b0.extractLsb' 0 2) 0#4), padch, padch])

/-- The characters of R82, through the group or straight from the bytes. -/
theorem tail_chars_two (b0 b1 : Byte) :
    alpha (sextet0 (pack3 b0 b1 0#8)) = alpha (b0.extractLsb' 2 6) ∧
    alpha (sextet1 (pack3 b0 b1 0#8)) = alpha (cat 6 (b0.extractLsb' 0 2) (b1.extractLsb' 4 4)) ∧
    alpha (sextet2 (pack3 b0 b1 0#8)) = alpha (cat 6 (b1.extractLsb' 0 4) 0#2) := by
  simpa using ((base64Encode_two b0 b1).symm.trans rfl :
    _ = [alpha (b0.extractLsb' 2 6), alpha (cat 6 (b0.extractLsb' 0 2) (b1.extractLsb' 4 4)), alpha (cat 6 (b1.extractLsb' 0 4) 0#2),
      padch])

/-- Settles O43: one lemma for each row; what four writes leave in the buffer is the same for all. -/
theorem encoderStageTable : Obligations.EncoderStageTable := by
  unfold Obligations.EncoderStageTable
  refine fun p e => ⟨rfl, fun b0 b1 b2 hstg hleft hin hroom h0 h1 h2 => ?_, stageE_of_chunk_end,
    fun hstg hleft => stageE_of_tail hstg (tailChunk_of_none hleft), fun b0 hstg hleft hin hroom h0 => ?_,
    fun b0 b1 hstg hleft hin hroom h0 h1 => ?_, stageE_of_done⟩
  · exact ⟨_, stageE_of_fullChunk hstg hleft (chunkByte_ok.2 ⟨by omega, h0⟩) (chunkByte_ok.2 ⟨by omega, h1⟩) (chunkByte_ok.2 ⟨by omega, h2⟩)
      hroom, Memory.find_insert4 _ _ _ _ _ _⟩
  · obtain ⟨hc0, hc1⟩ := tail_chars_one b0
    refine ⟨_, stageE_of_tail hstg (tailChunk_of_one hleft (chunkByte_ok.2 ⟨by omega, h0⟩) hroom), fun i => ?_⟩
    rw [Memory.find_insert4, hc0, hc1]
    simp only [ite_or]
  · obtain ⟨hc0, hc1, hc2⟩ := tail_chars_two b0 b1
    refine ⟨_, stageE_of_tail hstg (tailChunk_of_two hleft (chunkByte_ok.2 ⟨by omega, h0⟩) (chunkByte_ok.2 ⟨by omega, h1⟩) hroom),
      fun i => ?_⟩
    rw [Memory.find_insert4, hc0, hc1, hc2]

end Sys2Proof.Machine
end

section
/-! PROOFS. The index registers of a run of unit E (10_state.md R21, R22), and the end of every run (41_encoder.md R85, 42_decoder.md
R97). -/

namespace Sys2Proof.Machine

section indices

variable {p : Params} {e e' : UnitE}

/-- `EO` moves on by four characters without wrapping, wherever they were written. -/
theorem toNat_eo_add_four (hp : p.wf = true) (hroom : e.eo.toNat + 3 < eocap p) : (e.eo + 4#16).toNat = e.eo.toNat + 4 := by
  have hcap := eocap_le hp
  exact BitVec.toNat_add_of_lt (by simp only [BitVec.toNat_ofNat]; omega)

/-- `EI` moves on by three bytes without wrapping while as many are left. -/
theorem toNat_ei_add_three (hleft : 3 ≤ leftE e) : (e.ei + 3#16).toNat = e.ei.toNat + 3 := by
  have hlen := e.regs.ilen.isLt
  simp only [leftE] at hleft
  exact BitVec.toNat_add_of_lt (by simp only [BitVec.toNat_ofNat]; omega)

end indices

/-- Settles O44: four characters are written for every three bytes taken, and a write that answers is below the capacity. -/
theorem encoderRunInvariant : Obligations.EncoderRunInvariant := by
  unfold Obligations.EncoderRunInvariant
  intro p e e' hp hlen hstg hei hle heo htail h
  have hcap : 4 * (e.ei.toNat / 3) ≤ eocap p := by
    rw [eocap]
    omega
  rcases stageE_ok h with ⟨hs, -⟩ | ⟨hs, hleft, hchunk⟩ | ⟨-, hleft, rfl⟩ | ⟨hs, x, hx, rfl⟩ | ⟨hs, -⟩
  · simp [hs] at hstg
  · obtain ⟨b0, b1, b2, m, -, -, -, hwrite, rfl⟩ := fullChunk_ok hchunk
    obtain ⟨hroom, -⟩ := bufWrite4_ok.1 hwrite
    have hei3 := toNat_ei_add_three hleft
    have heo4 := toNat_eo_add_four hp hroom
    simp only [leftE] at hleft
    simp only [hei3, heo4, hs, reduceCtorEq, false_implies, and_true]
    exact ⟨by omega, by omega, by omega, fun _ => ⟨trivial, by omega⟩⟩
  · exact ⟨hei, hle, heo.trans_le hcap, nofun, fun _ => ⟨heo, hleft⟩, nofun⟩
  · have hshort := htail hs
    rcases tailChunk_ok hx with ⟨hone, htwo, rfl⟩ | ⟨hone, b0, m, -, hwrite, rfl⟩ | ⟨htwo, b0, b1, m, -, -, hwrite, rfl⟩
    · simp only [leftE] at hone htwo
      refine ⟨hei, hle, heo.trans_le hcap, nofun, nofun, fun _ => ?_⟩
      show x.eo.toNat = (x.regs.ilen.toNat + 2) / 3 * 4
      omega
    · obtain ⟨hroom, -⟩ := bufWrite4_ok.1 hwrite
      have heo4 := toNat_eo_add_four hp hroom
      simp only [leftE] at hone
      refine ⟨hei, hle, heo4.trans_le hroom, nofun, nofun, fun _ => heo4.trans ?_⟩
      show e.eo.toNat + 4 = (e.regs.ilen.toNat + 2) / 3 * 4
      omega
    · obtain ⟨hroom, -⟩ := bufWrite4_ok.1 hwrite
      have heo4 := toNat_eo_add_four hp hroom
      simp only [leftE] at htwo
      refine ⟨hei, hle, heo4.trans_le hroom, nofun, nofun, fun _ => heo4.trans ?_⟩
      show e.eo.toNat + 4 = (e.regs.ilen.toNat + 2) / 3 * 4
      omega
  · simp [hs] at hstg

section unitE

variable {p : Params} {e e' : UnitE}

/-- The transitions that a run of unit E still has to make (R85: one for each full chunk, and three). -/
def turnsLeftE (e : UnitE) : Nat :=
  match e.stg with
  | .chunk => leftE e / 3 + 3
  | .tail => 2
  | .done => 1
  | .idle => 0

theorem turnsLeftE_startE (e : UnitE) : turnsLeftE (startE e) = turnsE e.regs.ilen.toNat := rfl

theorem stageE_turnsLeft (hstg : e.stg ≠ .idle) (h : stageE p e = .ok e') : turnsLeftE e' < turnsLeftE e := by
  rcases stageE_ok h with ⟨hs, -⟩ | ⟨hs, hleft, hchunk⟩ | ⟨hs, -, rfl⟩ | ⟨hs, x, -, rfl⟩ | ⟨hs, rfl⟩
  · exact absurd hs hstg
  · obtain ⟨b0, b1, b2, m, -, -, -, -, rfl⟩ := fullChunk_ok hchunk
    have hei := toNat_ei_add_three hleft
    simp only [leftE] at hleft
    simp only [turnsLeftE, hs, leftE, hei]
    omega
  · simp [turnsLeftE, hs]
  · simp [turnsLeftE, hs]
  · simp [turnsLeftE, hs]

/-- A run that no transition faults comes to its end within its turns, with what its transitions keep. -/
theorem runE_of_progress {P : UnitE → Prop} (hP : ∀ a, P a → a.stg ≠ .idle → ∃ b, stageE p a = .ok b ∧ P b) {n : Nat} (he : P e)
    (hstg : e.stg ≠ .idle) (hn : turnsLeftE e ≤ n) : ∃ e', runE p n e = .ok e' ∧ P e' ∧ e'.stg = .idle := by
  induction n generalizing e with
  | zero =>
    obtain ⟨x, hstage, -⟩ := hP e he hstg
    exact absurd (stageE_turnsLeft hstg hstage) (by omega)
  | succ n ih =>
    obtain ⟨x, hstage, hx⟩ := hP e he hstg
    have hless := stageE_turnsLeft hstg hstage
    by_cases hidle : x.stg = .idle
    · exact ⟨x, by simp [runE, hstage, hidle], hx, hidle⟩
    · obtain ⟨e', hrun, hend⟩ := ih hx hidle (by omega)
      exact ⟨e', by simpa [runE, hstage, hidle] using hrun, hend⟩

end unitE

section unitD

variable {p : Params} {d d' : UnitD}

/-- The transitions that a run of unit D, once started, still has to make (R97: one for each character at most, and six). -/
def turnsLeftD (d : UnitD) : Nat :=
  match d.stg with
  | .lengthChecked => d.regs.ilen.toNat + 6
  | .paddingCounted => prefixLen d + 5
  | .charScan => prefixLen d - d.di.toNat + 4
  | .paddingBitsChecked => 3
  | .reassembled => 2
  | .done | .failed => 1
  | .start => 0

theorem turnsLeftD_checkLength (d : UnitD) : turnsLeftD (checkLength d) ≤ d.regs.ilen.toNat + 6 := by
  rcases checkLength_cases d with ⟨-, h⟩ | ⟨-, h⟩ | ⟨-, -, h⟩ <;> simp [h, turnsLeftD]

/-- `DI` moves on by one character without wrapping while one is left. -/
theorem toNat_di_add_one {n : Nat} (h : d.di.toNat < n) (hn : n ≤ d.regs.ilen.toNat) : (d.di + 1#16).toNat = d.di.toNat + 1 := by
  have hlen := d.regs.ilen.isLt
  exact BitVec.toNat_add_of_lt (by simp only [BitVec.toNat_ofNat]; omega)

theorem prefixLen_le (d : UnitD) : prefixLen d ≤ d.regs.ilen.toNat := Nat.sub_le _ _

theorem stageD_turnsLeft (hstg : d.stg ≠ .start) (h : stageD p d = .ok d') : turnsLeftD d' < turnsLeftD d := by
  rcases stageD_ok h with ⟨hs, -⟩ | ⟨hs, h⟩ | ⟨hs, rfl⟩ | ⟨hs, h⟩ | ⟨hs, h⟩ | ⟨hs, rfl⟩ | ⟨hs | hs, rfl⟩
  · exact absurd hs hstg
  · have hprefix := fun c : BitVec 2 => Nat.sub_le d.regs.ilen.toNat c.toNat
    obtain ⟨-, -, ⟨-, rfl⟩ | ⟨-, -, -, ⟨-, rfl⟩ | ⟨-, -, -, ⟨-, rfl⟩ | ⟨-, rfl⟩⟩⟩⟩ := discoverPadding_ok h <;>
      simp only [turnsLeftD, hs, prefixLen, raiseFail_stg] <;> grind
  · simp [turnsLeftD, hs, prefixLen]
  · rcases scanChar_ok h with ⟨hlt, -, -, ⟨-, rfl⟩ | ⟨-, rfl⟩⟩ | ⟨-, hcheck⟩
    · simp [turnsLeftD, hs]
    · have hdi := toNat_di_add_one hlt (prefixLen_le d)
      simp only [turnsLeftD, hs, prefixLen, hdi] at hlt ⊢
      omega
    · rcases checkPadBits_ok hcheck with rfl | rfl <;> simp [turnsLeftD, hs]
  · obtain ⟨x, -, rfl⟩ := reassemble_ok h
    simp [turnsLeftD, hs]
  · simp [turnsLeftD, hs]
  · simp [turnsLeftD, hs]
  · simp [turnsLeftD, hs]

/-- A run that no transition faults comes to its end within its turns, with what its transitions keep. -/
theorem runD_of_progress {P : UnitD → Prop} (hP : ∀ a, P a → a.stg ≠ .start → ∃ b, stageD p a = .ok b ∧ P b) {n : Nat} (hd : P d)
    (hstg : d.stg ≠ .start) (hn : turnsLeftD d ≤ n) : ∃ d', runD p n d = .ok d' ∧ P d' ∧ d'.stg = .start := by
  induction n generalizing d with
  | zero =>
    obtain ⟨x, hstage, -⟩ := hP d hd hstg
    exact absurd (stageD_turnsLeft hstg hstage) (by omega)
  | succ n ih =>
    obtain ⟨x, hstage, hx⟩ := hP d hd hstg
    have hless := stageD_turnsLeft hstg hstage
    by_cases hidle : x.stg = .start
    · exact ⟨x, by simp [runD, hstage, hidle], hx, hidle⟩
    · obtain ⟨d', hrun, hend⟩ := ih hx hidle (by omega)
      exact ⟨d', by simpa [runD, hstage, hidle] using hrun, hend⟩

end unitD

end Sys2Proof.Machine
end

section
/-! PROOFS. No run ends for want of turns, from whatever state (41_encoder.md R85, 42_decoder.md R97, 70_reset_and_hazards.md R133). -/

namespace Sys2Proof.Machine

section bind

variable {α β : Type} {x : Except Fault α} {f : α → Except Fault β} {φ : Fault}

theorem bind_ne_error (hx : x ≠ .error φ) (hf : ∀ a, f a ≠ .error φ) : (x >>= f) ≠ .error φ := by
  cases x with
  | error e => exact fun h => hx (congrArg Except.error (Except.error.inj h))
  | ok a => exact hf a

theorem map_ne_error {g : α → β} (hx : x ≠ .error φ) : x.map g ≠ .error φ := by
  cases x with
  | error e => exact fun h => hx (congrArg Except.error (Except.error.inj h))
  | ok a => nofun

end bind

theorem bufRead_ne_unfinished {cap : Nat} {m : Memory} {i : Nat} : bufRead cap m i ≠ .error .runUnfinished := by
  unfold bufRead
  split
  · split <;> nofun
  · nofun

theorem bufWrite_ne_unfinished {cap : Nat} {m : Memory} {i : Nat} {v : Byte} : bufWrite cap m i v ≠ .error .runUnfinished := by
  unfold bufWrite
  split <;> nofun

section unitE

variable {p : Params} {e : UnitE} {n : Nat}

theorem emitGroup_ne_unfinished {c0 c1 c2 c3 : Byte} : emitGroup p e c0 c1 c2 c3 ≠ .error .runUnfinished :=
  bind_ne_error (bind_ne_error bufWrite_ne_unfinished fun _ => bind_ne_error bufWrite_ne_unfinished fun _ =>
    bind_ne_error bufWrite_ne_unfinished fun _ => bufWrite_ne_unfinished) nofun

theorem fullChunk_ne_unfinished : fullChunk p e ≠ .error .runUnfinished :=
  bind_ne_error bufRead_ne_unfinished fun _ => bind_ne_error bufRead_ne_unfinished fun _ =>
    bind_ne_error bufRead_ne_unfinished fun _ => bind_ne_error emitGroup_ne_unfinished nofun

theorem tailChunk_ne_unfinished : tailChunk p e ≠ .error .runUnfinished := by
  unfold tailChunk
  split
  · exact bind_ne_error bufRead_ne_unfinished fun _ => emitGroup_ne_unfinished
  · split
    · exact bind_ne_error bufRead_ne_unfinished fun _ => bind_ne_error bufRead_ne_unfinished fun _ =>
        emitGroup_ne_unfinished
    · nofun

theorem stageE_ne_unfinished : stageE p e ≠ .error .runUnfinished := by
  unfold stageE
  split
  · nofun
  · split
    · exact fullChunk_ne_unfinished
    · nofun
  · exact map_ne_error tailChunk_ne_unfinished
  · nofun

theorem turnsLeftE_pos (hstg : e.stg ≠ .idle) : 0 < turnsLeftE e := by
  cases hs : e.stg with
  | idle => exact absurd hs hstg
  | chunk | tail | done => simp [turnsLeftE, hs]

/-- A run of unit E has turns enough (R85). -/
theorem runE_ne_unfinished (hstg : e.stg ≠ .idle) (hn : turnsLeftE e ≤ n) : runE p n e ≠ .error .runUnfinished := by
  induction n generalizing e with
  | zero => exact absurd (turnsLeftE_pos hstg) hn.not_gt
  | succ n ih =>
    rw [runE]
    split
    next f hf => exact fun h => stageE_ne_unfinished (hf.trans h)
    next x hx =>
      split
      · nofun
      next hidle => exact ih hidle (Nat.le_of_lt_succ ((stageE_turnsLeft hstg hx).trans_le hn))

end unitE

section unitD

variable {p : Params} {d : UnitD} {n : Nat}

theorem textAt_ne_unfinished {i : Nat} : textAt p d i ≠ .error .runUnfinished := bufRead_ne_unfinished

theorem discoverPadding_ne_unfinished : discoverPadding p d ≠ .error .runUnfinished := by
  unfold discoverPadding
  refine bind_ne_error textAt_ne_unfinished fun _ => ?_
  split
  · nofun
  · refine bind_ne_error textAt_ne_unfinished fun _ => ?_
    split
    · nofun
    · refine bind_ne_error textAt_ne_unfinished fun _ => ?_
      split <;> nofun

theorem checkPadBits_ne_unfinished : checkPadBits p d ≠ .error .runUnfinished := by
  unfold checkPadBits
  split
  · refine bind_ne_error textAt_ne_unfinished fun _ => ?_
    split <;> nofun
  · split
    · refine bind_ne_error textAt_ne_unfinished fun _ => ?_
      split <;> nofun
    · nofun

theorem scanChar_ne_unfinished : scanChar p d ≠ .error .runUnfinished := by
  unfold scanChar
  split
  · refine bind_ne_error textAt_ne_unfinished fun _ => ?_
    split <;> nofun
  · exact checkPadBits_ne_unfinished

theorem emitByte_ne_unfinished : emitByte p d ≠ .error .runUnfinished := by
  unfold emitByte
  split
  · exact bind_ne_error bufWrite_ne_unfinished nofun
  · nofun

theorem reassembleTurn_ne_unfinished : reassembleTurn p d ≠ .error .runUnfinished := by
  unfold reassembleTurn
  exact bind_ne_error textAt_ne_unfinished fun _ => bind_ne_error emitByte_ne_unfinished fun _ h => nomatch h

theorem reassembleLoop_ne_unfinished {k : Nat} : reassembleLoop p k d ≠ .error .runUnfinished := by
  induction k generalizing d with
  | zero => nofun
  | succ k ih =>
    rw [reassembleLoop]
    split
    next f hf => exact fun h => reassembleTurn_ne_unfinished (hf.trans h)
    next x hx => exact ih

theorem stageD_ne_unfinished : stageD p d ≠ .error .runUnfinished := by
  unfold stageD
  split
  · nofun
  · exact discoverPadding_ne_unfinished
  · nofun
  · exact scanChar_ne_unfinished
  · exact map_ne_error reassembleLoop_ne_unfinished
  · nofun
  · nofun
  · nofun

theorem turnsLeftD_pos (hstg : d.stg ≠ .start) : 0 < turnsLeftD d := by
  cases hs : d.stg with
  | start => exact absurd hs hstg
  | lengthChecked | paddingCounted | charScan | paddingBitsChecked | reassembled | done | failed => simp [turnsLeftD, hs]

/-- A run of unit D that has started has turns enough (R97). -/
theorem runD_ne_unfinished (hstg : d.stg ≠ .start) (hn : turnsLeftD d ≤ n) : runD p n d ≠ .error .runUnfinished := by
  induction n generalizing d with
  | zero => exact absurd (turnsLeftD_pos hstg) hn.not_gt
  | succ n ih =>
    rw [runD]
    split
    next f hf => exact fun h => stageD_ne_unfinished (hf.trans h)
    next x hx =>
      split
      · nofun
      next hidle => exact ih hidle (Nat.le_of_lt_succ ((stageD_turnsLeft hstg hx).trans_le hn))

end unitD

/-- `ENC` faults only by its run. -/
theorem execEnc_fault {s : State} {f : Fault} (h : execEnc s = .fault f) :
    runE s.cfg (turnsE s.e.regs.ilen.toNat) (startE (beginRun .e s).e) = .error f := by
  simp only [execEnc, beginRun_cfg] at h
  split at h
  · cases h
  · split at h
    next g hg =>
      obtain rfl := Host.Outcome.fault.inj h
      exact hg
    next => cases h

/-- `DEC` faults only by its run. -/
theorem execDec_fault {s : State} {f : Fault} (h : execDec s = .fault f) :
    runD s.cfg (turnsD s.d.regs.ilen.toNat) { (beginRun .d s).d with stg := .start } = .error f := by
  simp only [execDec, beginRun_cfg] at h
  split at h
  · cases h
  · split at h
    next g hg =>
      obtain rfl := Host.Outcome.fault.inj h
      exact hg
    next => cases h

/-- Settles O15: the turns left fall at every transition, and a run is given as many as it can need. -/
theorem runsAlwaysEnd : Obligations.RunsAlwaysEnd := by
  unfold Obligations.RunsAlwaysEnd
  refine fun s => ⟨fun h => ?_, fun h => ?_⟩
  · exact runE_ne_unfinished startE_stg_ne_idle (turnsLeftE_startE _).le (execEnc_fault h)
  · have hrun := execDec_fault h
    rw [runD_of_start _ rfl] at hrun
    exact runD_ne_unfinished (checkLength_stg_ne_start _) (turnsLeftD_checkLength _) hrun

end Sys2Proof.Machine
end

section
/-! PROOFS. Buffers that agree element by element, and a buffer whose first elements are overwritten by a result (20_memory.md R30, R31). -/

namespace Sys2Proof.Machine

/-- No element below all listed ones holds a value, so the first listed one is the least that does. -/
theorem Memory.find_head (j : Nat) (b : Byte) (m : Memory) : Memory.find ((j, b) :: m) j = some b := if_pos rfl

/-- Two buffers in canonical form with the same elements are the same. -/
theorem Memory.ext_of_wf {m m' : Memory} (hm : Memory.wf m = true) (hm' : Memory.wf m' = true)
    (h : ∀ i, Memory.find m i = Memory.find m' i) : m = m' := by
  rw [Memory.wf_iff] at hm hm'
  induction m generalizing m' with
  | nil =>
    cases m' with
    | nil => rfl
    | cons y m' => exact absurd ((h y.1).trans (Memory.find_head ..)) nofun
  | cons x m ih =>
    obtain ⟨j, b⟩ := x
    cases m' with
    | nil => exact absurd ((h j).symm.trans (Memory.find_head ..)) nofun
    | cons y m' =>
      obtain ⟨k, c⟩ := y
      obtain ⟨hx, hmt⟩ := List.pairwise_cons.1 hm
      obtain ⟨hy, hmt'⟩ := List.pairwise_cons.1 hm'
      have hj := (h j).symm.trans (Memory.find_head ..)
      have hk := (h k).trans (Memory.find_head ..)
      rcases Nat.lt_trichotomy j k with hlt | rfl | hlt
      · rw [Memory.find_none_of_lt fun z hz => (List.mem_cons.1 hz).elim (fun e => e ▸ hlt) fun hz => hlt.trans (hy z hz)] at hj
        exact absurd hj nofun
      · obtain rfl : b = c := Option.some.inj ((Memory.find_head ..).symm.trans hk)
        refine congrArg _ (ih hmt hmt' fun i => ?_)
        by_cases hi : j = i
        · subst hi
          rw [Memory.find_none_of_lt hx, Memory.find_none_of_lt hy]
        · simpa [Memory.find, hi] using h i
      · rw [Memory.find_none_of_lt fun z hz => (List.mem_cons.1 hz).elim (fun e => e ▸ hlt) fun hz => hlt.trans (hx z hz)] at hk
        exact absurd hk nofun

/-- `m'` is the buffer `m` of capacity `cap` with the elements from index 0 on overwritten by `out`, and nothing else written. -/
structure Overwrites (cap : Nat) (m : Memory) (out : List Byte) (m' : Memory) : Prop where
  message : Memory.firstN m' out.length = some out
  above : ∀ i, out.length ≤ i → Memory.find m' i = Memory.find m i
  fits : Memory.Fits cap m → Memory.Fits cap m'

namespace Overwrites

variable {cap : Nat} {m m' m'' : Memory} {out : List Byte}

theorem nothing : Overwrites cap m [] m := ⟨rfl, fun _ _ => rfl, id⟩

theorem snoc (h : Overwrites cap m out m') (hroom : out.length < cap) (v : Byte) :
    Overwrites cap m (out ++ [v]) (Memory.insert m' out.length v) where
  message := by
    rw [List.length_append]
    exact Memory.firstN_insert_succ v h.message
  above i hi := by
    rw [List.length_append, List.length_singleton] at hi
    rw [Memory.find_insert_other _ _ (by omega), h.above i (by omega)]
  fits hm := Memory.fits_insert (h.fits hm) hroom v

/-- Four characters more (R79). -/
theorem append_four (h : Overwrites cap m out m') (hroom : out.length + 3 < cap) (c0 c1 c2 c3 : Byte) :
    Overwrites cap m (out ++ [c0, c1, c2, c3]) (Memory.insert4 m' out.length c0 c1 c2 c3) := by
  have h4 := (((h.snoc (by omega) c0).snoc (by simp; omega) c1).snoc (by simp; omega) c2).snoc (by simp; omega) c3
  simpa [Memory.insert4] using h4

/-- Writing the same result over it again changes nothing. -/
theorem again (h : Overwrites cap m out m') (h' : Overwrites cap m' out m'') (hm : Memory.Fits cap m) : m'' = m' := by
  have hfits := h.fits hm
  refine Memory.ext_of_wf (h'.fits hfits).1 hfits.1 fun i => ?_
  by_cases hi : i < out.length
  · rw [(Memory.firstN_eq_some.1 h'.message).2 i hi, (Memory.firstN_eq_some.1 h.message).2 i hi]
  · exact h'.above i (by omega)

end Overwrites

/-- What a run of a unit with an output buffer of capacity `cap` makes of its registers `r`, the outcome of the codec on its input message
being given (R76, R89, R104). -/
inductive RunEffect (cap : Nat) (r : UnitRegs) : Except FailKind (List Byte) → UnitRegs → EKind → Prop where
  | succeeded (out : List Byte) (m : Memory) (n : Word) (written : Overwrites cap r.obuf out m) (length : n.toNat = out.length) :
      RunEffect cap r (.ok out) { r with obuf := m, olen := n, rptr := 0#16, res := .ok } .none
  | failed (k : FailKind) : RunEffect cap r (.error k) r.failed (.fail k)

end Sys2Proof.Machine
end

section
/-! PROOFS. A run of unit E computes `encode` (41_encoder.md R75, R76). -/

namespace Sys2Proof.Machine

/-- The registers `r` are ready for a run on the payload `b`: it stands in `IBUF.E`, and its text fits the 16 bits of `EO` (R6). -/
structure ReadyE (p : Params) (b : List Byte) (r : UnitRegs) : Prop where
  message : Memory.firstN r.ibuf r.ilen.toNat = some b
  room : r.ilen.toNat ≤ p.ecap
  noWrap : r.ilen.toNat ≤ 49149
  rptr : r.rptr = 0#16

/-- Within a run of unit E from the registers `r`: the text of `part` stands in `OBUF.E`, and `EO` behind it. -/
structure Emitted (p : Params) (r : UnitRegs) (part : List Byte) (e : UnitE) : Prop where
  regs : e.regs = { r with obuf := e.regs.obuf }
  eo : e.eo.toNat = (base64Encode part).length
  written : Overwrites (eocap p) r.obuf (base64Encode part) e.regs.obuf

/-- Between two chunks: those of `part` are encoded, the bytes `rest` are not. -/
structure BetweenChunks (p : Params) (r : UnitRegs) (part rest : List Byte) (e : UnitE) : Prop where
  emitted : Emitted p r part e
  whole : part.length % 3 = 0
  ei : e.ei.toNat = part.length

/-- A run of unit E on the payload `b` from the registers `r`, stage by stage (R85). -/
def EncodeRun (p : Params) (b : List Byte) (r : UnitRegs) (e : UnitE) : Prop :=
  match e.stg with
  | .chunk => ∃ part rest, b = part ++ rest ∧ BetweenChunks p r part rest e
  | .tail => ∃ part rest, b = part ++ rest ∧ BetweenChunks p r part rest e ∧ rest.length < 3
  | .done => Emitted p r b e
  | .idle => RunEffect (eocap p) r (.ok (base64Encode b)) e.regs .none

section run

variable {p : Params} {b part rest chunk : List Byte} {r : UnitRegs} {e : UnitE}

theorem ReadyE.length (h : ReadyE p b r) : b.length = r.ilen.toNat := (Memory.firstN_eq_some.1 h.message).1

namespace BetweenChunks

theorem ilen (h : BetweenChunks p r part rest e) : e.regs.ilen = r.ilen := by rw [h.emitted.regs]

theorem leftE (hready : ReadyE p (part ++ rest) r) (h : BetweenChunks p r part rest e) : leftE e = rest.length := by
  have hlength := hready.length
  rw [List.length_append] at hlength
  rw [Machine.leftE, h.ilen, h.ei]
  omega

theorem chunkByte (hready : ReadyE p (part ++ rest) r) (h : BetweenChunks p r part rest e) {k : Nat} {v : Byte}
    (hk : rest[k]? = some v) : chunkByte p e k = .ok v := by
  have hlength := hready.length
  have hroom := hready.room
  have hlt : k < rest.length := (List.getElem?_eq_some_iff.1 hk).1
  rw [List.length_append] at hlength
  refine chunkByte_ok.2 ⟨by rw [h.ei]; omega, ?_⟩
  have hibuf : e.regs.ibuf = r.ibuf := by rw [h.emitted.regs]
  rw [hibuf, h.ei, (Memory.firstN_eq_some.1 hready.message).2 _ (by omega), List.getElem?_append_right (by omega), Nat.add_sub_cancel_left,
    hk]

/-- There is room for the four characters of one more chunk, and `EO` does not wrap. -/
theorem eo_room (hready : ReadyE p (part ++ rest) r) (h : BetweenChunks p r part rest e) (hrest : rest ≠ []) :
    e.eo.toNat + 3 < eocap p ∧ (e.eo + 4#16).toNat = e.eo.toNat + 4 := by
  have hlength := hready.length
  have hroom := hready.room
  have hnoWrap := hready.noWrap
  have hwhole := h.whole
  have hpos := List.length_pos_of_ne_nil hrest
  have heo := h.emitted.eo
  rw [List.length_append] at hlength
  rw [length_base64Encode] at heo
  refine ⟨by rw [eocap]; omega, BitVec.toNat_add_of_lt ?_⟩
  simp only [BitVec.toNat_ofNat]
  omega

/-- Four characters emitted for one more chunk (R79 to R82). -/
theorem emit (hready : ReadyE p (part ++ rest) r) (h : BetweenChunks p r part rest e) (hrest : rest ≠ []) (g : Group) {c0 c1 c2 c3 : Byte}
    (htext : base64Encode chunk = [c0, c1, c2, c3]) : Emitted p r (part ++ chunk) (e.emitted g c0 c1 c2 c3) := by
  obtain ⟨hroom, hadd⟩ := h.eo_room hready hrest
  have hjoin : base64Encode (part ++ chunk) = base64Encode part ++ [c0, c1, c2, c3] := by rw [base64Encode_append _ h.whole, htext]
  refine ⟨congrArg (fun q : UnitRegs => { q with obuf := (e.emitted g c0 c1 c2 c3).regs.obuf }) h.emitted.regs, ?_, ?_⟩
  · rw [hjoin, List.length_append, ← h.emitted.eo]
    exact hadd
  · have hwritten := h.emitted.written.append_four (by rw [← h.emitted.eo]; exact hroom) c0 c1 c2 c3
    rw [← h.emitted.eo] at hwritten
    rw [hjoin]
    exact hwritten

end BetweenChunks

theorem Emitted.congr {e' : UnitE} (h : Emitted p r part e) (hregs : e'.regs = e.regs) (heo : e'.eo = e.eo) : Emitted p r part e' :=
  ⟨hregs ▸ h.regs, heo ▸ h.eo, hregs ▸ h.written⟩

/-- From `E_CHUNK` a run answers and goes on (R78, R79, R85). -/
theorem stageE_chunk_encodeRun (hready : ReadyE p (part ++ rest) r) (h : BetweenChunks p r part rest e) (hstg : e.stg = .chunk) :
    ∃ e', stageE p e = .ok e' ∧ EncodeRun p (part ++ rest) r e' := by
  by_cases hleft : 3 ≤ leftE e
  · have hlong : 3 ≤ rest.length := h.leftE hready ▸ hleft
    match rest, hlong with
    | b0 :: b1 :: b2 :: rest', _ =>
      have hstage := stageE_of_fullChunk hstg hleft (h.chunkByte hready rfl) (h.chunkByte hready rfl) (h.chunkByte hready rfl)
        (h.eo_room hready nofun).1
      have hemitted := h.emit hready nofun (pack3 b0 b1 b2) (base64Encode_chunk b0 b1 b2 [])
      have hei := (toNat_ei_add_three hleft).trans (congrArg (· + 3) h.ei)
      refine ⟨_, hstage, ?_⟩
      simp only [EncodeRun, UnitE.emitted, hstg]
      exact ⟨part ++ [b0, b1, b2], rest', by simp, hemitted.congr rfl rfl, by simp [h.whole], by simpa using hei⟩
  · rw [not_le] at hleft
    exact ⟨_, stageE_of_chunk_end hstg hleft, part, rest, rfl, ⟨h.emitted.congr rfl rfl, h.whole, h.ei⟩, h.leftE hready ▸ hleft⟩

/-- From `E_TAIL` a run answers and goes on (R80 to R82, R85). -/
theorem stageE_tail_encodeRun (hready : ReadyE p (part ++ rest) r) (h : BetweenChunks p r part rest e) (hshort : rest.length < 3)
    (hstg : e.stg = .tail) : ∃ e', stageE p e = .ok e' ∧ EncodeRun p (part ++ rest) r e' := by
  have hleft := h.leftE hready
  match rest, hshort with
  | [], _ =>
    refine ⟨_, stageE_of_tail hstg (tailChunk_of_none hleft), ?_⟩
    rw [List.append_nil]
    exact h.emitted.congr rfl rfl
  | [b0], _ =>
    have htail := tailChunk_of_one hleft (h.chunkByte hready rfl) (h.eo_room hready nofun).1
    exact ⟨_, stageE_of_tail hstg htail, (h.emit hready nofun (pack3 b0 0#8 0#8) (base64Encode_one b0)).congr rfl rfl⟩
  | [b0, b1], _ =>
    have htail := tailChunk_of_two hleft (h.chunkByte hready rfl) (h.chunkByte hready rfl) (h.eo_room hready nofun).1
    exact ⟨_, stageE_of_tail hstg htail, (h.emit hready nofun (pack3 b0 b1 0#8) (base64Encode_two b0 b1)).congr rfl rfl⟩

/-- From `E_DONE` a run ends with its result (R85). -/
theorem stageE_done_encodeRun (hrptr : r.rptr = 0#16) (h : Emitted p r b e) (hstg : e.stg = .done) :
    ∃ e', stageE p e = .ok e' ∧ EncodeRun p b r e' := by
  refine ⟨_, stageE_of_done hstg, ?_⟩
  have hregs : { e.regs with olen := e.eo, res := .ok } =
      { r with obuf := e.regs.obuf, olen := e.eo, rptr := 0#16, res := .ok } := by
    rw [← hrptr]
    exact congrArg (fun q : UnitRegs => { q with olen := e.eo, res := .ok }) h.regs
  show RunEffect (eocap p) r (.ok (base64Encode b)) { e.regs with olen := e.eo, res := .ok } .none
  rw [hregs]
  exact .succeeded _ _ _ h.written h.eo

/-- Every transition of a run answers and goes on with the run (R85). -/
theorem stageE_encodeRun (hready : ReadyE p b r) (h : EncodeRun p b r e) (hstg : e.stg ≠ .idle) :
    ∃ e', stageE p e = .ok e' ∧ EncodeRun p b r e' := by
  unfold EncodeRun at h
  split at h
  next hs =>
    obtain ⟨part, rest, rfl, hpart⟩ := h
    exact stageE_chunk_encodeRun hready hpart hs
  next hs =>
    obtain ⟨part, rest, rfl, hpart, hshort⟩ := h
    exact stageE_tail_encodeRun hready hpart hshort hs
  next hs => exact stageE_done_encodeRun hready.rptr h hs
  next hs => exact absurd hs hstg

/-- A run of unit E that is ready ends with the text of the payload (R76). -/
theorem runE_effect (hready : ReadyE p b e.regs) :
    ∃ e', runE p (turnsE e.regs.ilen.toNat) (startE e) = .ok e' ∧ RunEffect (eocap p) e.regs (.ok (base64Encode b)) e'.regs .none := by
  have hstart : EncodeRun p b e.regs (startE e) := ⟨[], b, rfl, ⟨rfl, rfl, .nothing⟩, rfl, rfl⟩
  obtain ⟨e', hrun, hend, hidle⟩ := runE_of_progress (fun a => stageE_encodeRun hready) hstart startE_stg_ne_idle
    (turnsLeftE_startE e).le
  refine ⟨e', hrun, ?_⟩
  simpa only [EncodeRun, hidle] using hend

end run

end Sys2Proof.Machine
end

section
/-! PROOFS. The stage table of unit D and the turn of its step 6 (42_decoder.md R89 to R97). -/

namespace Sys2Proof.Machine

section stages

variable {p : Params} {d : UnitD} {c c1 c2 c3 : Byte}

theorem textAt_ok {i : Nat} : textAt p d i = .ok c ↔ i < p.dcap ∧ Memory.find d.regs.ibuf i = some c := bufRead_ok

/-- Step 3 on a text whose last three characters are read (R92). -/
theorem discoverPadding_of_chars (h1 : textAt p d (d.regs.ilen.toNat - 1) = .ok c1) (h2 : textAt p d (d.regs.ilen.toNat - 2) = .ok c2)
    (h3 : textAt p d (d.regs.ilen.toNat - 3) = .ok c3) :
    discoverPadding p d = .ok (
      if c1 ≠ padch then { d with padcnt := 0#2, stg := .paddingCounted }
      else if c2 ≠ padch then { d with padcnt := 1#2, stg := .paddingCounted }
      else if c3 ≠ padch then { d with padcnt := 2#2, stg := .paddingCounted }
      else raiseFail .padding d) := by
  simp only [discoverPadding, h1, h2, h3, bind, Except.bind, ← apply_ite Except.ok]

/-- A turn of the scan (R93). -/
theorem scanChar_of_char (hlt : d.di.toNat < prefixLen d) (hc : textAt p d d.di.toNat = .ok c) :
    scanChar p d = .ok (if dtabInv c then raiseFail .char d else { d with di := d.di + 1#16 }) := by
  simp only [scanChar, if_pos hlt, hc, bind, Except.bind, ← apply_ite Except.ok]

/-- The end of the scan: step 5 on the last significant character (R94). -/
theorem scanChar_of_end (hle : prefixLen d ≤ d.di.toNat) (hpads : d.padcnt.toNat ≤ 2)
    (hc : textAt p d (d.regs.ilen.toNat - d.padcnt.toNat - 1) = .ok c) :
    scanChar p d =
      .ok (if padBitsNonzero d.padcnt.toNat (dtabVal c) then raiseFail .padBits d else { d with stg := .paddingBitsChecked }) := by
  rw [scanChar, if_neg hle.not_gt, checkPadBits]
  obtain h | h | h : d.padcnt = 0#2 ∨ d.padcnt = 1#2 ∨ d.padcnt = 2#2 := by bv_omega
  · simp [h]
  · have hc2 : textAt p d (d.regs.ilen.toNat - 2) = .ok c := by simpa [h, Nat.sub_sub] using hc
    simp [h, hc2, bind, Except.bind, ← apply_ite Except.ok]
  · have hc3 : textAt p d (d.regs.ilen.toNat - 3) = .ok c := by simpa [h, Nat.sub_sub] using hc
    simp [h, hc3, bind, Except.bind, ← apply_ite Except.ok]

theorem stageD_of_start (hstg : d.stg = .start) : stageD p d = .ok (checkLength d) := by rw [stageD, hstg]
theorem stageD_of_lengthChecked (hstg : d.stg = .lengthChecked) : stageD p d = discoverPadding p d := by rw [stageD, hstg]
theorem stageD_of_charScan (hstg : d.stg = .charScan) : stageD p d = scanChar p d := by rw [stageD, hstg]
theorem stageD_of_paddingBitsChecked (hstg : d.stg = .paddingBitsChecked) : stageD p d = reassemble p d := by rw [stageD, hstg]

theorem stageD_of_paddingCounted (hstg : d.stg = .paddingCounted) : stageD p d = .ok { d with di := 0#16, stg := .charScan } := by
  rw [stageD, hstg]

theorem stageD_of_reassembled (hstg : d.stg = .reassembled) :
    stageD p d = .ok { d with regs := { d.regs with olen := d.dOut, res := .ok }, stg := .done } := by rw [stageD, hstg]

theorem stageD_of_end (hstg : d.stg = .done ∨ d.stg = .failed) : stageD p d = .ok { d with stg := .start } := by
  rcases hstg with hstg | hstg <;> rw [stageD, hstg]

end stages

/-- Settles O54: one lemma for each row. -/
theorem decoderStageTable : Obligations.DecoderStageTable := by
  unfold Obligations.DecoderStageTable
  refine fun p d => ⟨fun hstg hlen => ?_, fun hstg hpos hquanta => ?_, fun hstg hquanta => ?_,
    fun c1 c2 c3 hstg hlong hcap h1 h2 h3 => ?_, stageD_of_paddingCounted, fun c hstg hlt hcap hc => ?_,
    fun c hstg hend hpads hsig hcap hc => ?_, fun d' hstg h => ?_, stageD_of_reassembled, stageD_of_end⟩
  · rw [stageD_of_start hstg, checkLength, if_pos (by rw [hlen]; rfl)]
  · rw [stageD_of_start hstg, checkLength, if_neg (by omega), if_neg (not_not.2 hquanta)]
  · rw [stageD_of_start hstg, checkLength, if_neg (by omega), if_pos hquanta]
  · rw [stageD_of_lengthChecked hstg]
    exact discoverPadding_of_chars (textAt_ok.2 ⟨by omega, h1⟩) (textAt_ok.2 ⟨by omega, h2⟩) (textAt_ok.2 ⟨by omega, h3⟩)
  · rw [stageD_of_charScan hstg]
    exact scanChar_of_char hlt (textAt_ok.2 ⟨hcap, hc⟩)
  · have hbits : padBitsNonzero d.padcnt.toNat (dtabVal c) = true ↔
        (d.padcnt = 1#2 ∧ (dtabVal c).toNat % 4 ≠ 0) ∨ (d.padcnt = 2#2 ∧ (dtabVal c).toNat % 16 ≠ 0) := by
      rw [padBitsNonzero_iff, ← BitVec.toNat_inj, ← BitVec.toNat_inj]
      rfl
    rw [stageD_of_charScan hstg, scanChar_of_end hend.ge hpads (textAt_ok.2 ⟨by omega, hc⟩)]
    exact congrArg Except.ok (if_congr hbits rfl rfl)
  · rw [stageD_of_paddingBitsChecked hstg] at h
    obtain ⟨x, -, rfl⟩ := reassemble_ok h
    rfl

section accumulator

variable (acc : BitVec 12) (v : Sextet) (nb : BitVec 4)

/-- The sextet enters below the low bits of `ACC` (R95). -/
theorem accShiftIn_eq_append : accShiftIn acc v = acc.setWidth 6 ++ v := by
  have hcat : accShiftIn acc v = cat 12 acc v := by simp [accShiftIn, cat]
  rw [hcat]
  apply BitVec.eq_of_getLsbD_eq
  intro i hi
  rw [getLsbD_cat, BitVec.getLsbD_append, BitVec.getLsbD_setWidth]
  simp [hi, show i - 6 < 6 by omega]

variable {acc nb}

theorem toNat_accShiftIn (h : acc.toNat < 64) : (accShiftIn acc v).toNat = acc.toNat * 64 + v.toNat := by
  rw [accShiftIn_eq_append, toNat_append_eq, BitVec.toNat_setWidth, Nat.mod_eq_of_lt h]
  rfl

theorem toNat_accRetain (h : nb.toNat < 12) : (accRetain acc nb).toNat = acc.toNat % 2 ^ nb.toNat := by
  have hpow : 2 ^ nb.toNat < 2 ^ 12 := Nat.pow_lt_pow_right (by decide) h
  have hmask : ((1#12 <<< nb.toNat) - 1#12).toNat = 2 ^ nb.toNat - 1 := by
    have hone : (1#12 <<< nb.toNat).toNat = 2 ^ nb.toNat := by
      rw [BitVec.toNat_shiftLeft, Nat.shiftLeft_eq]
      simpa using hpow
    rw [BitVec.toNat_sub_of_le, hone]
    · rfl
    · rw [BitVec.le_def, hone]
      exact Nat.one_le_two_pow
  rw [accRetain, BitVec.toNat_and, hmask, Nat.and_two_pow_sub_one_eq_mod]

theorem toNat_accEmit (h : acc.toNat < 2 ^ (nb.toNat + 8)) : (accEmit acc nb).toNat = acc.toNat / 2 ^ nb.toNat := by
  rw [accEmit, BitVec.toNat_setWidth, BitVec.toNat_ushiftRight, Nat.shiftRight_eq_div_pow, Nat.mod_eq_of_lt]
  rw [Nat.div_lt_iff_lt_mul (by positivity), ← pow_add, Nat.add_comm]
  exact h

end accumulator

section turn

variable {p : Params} {d : UnitD} {c : Byte}

theorem emitByte_of_few (h : d.nb.toNat < 8) : emitByte p d = .ok d := if_neg h.not_ge

theorem emitByte_of_byte (h : 8 ≤ d.nb.toNat) (hroom : d.dOut.toNat < docap p) :
    emitByte p d = .ok { d with
      regs := { d.regs with obuf := Memory.insert d.regs.obuf d.dOut.toNat (accEmit d.acc (d.nb - 8#4)) }
      nb := d.nb - 8#4, dOut := d.dOut + 1#16, acc := accRetain d.acc (d.nb - 8#4) } := by
  simp only [emitByte, if_pos h, bufWrite, if_pos hroom]
  rfl

/-- A turn that has fewer than 8 bits after its sextet keeps them all (R95). -/
theorem reassembleTurn_of_few (hc : textAt p d d.di.toNat = .ok c) (hnb : (d.nb + 6#4).toNat < 8) :
    reassembleTurn p d = .ok { d with acc := accShiftIn d.acc (dtabVal c), nb := d.nb + 6#4, di := d.di + 1#16 } := by
  rw [reassembleTurn_of_textAt d hc, emitByte_of_few hnb]
  rfl

/-- A turn that has 8 bits or more after its sextet emits the top 8 (R95). -/
theorem reassembleTurn_of_byte (hc : textAt p d d.di.toNat = .ok c) (hnb : 8 ≤ (d.nb + 6#4).toNat) (hroom : d.dOut.toNat < docap p) :
    reassembleTurn p d = .ok { d with
      regs := { d.regs with
        obuf := Memory.insert d.regs.obuf d.dOut.toNat (accEmit (accShiftIn d.acc (dtabVal c)) (d.nb + 6#4 - 8#4)) }
      nb := d.nb + 6#4 - 8#4, dOut := d.dOut + 1#16
      acc := accRetain (accShiftIn d.acc (dtabVal c)) (d.nb + 6#4 - 8#4), di := d.di + 1#16 } := by
  have hemit := emitByte_of_byte (p := p) (d := { d with acc := accShiftIn d.acc (dtabVal c), nb := d.nb + 6#4 }) hnb hroom
  rw [reassembleTurn_of_textAt d hc, hemit]
  rfl

theorem toNat_nb_add_six (h : d.nb.toNat ≤ 6) : (d.nb + 6#4).toNat = d.nb.toNat + 6 := by bv_omega

theorem toNat_nb_emitted (h : d.nb.toNat ≤ 6) (h2 : 2 ≤ d.nb.toNat) : (d.nb + 6#4 - 8#4).toNat + 2 = d.nb.toNat := by bv_omega

theorem acc_lt_64 (h : d.nb.toNat ≤ 6) (hacc : d.acc.toNat < 2 ^ d.nb.toNat) : d.acc.toNat < 64 :=
  hacc.trans_le (Nat.pow_le_pow_right (by decide) h)

/-- The buffered bits and the sextet, as one number, fit in the bits they fill (R95). -/
theorem shiftedIn_lt (hacc : d.acc.toNat < 2 ^ d.nb.toNat) : d.acc.toNat * 64 + (dtabVal c).toNat < 2 ^ (d.nb.toNat + 6) := by
  have hv : (dtabVal c).toNat < 64 := (dtabVal c).isLt
  rw [pow_add]
  omega

/-- The byte emitted and the bits retained are the buffered bits and the sextet (R95). -/
theorem emit_and_retain (h : d.nb.toNat ≤ 6) (h2 : 2 ≤ d.nb.toNat) (hacc : d.acc.toNat < 2 ^ d.nb.toNat) :
    (accEmit (accShiftIn d.acc (dtabVal c)) (d.nb + 6#4 - 8#4)).toNat =
      (d.acc.toNat * 64 + (dtabVal c).toNat) / 2 ^ (d.nb + 6#4 - 8#4).toNat ∧
    (accRetain (accShiftIn d.acc (dtabVal c)) (d.nb + 6#4 - 8#4)).toNat =
      (d.acc.toNat * 64 + (dtabVal c).toNat) % 2 ^ (d.nb + 6#4 - 8#4).toNat := by
  have hshift := toNat_accShiftIn (dtabVal c) (acc_lt_64 h hacc)
  have hnb := toNat_nb_emitted h h2
  constructor
  · rw [toNat_accEmit, hshift]
    rw [hshift, show (d.nb + 6#4 - 8#4).toNat + 8 = d.nb.toNat + 6 by omega]
    exact shiftedIn_lt hacc
  · rw [toNat_accRetain (by omega), hshift]

end turn

/-- Settles O57: with no bit buffered the sextet is kept, otherwise a byte is cut off on top. -/
theorem decoderLoopLosesNoBit : Obligations.DecoderLoopLosesNoBit := by
  unfold Obligations.DecoderLoopLosesNoBit
  intro p d c hnb heven hacc hdi hroom hfind
  have hc : textAt p d d.di.toNat = .ok c := textAt_ok.2 ⟨hdi, hfind⟩
  have hsix := toNat_nb_add_six hnb
  by_cases hnone : d.nb.toNat = 0
  · have hshift := toNat_accShiftIn (dtabVal c) (acc_lt_64 hnb hacc)
    have hlt := shiftedIn_lt (c := c) hacc
    rw [← hshift, ← hsix] at hlt
    exact ⟨_, reassembleTurn_of_few hc (by omega), by simp only [hsix]; omega, by simp only [hsix]; omega, by simp only [hsix]; omega,
      hlt, rfl, fun _ => ⟨hsix, hshift, rfl, rfl⟩, fun h => absurd h (by omega)⟩
  · have htwo : 2 ≤ d.nb.toNat := by omega
    have hnb' := toNat_nb_emitted hnb htwo
    obtain ⟨hemit, hretain⟩ := emit_and_retain (c := c) hnb htwo hacc
    refine ⟨_, reassembleTurn_of_byte hc (by omega) hroom, ?_⟩
    simp only
    refine ⟨by omega, by omega, by omega, ?_, trivial, fun h => absurd h (by omega), fun _ => ⟨by omega, trivial,
      _, fun i => Memory.find_insert _ _ i _, ?_⟩⟩
    · rw [hretain]
      exact Nat.mod_lt _ (by positivity)
    · rw [hemit, hretain]
      exact Nat.div_add_mod' ..

end Sys2Proof.Machine
end

section
/-! PROOFS. A run of unit D computes `decode` (42_decoder.md R88, R89). -/

namespace Sys2Proof.Machine

theorem reassembled_succ (t : List Byte) (l : Nat) :
    reassembled t (l + 1) = reassembled t l ++ [BitVec.ofNat 8 (sextetString t >>> (6 * t.length - 8 - 8 * l))] := by
  rw [reassembled, List.range_succ, List.map_append]
  rfl

theorem sextetString_concat (t : List Byte) (c : Byte) : sextetString (t ++ [c]) = sextetString t * 64 + (dtabVal c).toNat := by
  simp [sextetString, List.foldl_append]

section loop

variable {p : Params} {part rest x : List Byte} {r : UnitRegs} {d : UnitD} {c : Byte}

/-- The registers `r` are ready for a run on the text `x`: it stands in `IBUF.D`, and the first line of the run is done (R89). -/
structure ReadyD (p : Params) (x : List Byte) (r : UnitRegs) : Prop where
  message : Memory.firstN r.ibuf r.ilen.toNat = some x
  room : r.ilen.toNat ≤ p.dcap
  olen : r.olen = 0#16
  rptr : r.rptr = 0#16

theorem ReadyD.length (h : ReadyD p x r) : x.length = r.ilen.toNat := (Memory.firstN_eq_some.1 h.message).1

theorem ReadyD.textAt (h : ReadyD p x r) (hibuf : d.regs.ibuf = r.ibuf) {i : Nat} (hi : i < x.length) :
    textAt p d i = .ok (charAt x i) := by
  have hlength := h.length
  have hroom := h.room
  refine textAt_ok.2 ⟨by omega, ?_⟩
  rw [hibuf, (Memory.firstN_eq_some.1 h.message).2 i (by omega), charAt, List.getD_eq_getElem?_getD, List.getElem?_eq_getElem hi,
    Option.getD_some]

/-- Within step 6: the characters `part` are taken in; their whole bytes stand in `OBUF.D`, the bits left over in `ACC` (R95). -/
structure Reassembling (p : Params) (r : UnitRegs) (part : List Byte) (d : UnitD) : Prop where
  regs : d.regs = { r with obuf := d.regs.obuf }
  di : d.di.toNat = part.length
  nb : d.nb.toNat = 6 * part.length % 8
  acc : d.acc.toNat = sextetString part % 2 ^ d.nb.toNat
  dOut : d.dOut.toNat = 6 * part.length / 8
  written : Overwrites (docap p) r.obuf (reassembled part (6 * part.length / 8)) d.regs.obuf

/-- Shifting a sextet in below the bits that are left of a string. -/
theorem sextetString_mod_concat (t : List Byte) (c : Byte) (k : Nat) :
    sextetString t % 2 ^ k * 64 + (dtabVal c).toNat = sextetString (t ++ [c]) % 2 ^ (k + 6) := by
  have hv : (dtabVal c).toNat < 64 := (dtabVal c).isLt
  have hdiv : (sextetString t * 64 + (dtabVal c).toNat) / 64 = sextetString t := by omega
  rw [sextetString_concat, pow_add, Nat.mul_comm (2 ^ k), show 2 ^ 6 = 64 from rfl, Nat.mod_mul, hdiv]
  omega

/-- What a turn reads, and that `DI` moves on. -/
theorem Reassembling.read (hready : ReadyD p x r) (h : Reassembling p r part d) (hx : x = part ++ c :: rest) :
    Machine.textAt p d d.di.toNat = .ok c ∧ (d.di + 1#16).toNat = (part ++ [c]).length := by
  have hlength := hready.length
  have hlong : part.length < x.length := by simp [hx]
  have hilen : d.regs.ilen = r.ilen := by rw [h.regs]
  have hchar : charAt x part.length = c := by simp [hx, charAt]
  constructor
  · rw [h.di, hready.textAt (by rw [h.regs]) hlong, hchar]
  · rw [toNat_di_add_one (n := x.length) (by rw [h.di]; exact hlong) (by rw [hilen, hlength]), h.di, List.length_append]
    rfl

/-- A turn from no buffered bits keeps its sextet (R95). -/
theorem Reassembling.turn_of_few (hready : ReadyD p x r) (h : Reassembling p r part d) (hx : x = part ++ c :: rest)
    (hnb : d.nb.toNat = 0) : ∃ d', reassembleTurn p d = .ok d' ∧ Reassembling p r (part ++ [c]) d' := by
  obtain ⟨hread, hdi⟩ := h.read hready hx
  have hsix := toNat_nb_add_six (d := d) (by omega)
  have hacc : d.acc.toNat < 64 := by rw [h.acc, hnb]; omega
  have hcycle := h.nb
  have hbytes : 6 * (part ++ [c]).length / 8 = 6 * part.length / 8 := by
    rw [List.length_append, List.length_singleton]
    omega
  refine ⟨_, reassembleTurn_of_few hread (by omega), h.regs, hdi, ?_, ?_, h.dOut.trans hbytes.symm, ?_⟩
  · show (d.nb + 6#4).toNat = 6 * (part ++ [c]).length % 8
    rw [List.length_append, List.length_singleton]
    omega
  · show (accShiftIn d.acc (dtabVal c)).toNat = sextetString (part ++ [c]) % 2 ^ (d.nb + 6#4).toNat
    rw [toNat_accShiftIn _ hacc, h.acc, sextetString_mod_concat, hsix]
  · rw [hbytes, reassembled_append_of_le (by omega)]
    exact h.written

/-- A turn from 2, 4 or 6 buffered bits emits the next byte (R95). -/
theorem Reassembling.turn_of_byte (hready : ReadyD p x r) (h : Reassembling p r part d) (hx : x = part ++ c :: rest)
    (hnb : d.nb.toNat ≠ 0) (hroom : 6 * (part.length + 1) / 8 ≤ docap p) :
    ∃ d', reassembleTurn p d = .ok d' ∧ Reassembling p r (part ++ [c]) d' := by
  obtain ⟨hread, hdi⟩ := h.read hready hx
  have hcycle := h.nb
  have hle : d.nb.toNat ≤ 6 := by omega
  have htwo : 2 ≤ d.nb.toNat := by omega
  have hsix := toNat_nb_add_six hle
  have hnb' := toNat_nb_emitted hle htwo
  have hdOut := h.dOut
  have hlength := hready.length
  have hlong : part.length < x.length := by simp [hx]
  have hlen := r.ilen.isLt
  have hbytes : 6 * (part ++ [c]).length / 8 = 6 * part.length / 8 + 1 := by
    rw [List.length_append, List.length_singleton]
    omega
  have hacc : d.acc.toNat < 2 ^ d.nb.toNat := h.acc ▸ Nat.mod_lt _ (by positivity)
  have hbits : d.acc.toNat * 64 + (dtabVal c).toNat = sextetString (part ++ [c]) % (2 ^ (d.nb + 6#4 - 8#4).toNat * 2 ^ 8) := by
    rw [h.acc, sextetString_mod_concat, ← pow_add]
    congr 2
    omega
  obtain ⟨hemit, hretain⟩ := emit_and_retain (c := c) hle htwo hacc
  rw [hbits, Nat.mod_mul_right_div_self] at hemit
  rw [hbits, Nat.mod_mod_of_dvd _ (Nat.dvd_mul_right ..)] at hretain
  refine ⟨_, reassembleTurn_of_byte hread (by omega) (by omega), ?_, hdi, ?_, hretain, ?_, ?_⟩
  · exact congrArg (fun q : UnitRegs => { q with
      obuf := Memory.insert d.regs.obuf d.dOut.toNat (accEmit (accShiftIn d.acc (dtabVal c)) (d.nb + 6#4 - 8#4)) }) h.regs
  · show (d.nb + 6#4 - 8#4).toNat = 6 * (part ++ [c]).length % 8
    rw [List.length_append, List.length_singleton]
    omega
  · rw [hbytes, ← hdOut]
    exact BitVec.toNat_add_of_lt (by simp only [BitVec.toNat_ofNat]; omega)
  · have hlast : BitVec.ofNat 8 (sextetString (part ++ [c]) >>> (6 * (part ++ [c]).length - 8 - 8 * (6 * part.length / 8))) =
        accEmit (accShiftIn d.acc (dtabVal c)) (d.nb + 6#4 - 8#4) := by
      apply BitVec.eq_of_toNat_eq
      rw [hemit, BitVec.toNat_ofNat, Nat.shiftRight_eq_div_pow, List.length_append, List.length_singleton]
      congr 3
      omega
    rw [hbytes, reassembled_succ, reassembled_append_of_le (by omega), hlast]
    have hwritten := h.written.snoc (by rw [length_reassembled]; omega) (accEmit (accShiftIn d.acc (dtabVal c)) (d.nb + 6#4 - 8#4))
    rw [length_reassembled, ← hdOut] at hwritten
    rw [← hdOut]
    exact hwritten

/-- One turn takes one more character in (R95). -/
theorem Reassembling.turn (hready : ReadyD p x r) (h : Reassembling p r part d) (hx : x = part ++ c :: rest)
    (hroom : 6 * (part.length + 1) / 8 ≤ docap p) : ∃ d', reassembleTurn p d = .ok d' ∧ Reassembling p r (part ++ [c]) d' := by
  by_cases hnb : d.nb.toNat = 0
  · exact h.turn_of_few hready hx hnb
  · exact h.turn_of_byte hready hx hnb hroom

/-- The turns of step 6 take the rest of the significant characters in. -/
theorem Reassembling.loop (hready : ReadyD p x r) (h : Reassembling p r part d) {pads : List Byte} (hx : x = part ++ rest ++ pads)
    (hroom : 6 * (part ++ rest).length / 8 ≤ docap p) :
    ∃ d', reassembleLoop p rest.length d = .ok d' ∧ Reassembling p r (part ++ rest) d' := by
  induction rest generalizing part d with
  | nil => exact ⟨d, rfl, by simpa using h⟩
  | cons c rest ih =>
    rw [List.length_append, List.length_cons] at hroom
    obtain ⟨d1, hturn, h1⟩ := h.turn (c := c) (rest := rest ++ pads) hready (by simp [hx]) (by omega)
    obtain ⟨d2, hloop, h2⟩ := ih h1 (by simp [hx]) (by simp; omega)
    refine ⟨d2, ?_, by simpa using h2⟩
    rw [List.length_cons, reassembleLoop, hturn]
    exact hloop

end loop

section run

variable {p : Params} {x : List Byte} {r : UnitRegs} {d : UnitD}

/-- The checks of a run are under way: nothing of the registers is written, and the text is a whole number of quanta (R97). -/
structure Checking (x : List Byte) (r : UnitRegs) (d : UnitD) : Prop where
  regs : d.regs = r
  ekind : d.ekind = .none
  nonempty : 0 < x.length
  quanta : x.length % 4 = 0

/-- After step 3: `PADCNT` is the number of trailing `=` (R92). -/
structure PaddingKnown (x : List Byte) (r : UnitRegs) (d : UnitD) : Prop extends Checking x r d where
  padcnt : d.padcnt.toNat = trailingPads x
  pads : trailingPads x ≤ 2

/-- A run of unit D on the text `x` from the registers `r`, stage by stage (R97). -/
def DecodeRun (p : Params) (x : List Byte) (r : UnitRegs) (d : UnitD) : Prop :=
  match d.stg with
  | .lengthChecked => Checking x r d
  | .paddingCounted => PaddingKnown x r d
  | .charScan => PaddingKnown x r d ∧ d.di.toNat ≤ x.length - trailingPads x ∧ ∀ c ∈ x.take d.di.toNat, dtabInv c = false
  | .paddingBitsChecked => PaddingKnown x r d ∧ ∃ out, base64Decode x = .ok out
  | .reassembled => d.regs = { r with obuf := d.regs.obuf } ∧ d.ekind = .none ∧
      ∃ out, base64Decode x = .ok out ∧ d.dOut.toNat = out.length ∧ Overwrites (docap p) r.obuf out d.regs.obuf
  | .done | .failed | .start => RunEffect (docap p) r (base64Decode x) d.regs d.ekind

theorem decodeRun_raiseFail {k : FailKind} (hregs : d.regs = r) (h : base64Decode x = .error k) : DecodeRun p x r (raiseFail k d) := by
  show RunEffect (docap p) r (base64Decode x) d.regs.failed (.fail k)
  rw [h, hregs]
  exact .failed k

/-- Steps 1 and 2 (R90, R91). -/
theorem checkLength_decodeRun (hready : ReadyD p x d.regs) (hkind : d.ekind = .none) : DecodeRun p x d.regs (checkLength d) := by
  have hlength := hready.length
  rcases checkLength_cases d with ⟨hempty, h⟩ | ⟨hquanta, h⟩ | ⟨hpos, hquanta, h⟩ <;> rw [h]
  · obtain rfl : x = [] := List.eq_nil_of_length_eq_zero (hlength.trans hempty)
    show RunEffect (docap p) d.regs (.ok []) { d.regs with res := .ok } d.ekind
    rw [hkind]
    have hresult := RunEffect.succeeded (cap := docap p) (r := d.regs) [] d.regs.obuf d.regs.olen .nothing (by rw [hready.olen]; rfl)
    rw [← hready.rptr] at hresult
    exact hresult
  · obtain ⟨hfail, -⟩ := decodeFailureOrder x
    exact decodeRun_raiseFail rfl (hfail.2 (hlength ▸ hquanta))
  · exact ⟨rfl, hkind, hlength ▸ hpos, hlength ▸ hquanta⟩

/-- Step 3 (R92). -/
theorem discoverPadding_decodeRun (hready : ReadyD p x r) (h : Checking x r d) :
    ∃ d', discoverPadding p d = .ok d' ∧ DecodeRun p x r d' := by
  have hpos := h.nonempty
  have hquanta := h.quanta
  have hread (i : Nat) (hi : 0 < i) : textAt p d (d.regs.ilen.toNat - i) = .ok (charAt x (x.length - i)) := by
    rw [h.regs, ← hready.length]
    exact hready.textAt (by rw [h.regs]) (by omega)
  have hcount := (countPadding_eq (t := x) (by omega)).symm
  refine ⟨_, discoverPadding_of_chars (hread 1 (by decide)) (hread 2 (by decide)) (hread 3 (by decide)), ?_⟩
  simp only [countPadding] at hcount
  by_cases htwo : trailingPads x ≤ 2
  · rw [if_pos htwo] at hcount
    split_ifs at hcount ⊢
    all_goals exact ⟨⟨h.regs, h.ekind, hpos, hquanta⟩, (Option.some.inj hcount).symm, htwo⟩
  · obtain ⟨-, hfail, -⟩ := decodeFailureOrder x
    rw [if_neg htwo] at hcount
    split_ifs at hcount ⊢
    exact decodeRun_raiseFail h.regs (hfail.2 ⟨hquanta, not_le.1 htwo⟩)

theorem PaddingKnown.prefixLen (hready : ReadyD p x r) (h : PaddingKnown x r d) : prefixLen d = x.length - trailingPads x := by
  rw [Machine.prefixLen, h.regs, ← hready.length, h.padcnt]

/-- A turn of the scan (R93). -/
theorem scanChar_decodeRun_of_lt (hready : ReadyD p x r) (h : PaddingKnown x r d) (hstg : d.stg = .charScan)
    (hlt : d.di.toNat < x.length - trailingPads x) (hscanned : ∀ c ∈ x.take d.di.toNat, dtabInv c = false) :
    ∃ d', scanChar p d = .ok d' ∧ DecodeRun p x r d' := by
  have hlong : d.di.toNat < x.length := hlt.trans_le (Nat.sub_le ..)
  have hget : x[d.di.toNat]? = some (charAt x d.di.toNat) := by
    rw [charAt, List.getD_eq_getElem?_getD, List.getElem?_eq_getElem hlong, Option.getD_some]
  refine ⟨_, scanChar_of_char (by rw [h.prefixLen hready]; exact hlt) (hready.textAt (by rw [h.regs]) hlong), ?_⟩
  by_cases hinv : dtabInv (charAt x d.di.toNat) = true
  · obtain ⟨-, -, hfail, -⟩ := decodeFailureOrder x
    have hmem : charAt x d.di.toNat ∈ x.take (x.length - trailingPads x) :=
      List.mem_of_getElem? ((List.getElem?_take_of_lt hlt).trans hget)
    rw [if_pos hinv]
    exact decodeRun_raiseFail h.regs (hfail.2 ⟨h.quanta, h.pads, _, hmem, hinv⟩)
  · have hdi : (d.di + 1#16).toNat = d.di.toNat + 1 := toNat_di_add_one hlong (by rw [h.regs, hready.length])
    rw [if_neg hinv]
    simp only [DecodeRun, hstg, hdi, List.take_add_one, hget, Option.toList_some, List.mem_append, List.mem_singleton]
    refine ⟨⟨⟨h.regs, h.ekind, h.nonempty, h.quanta⟩, h.padcnt, h.pads⟩, hlt, ?_⟩
    rintro c (hc | rfl)
    · exact hscanned c hc
    · simpa using hinv

/-- The end of the scan, and step 5 (R94). -/
theorem scanChar_decodeRun_of_end (hready : ReadyD p x r) (h : PaddingKnown x r d)
    (hend : d.di.toNat = x.length - trailingPads x) (hscanned : ∀ c ∈ x.take d.di.toNat, dtabInv c = false) :
    ∃ d', scanChar p d = .ok d' ∧ DecodeRun p x r d' := by
  have hpos := h.nonempty
  have hread : textAt p d (d.regs.ilen.toNat - d.padcnt.toNat - 1) = .ok (charAt x (x.length - trailingPads x - 1)) := by
    rw [h.regs, ← hready.length, h.padcnt]
    exact hready.textAt (by rw [h.regs]) (by omega)
  rw [hend] at hscanned
  refine ⟨_, scanChar_of_end (by rw [h.prefixLen hready, hend]) (h.padcnt ▸ h.pads) hread, ?_⟩
  rw [h.padcnt]
  split
  next hbits =>
    obtain ⟨-, -, -, hfail⟩ := decodeFailureOrder x
    exact decodeRun_raiseFail h.regs (hfail.2 ⟨h.quanta, h.pads, hscanned, (padBits_of_text x).1 hbits⟩)
  next hbits =>
    have hvalid : ValidText x := (validText_iff x).2 ⟨h.quanta, h.pads, hscanned, hbits⟩
    exact ⟨⟨⟨h.regs, h.ekind, h.nonempty, h.quanta⟩, h.padcnt, h.pads⟩, (validText_iff_decode x).1 hvalid⟩

/-- Step 6 (R95). -/
theorem reassemble_decodeRun (hready : ReadyD p x r) (h : PaddingKnown x r d) {out : List Byte} (hout : base64Decode x = .ok out) :
    ∃ d', reassemble p d = .ok d' ∧ DecodeRun p x r d' := by
  have hpos := h.nonempty
  have hquanta := h.quanta
  have hpads := h.pads
  have hlength := hready.length
  have hroom := hready.room
  obtain ⟨rfl, -⟩ | ⟨-, -, -, hbytes⟩ := base64Decode_ok hout
  · exact absurd hpos (Nat.lt_irrefl 0)
  have htake : (x.take (x.length - trailingPads x)).length = x.length - trailingPads x := List.length_take_of_le (Nat.sub_le ..)
  have hstart : Reassembling p r [] { d with acc := 0#12, nb := 0#4, di := 0#16, dOut := 0#16 } :=
    ⟨by rw [h.regs], rfl, rfl, rfl, rfl, by rw [h.regs]; exact .nothing⟩
  obtain ⟨d', hloop, hend⟩ := hstart.loop hready (rest := x.take (x.length - trailingPads x)) (pads := x.drop (x.length - trailingPads x))
    (by rw [List.nil_append, List.take_append_drop]) (by rw [List.nil_append, htake, docap]; omega)
  obtain ⟨-, hkind, -⟩ := reassembleLoop_keeps hloop
  have hcount : 6 * (x.take (x.length - trailingPads x)).length / 8 = 3 * (x.length / 4) - trailingPads x := by
    rw [htake]
    omega
  refine ⟨{ d' with stg := .reassembled }, ?_, hend.regs, hkind.trans h.ekind, out, hout, ?_, ?_⟩
  · rw [reassemble, h.prefixLen hready, ← htake, hloop]
    rfl
  · rw [hbytes, length_reassembled, ← hcount]
    exact hend.dOut
  · rw [hbytes, ← hcount]
    exact hend.written

/-- The end of step 6 (R97). -/
theorem reassembled_decodeRun (hready : ReadyD p x r) (hregs : d.regs = { r with obuf := d.regs.obuf }) (hkind : d.ekind = .none)
    {out : List Byte} (hout : base64Decode x = .ok out) (hdOut : d.dOut.toNat = out.length)
    (hwritten : Overwrites (docap p) r.obuf out d.regs.obuf) :
    RunEffect (docap p) r (base64Decode x) { d.regs with olen := d.dOut, res := .ok } d.ekind := by
  have hresult : { d.regs with olen := d.dOut, res := .ok } = { r with obuf := d.regs.obuf, olen := d.dOut, rptr := 0#16, res := .ok } := by
    rw [← hready.rptr]
    exact congrArg (fun q : UnitRegs => { q with olen := d.dOut, res := .ok }) hregs
  rw [hresult, hkind, hout]
  exact .succeeded _ _ _ hwritten hdOut

/-- Every transition of a run that has started answers and goes on with the run (R97). -/
theorem stageD_decodeRun (hready : ReadyD p x r) (h : DecodeRun p x r d) (hstg : d.stg ≠ .start) :
    ∃ d', stageD p d = .ok d' ∧ DecodeRun p x r d' := by
  cases hs : d.stg <;> simp only [DecodeRun, hs] at h
  case start => exact absurd hs hstg
  case lengthChecked => rw [stageD_of_lengthChecked hs]; exact discoverPadding_decodeRun hready h
  case paddingCounted =>
    exact ⟨_, stageD_of_paddingCounted hs, ⟨⟨h.regs, h.ekind, h.nonempty, h.quanta⟩, h.padcnt, h.pads⟩, Nat.zero_le _, by simp⟩
  case charScan =>
    obtain ⟨hknown, hle, hscanned⟩ := h
    rw [stageD_of_charScan hs]
    rcases hle.lt_or_eq with hlt | hend
    · exact scanChar_decodeRun_of_lt hready hknown hs hlt hscanned
    · exact scanChar_decodeRun_of_end hready hknown hend hscanned
  case paddingBitsChecked =>
    obtain ⟨hknown, out, hout⟩ := h
    rw [stageD_of_paddingBitsChecked hs]
    exact reassemble_decodeRun hready hknown hout
  case reassembled =>
    obtain ⟨hregs, hkind, out, hout, hdOut, hwritten⟩ := h
    exact ⟨_, stageD_of_reassembled hs, reassembled_decodeRun hready hregs hkind hout hdOut hwritten⟩
  case done => exact ⟨_, stageD_of_end (.inl hs), h⟩
  case failed => exact ⟨_, stageD_of_end (.inr hs), h⟩

/-- A run of unit D that is ready ends with the outcome of `decode` on the text (R89). -/
theorem runD_effect (hready : ReadyD p x d.regs) (hstg : d.stg = .start) (hkind : d.ekind = .none) :
    ∃ d', runD p (turnsD d.regs.ilen.toNat) d = .ok d' ∧ RunEffect (docap p) d.regs (base64Decode x) d'.regs d'.ekind := by
  obtain ⟨d', hrun, hend, hstart⟩ := runD_of_progress (fun a => stageD_decodeRun hready) (checkLength_decodeRun hready hkind)
    (checkLength_stg_ne_start d) (turnsLeftD_checkLength d)
  rw [runD_of_start _ hstg]
  refine ⟨d', hrun, ?_⟩
  simpa only [DecodeRun, hstart] using hend

end run

end Sys2Proof.Machine
end

section
/-! PROOFS. The two run commands: what they compute, what they answer, and what their result depends on (41_encoder.md R76, R86;
42_decoder.md R89, R99, R100). -/

namespace Sys2Proof.Machine

/-- What the run of each unit computes of its input message (R76, R89). -/
def codec : UnitId → List Byte → Except FailKind (List Byte)
  | .e, b => .ok (base64Encode b)
  | .d, x => base64Decode x

/-- The run command of each unit (R49). -/
def runOf : UnitId → Instr
  | .e => .enc
  | .d => .dec

theorem eq_runOf {i : Instr} (hk : kindOf i = .run) : i = runOf (unitOf i) :=
  match i, hk with
  | .enc, _ => rfl
  | .dec, _ => rfl

/-- The answer of a run that was not refused (R76, R104). -/
def runAnswer : Except FailKind (List Byte) → Word
  | .ok _ => 0x0800#16
  | .error k => 0x1000#16 ||| ((EKind.fail k).code.setWidth 16 <<< 8)

section effect

variable {cap cap' : Nat} {r r' r1 r2 : UnitRegs} {c : Except FailKind (List Byte)} {out : List Byte} {k k' k1 k2 : EKind} {f : FailKind}

/-- The first line of a run writes nothing that its end does not write again (R76, R89). -/
theorem RunEffect.of_begun (h : RunEffect cap { r with olen := 0#16, rptr := 0#16 } c r' k) : RunEffect cap r c r' k := by
  cases h with
  | succeeded out m n written length => exact .succeeded out m n written length
  | failed k => exact .failed k

theorem RunEffect.of_ok (h : RunEffect cap r (.ok out) r' k) :
    ∃ m n, Overwrites cap r.obuf out m ∧ n.toNat = out.length ∧
      r' = { r with obuf := m, olen := n, rptr := 0#16, res := .ok } ∧ k = .none := by
  cases h with
  | succeeded out m n written length => exact ⟨m, n, written, length, rfl, rfl⟩

theorem RunEffect.of_error (h : RunEffect cap r (.error f) r' k) : r' = r.failed ∧ k = .fail f := by
  cases h with
  | failed k => exact ⟨rfl, rfl⟩

/-- A run does not write its input or the overflow flag (R43), and leaves the pointer at 0. -/
theorem RunEffect.input (h : RunEffect cap r c r' k) : r'.ibuf = r.ibuf ∧ r'.ilen = r.ilen ∧ r'.ovf = r.ovf ∧ r'.rptr = 0#16 := by
  cases h with
  | succeeded | failed => exact ⟨rfl, rfl, rfl, rfl⟩

theorem RunEffect.sWord (h : RunEffect cap r c r' k) (hovf : r.ovf = false) : sWord false false r'.ovf r'.res k 0#8 = runAnswer c := by
  cases h with
  | succeeded out m n => rw [hovf]; exact Flags.ok.sWord_status
  | failed f => rw [show r.failed.ovf = r.ovf from rfl, hovf]; exact (Flags.malformed f).sWord_status

/-- The result of a successful run, as the unit's message. -/
theorem RunEffect.result (h : RunEffect cap r (.ok out) r' k) : r'.res = .ok ∧ Memory.firstN r'.obuf r'.olen.toNat = some out := by
  obtain ⟨m, n, written, length, rfl, -⟩ := h.of_ok
  refine ⟨rfl, ?_⟩
  rw [length]
  exact written.message

/-- The same outcome again from what a run leaves changes nothing (R86, R99). -/
theorem RunEffect.again (h : RunEffect cap r c r1 k1) (h' : RunEffect cap r1 c r2 k2) (hfits : Memory.Fits cap r.obuf) :
    r2 = r1 ∧ k2 = k1 := by
  cases h with
  | succeeded out m n written length =>
    obtain ⟨m', n', written', length', rfl, rfl⟩ := h'.of_ok
    obtain rfl : m' = m := written.again written' hfits
    obtain rfl : n' = n := BitVec.eq_of_toNat_eq (length'.trans length.symm)
    exact ⟨rfl, rfl⟩
  | failed f =>
    obtain ⟨rfl, rfl⟩ := h'.of_error
    exact ⟨rfl, rfl⟩

/-- The same outcome from two units shows the same result, whatever the units held before (R86, R99). -/
theorem RunEffect.agree (h : RunEffect cap r c r1 k1) (h' : RunEffect cap' r' c r2 k2) :
    Memory.firstN r1.obuf r1.olen.toNat = Memory.firstN r2.obuf r2.olen.toNat ∧ r1.olen = r2.olen ∧ r1.res = r2.res ∧ k1 = k2 := by
  cases h with
  | succeeded out m n written length =>
    obtain ⟨m', n', written', length', rfl, rfl⟩ := h'.of_ok
    obtain rfl : n' = n := BitVec.eq_of_toNat_eq (length'.trans length.symm)
    refine ⟨?_, rfl, rfl, rfl⟩
    show Memory.firstN m n'.toNat = Memory.firstN m' n'.toNat
    rw [length, written.message, written'.message]
  | failed f =>
    obtain ⟨rfl, rfl⟩ := h'.of_error
    exact ⟨rfl, rfl, rfl, rfl⟩

end effect

/-- A run of unit `u` is not refused and has its input message `b` before it, within what R6 allows. -/
structure CanRun (u : UnitId) (s : State) (b : List Byte) : Prop where
  message : inMessage u s = some b
  room : (getRegs u s).ilen.toNat ≤ icap s.cfg u
  noWrap : u = .e → (getRegs u s).ilen.toNat ≤ 49149
  noOverflow : (getRegs u s).ovf = false

section run

variable {u : UnitId} {s t : State} {b : List Byte} {i : Instr}

/-- A run that is not refused completes with the outcome of the codec (R76, R89). -/
theorem exec_runOf_effect (h : CanRun u s b) :
    ∃ t, exec (runOf u) s = .next t ∧ RunEffect (ocap s.cfg u) (getRegs u s) (codec u b) (getRegs u t) (readEkind u t) := by
  cases u with
  | e =>
    obtain ⟨e, hrun, heffect⟩ := runE_effect (p := s.cfg) (b := b) (e := (beginRun .e s).e) ⟨h.message, h.room, h.noWrap rfl, rfl⟩
    exact ⟨_, execEnc_of_runE h.noOverflow hrun, heffect.of_begun⟩
  | d =>
    obtain ⟨d, hrun, heffect⟩ := runD_effect (p := s.cfg) (x := b) (d := { (beginRun .d s).d with stg := .start })
      ⟨h.message, h.room, rfl, rfl⟩ rfl rfl
    exact ⟨_, execDec_of_runD h.noOverflow hrun, heffect.of_begun⟩

theorem exec_runOf_refused (hovf : (getRegs u s).ovf = true) : exec (runOf u) s = .next (raiseFault u (beginRun u s)) := by
  cases u with
  | e => exact execEnc_of_ovf hovf
  | d => exact execDec_of_ovf hovf

/-- A run answers the status of its unit as it leaves it (R47). -/
theorem exec_run_resps (hk : kindOf i = .run) (h : exec i s = .next t) :
    t.resps = s.resps ++ [statusWord (unitOf i) false 0#8 t] := by
  have hanswer := exec_answer h
  rw [hk] at hanswer
  generalize unitOf i = u at hanswer ⊢
  cases hanswer with
  | status _ x noPop noOutLength noInLength resps => exact resps ▸ respondStatus_resps u false 0#8 x

/-- What a command leaves alone: the capacities, the port and the other unit (R40). -/
theorem exec_frame (h : exec i s = .next t) :
    (unitOf i = .e → t.d = s.d) ∧ (unitOf i = .d → t.e = s.e) ∧ t.cfg = s.cfg ∧ t.port = s.port := by
  obtain ⟨hframe, -⟩ := unitsDoNotInterfere
  exact hframe i s t h

/-- From the invariant a run is refused or can run (R22, R37). -/
theorem State.Inv.canRun (hinv : s.Inv) (hmessage : inMessage u s = some b) (hovf : (getRegs u s).ovf = false) : CanRun u s b where
  message := hmessage
  room := hinv.ilen_le u
  noWrap := by
    rintro rfl
    obtain ⟨-, hecap, -⟩ := Params.wf_iff.1 hinv.1
    exact (hinv.ilen_le .e).trans hecap
  noOverflow := hovf

theorem State.Inv.exists_inMessage (hinv : s.Inv) (u : UnitId) : ∃ b, inMessage u s = some b := by
  obtain ⟨-, -, -, -, -, -, -, -, hmessage, -⟩ := hinv.regs u
  exact Option.isSome_iff_exists.1 hmessage

/-- What a run does from the invariant: the refusal, or the outcome of the codec on the input message. -/
theorem exec_run_cases (hinv : s.Inv) (hk : kindOf i = .run) (h : exec i s = .next t) :
    ((getRegs (unitOf i) s).ovf = true ∧ t = raiseFault (unitOf i) (beginRun (unitOf i) s)) ∨
    ∃ b, CanRun (unitOf i) s b ∧
      RunEffect (ocap s.cfg (unitOf i)) (getRegs (unitOf i) s) (codec (unitOf i) b) (getRegs (unitOf i) t) (readEkind (unitOf i) t) := by
  rw [eq_runOf hk] at h
  by_cases hovf : (getRegs (unitOf i) s).ovf = true
  · exact .inl ⟨hovf, Host.Outcome.next.inj (h.symm.trans (exec_runOf_refused hovf))⟩
  · obtain ⟨b, hb⟩ := hinv.exists_inMessage (unitOf i)
    have hcan := hinv.canRun hb (by simpa using hovf)
    obtain ⟨t', ht', heffect⟩ := exec_runOf_effect hcan
    obtain rfl := Host.Outcome.next.inj (h.symm.trans ht')
    exact .inr ⟨b, hcan, heffect⟩

/-- The answer of a run that was not refused. -/
theorem resps_of_runEffect {c : Except FailKind (List Byte)} (h : exec (runOf u) s = .next t) (hovf : (getRegs u s).ovf = false)
    (heffect : RunEffect (ocap s.cfg u) (getRegs u s) c (getRegs u t) (readEkind u t)) : t.resps = s.resps ++ [runAnswer c] := by
  have hresps := exec_run_resps (by cases u <;> rfl) h
  rw [show unitOf (runOf u) = u by cases u <;> rfl] at hresps
  rw [hresps, statusWord, heffect.sWord hovf]

theorem execEnc_stg (hovf : s.e.regs.ovf = false) (h : execEnc s = .next t) : t.e.stg = .idle := by
  rcases execEnc_next h with ⟨hrefused, -⟩ | ⟨-, e, hrun, rfl⟩
  · simp [hovf] at hrefused
  · obtain ⟨-, -, -, -, -, hidle⟩ := runE_keeps hrun
    exact hidle

theorem execDec_stg (hovf : s.d.regs.ovf = false) (h : execDec s = .next t) : t.d.stg = .start := by
  rcases execDec_next h with ⟨hrefused, -⟩ | ⟨-, d, hrun, rfl⟩
  · simp [hovf] at hrefused
  · obtain ⟨-, -, -, -, hstart⟩ := runD_keeps hrun
    exact hstart

end run

/-- Settles O39: the run ends with the text of the payload, and the frame of a command is the rest. -/
theorem encComputesEncode : Obligations.EncComputesEncode := by
  unfold Obligations.EncComputesEncode
  intro s b hwf hroom hovf hmessage
  obtain ⟨-, hecap, -⟩ := Params.wf_iff.1 hwf
  obtain ⟨t, hexec, heffect⟩ := exec_runOf_effect (u := .e) ⟨hmessage, hroom, fun _ => hroom.trans hecap, hovf⟩
  obtain ⟨m, n, written, length, hregs, -⟩ := heffect.of_ok
  obtain ⟨-, hout⟩ := heffect.result
  obtain ⟨hd, -, hcfg, hport⟩ := exec_frame hexec
  have hregs : t.e.regs = { s.e.regs with obuf := m, olen := n, rptr := 0#16, res := .ok } := hregs
  refine ⟨t, hexec, hout, ?_, by rw [hregs], by rw [hregs], rfl, resps_of_runEffect hexec hovf heffect, ?_, by rw [hregs]; exact fun _ => rfl,
    by rw [hregs], by rw [hregs]; exact hovf, execEnc_stg hovf hexec, hd rfl, hcfg, hport⟩
  · have hlength := (Memory.firstN_eq_some.1 hmessage).1
    rw [hregs]
    rw [length, length_base64Encode, hlength]
    rfl
  · rw [hregs]
    exact fun i hi => written.above i (length ▸ hi)

/-- Settles O45: the run ends with the outcome of `decode` on the text, and the frame of a command is the rest. -/
theorem decComputesDecode : Obligations.DecComputesDecode := by
  unfold Obligations.DecComputesDecode
  intro s x hwf hroom hovf hmessage
  obtain ⟨t, hexec, heffect⟩ := exec_runOf_effect (u := .d) ⟨hmessage, hroom, nofun, hovf⟩
  obtain ⟨hibuf, hilen, hkeep, hrptr⟩ := heffect.input
  obtain ⟨-, he, hcfg, hport⟩ := exec_frame hexec
  have hresps := resps_of_runEffect hexec hovf heffect
  have hibuf : t.d.regs.ibuf = s.d.regs.ibuf := hibuf
  refine ⟨t, hexec, fun out hout => ?_, fun k hk => ?_, hrptr, by rw [hibuf]; exact fun _ => rfl, hilen, hkeep.trans hovf,
    execDec_stg hovf hexec, he rfl, hcfg, hport⟩
  · rw [codec, hout] at heffect hresps
    obtain ⟨m, n, written, length, hregs, hkind⟩ := heffect.of_ok
    obtain ⟨hres, hresult⟩ := heffect.result
    have hregs : t.d.regs = { s.d.regs with obuf := m, olen := n, rptr := 0#16, res := .ok } := hregs
    refine ⟨hresult, by rw [hregs]; exact length, hres, hkind, hresps, ?_⟩
    rw [hregs]
    exact fun i hi => written.above i (length ▸ hi)
  · rw [codec, hk] at heffect hresps
    obtain ⟨hregs, hkind⟩ := heffect.of_error
    have hregs : t.d.regs = s.d.regs.failed := hregs
    exact ⟨by rw [hregs]; rfl, by rw [hregs]; rfl, hkind, hresps, by rw [hregs]; exact fun _ => rfl⟩

end Sys2Proof.Machine
end

section
/-! PROOFS. The round trip, repeated runs and what a result depends on (42_decoder.md R99, R100), and the first answers after reset
(70_reset_and_hazards.md R124). -/

namespace Sys2Proof.Machine

/-- Settles O50: `ENC` leaves the text of the payload, and `DEC` decodes that text. -/
theorem roundTripThroughBothUnits : Obligations.RoundTripThroughBothUnits := by
  unfold Obligations.RoundTripThroughBothUnits
  refine ⟨base64Decode_base64Encode, fun s t s' b hinv hmessage hovf hexec hinv' hovf' hmoved => ?_⟩
  obtain ⟨t1, hexec1, heffect⟩ := exec_runOf_effect (hinv.canRun (u := .e) hmessage hovf)
  obtain rfl := Host.Outcome.next.inj (hexec1.symm.trans hexec)
  obtain ⟨-, hout⟩ := heffect.result
  obtain ⟨t', hexec', heffect'⟩ := exec_runOf_effect (hinv'.canRun (u := .d) (hmoved.trans hout) hovf')
  rw [codec, base64Decode_base64Encode] at heffect'
  exact ⟨t', hexec', heffect'.result⟩

section again

variable {i : Instr} {s t x : State}

/-- From what a run leaves, the same run gives the same registers and kind. -/
theorem exec_run_again (hinv : s.Inv) (hk : kindOf i = .run) (h : exec i s = .next t) :
    ∃ x, exec i t = .next x ∧ getRegs (unitOf i) x = getRegs (unitOf i) t ∧ readEkind (unitOf i) x = readEkind (unitOf i) t := by
  obtain ⟨-, -, hcfg, -⟩ := exec_frame h
  rcases exec_run_cases hinv hk h with ⟨hovf, rfl⟩ | ⟨b, hcan, heffect⟩
  · refine ⟨_, (congrArg (exec · _) (eq_runOf hk)).trans (exec_runOf_refused (by simpa using hovf)), by simp, by simp⟩
  · obtain ⟨hibuf, hilen, hkeep, -⟩ := heffect.input
    have hcan' : CanRun (unitOf i) t b :=
      ⟨by rw [inMessage, hibuf, hilen]; exact hcan.message, by rw [hilen, hcfg]; exact hcan.room, by rw [hilen]; exact hcan.noWrap,
        hkeep.trans hcan.noOverflow⟩
    obtain ⟨x, hexec, heffect'⟩ := exec_runOf_effect hcan'
    rw [← eq_runOf hk] at hexec
    rw [hcfg] at heffect'
    obtain ⟨-, hobuf, -⟩ := hinv.regs (unitOf i)
    exact ⟨x, hexec, heffect.again heffect' hobuf⟩

end again

/-- Settles O52: the input and the outcome of the codec are the same, and so is the buffer, which is in canonical form. -/
theorem runTwiceGivesSameResult : Obligations.RunTwiceGivesSameResult := by
  unfold Obligations.RunTwiceGivesSameResult
  intro i s t hinv hk h
  obtain ⟨x, hexec, hregs, hkind⟩ := exec_run_again hinv hk h
  refine ⟨x, statusWord (unitOf i) false 0#8 t, hexec, hregs, hkind, (exec_run_outputs hk hexec).1, exec_run_resps hk h, ?_⟩
  rw [exec_run_resps hk hexec, statusWord, statusWord, hregs, hkind]

/-- Settles O53: the codec reads the input message alone, and the flag decides whether it is asked. -/
theorem runDependsOnlyOnInput : Obligations.RunDependsOnlyOnInput := by
  unfold Obligations.RunDependsOnlyOnInput
  intro i s s' t t' hinv hinv' hk hmessage hovf h h'
  have hresps := exec_run_resps hk h
  have hresps' := exec_run_resps hk h'
  have hagree : outMessage (unitOf i) t = outMessage (unitOf i) t' ∧ (getRegs (unitOf i) t).olen = (getRegs (unitOf i) t').olen ∧
      (getRegs (unitOf i) t).res = (getRegs (unitOf i) t').res ∧ readEkind (unitOf i) t = readEkind (unitOf i) t' ∧
      (getRegs (unitOf i) t).ovf = (getRegs (unitOf i) t').ovf := by
    rcases exec_run_cases hinv hk h with ⟨hrefused, rfl⟩ | ⟨b, hcan, heffect⟩
    · rcases exec_run_cases hinv' hk h' with ⟨hrefused', rfl⟩ | ⟨b', hcan', -⟩
      · simp [outMessage, Memory.firstN, hovf]
      · simp [hcan'.noOverflow, hovf] at hrefused
    · rcases exec_run_cases hinv' hk h' with ⟨hrefused', -⟩ | ⟨b', hcan', heffect'⟩
      · simp [hcan.noOverflow, hrefused'] at hovf
      · obtain rfl : b = b' := Option.some.inj (hcan.message.symm.trans (hmessage.trans hcan'.message))
        obtain ⟨hout, holen, hres, hkind⟩ := heffect.agree heffect'
        obtain ⟨-, -, hkeep, -⟩ := heffect.input
        obtain ⟨-, -, hkeep', -⟩ := heffect'.input
        exact ⟨hout, holen, hres, hkind, by rw [hkeep, hkeep', hovf]⟩
  obtain ⟨hout, holen, hres, hkind, hflag⟩ := hagree
  refine ⟨hout, holen, hres, hkind, _, hresps, ?_⟩
  rw [hresps', statusWord, statusWord, hflag, hres, hkind]

section reset

variable {u : UnitId} {s : State}

/-- The word of a unit that has no result (R47). -/
theorem statusWord_of_reset (hregs : getRegs u s = UnitRegs.reset) (hkind : readEkind u s = .none) :
    statusWord u false 0#8 s = 0x0000#16 ∧ statusWord u true 0#8 s = 0x4000#16 := by
  rw [statusWord, statusWord, hregs, hkind]
  exact ⟨rfl, rfl⟩

/-- A run right after reset succeeds on the empty message (R124). -/
theorem exec_runOf_of_reset (hregs : getRegs u s = UnitRegs.reset) :
    ∃ t, exec (runOf u) s = .next t ∧ t.resps = s.resps ++ [0x0800#16] ∧ outMessage u t = some [] ∧ (getRegs u t).olen = 0#16 := by
  have hcan : CanRun u s [] := by
    refine ⟨?_, ?_, fun _ => ?_, ?_⟩
    · rw [inMessage, hregs]
      rfl
    · rw [hregs]
      exact Nat.zero_le _
    · rw [hregs]
      exact Nat.zero_le _
    · rw [hregs]
      rfl
  obtain ⟨t, hexec, heffect⟩ := exec_runOf_effect hcan
  have hresps := resps_of_runEffect hexec hcan.noOverflow heffect
  rw [show codec u [] = .ok [] by cases u <;> rfl] at heffect hresps
  obtain ⟨-, hout⟩ := heffect.result
  exact ⟨t, hexec, hresps, hout, BitVec.eq_of_toNat_eq (Memory.firstN_eq_some.1 hout).1.symm⟩

theorem popUnit_of_reset (hregs : getRegs u s = UnitRegs.reset) (hkind : readEkind u s = .none) :
    popUnit u s = .next (respond 0x4000#16 s) := by
  rw [popUnit_of_not_ok (by rw [hregs]; nofun), (statusWord_of_reset hregs hkind).2]

theorem statusUnit_of_reset (hregs : getRegs u s = UnitRegs.reset) (hkind : readEkind u s = .none) :
    statusUnit u s = respond 0x0000#16 s := by
  rw [statusUnit, respondStatus, (statusWord_of_reset hregs hkind).1]

theorem lenUnits_of_reset (hregs : getRegs u s = UnitRegs.reset) :
    outLenUnit u s = respond 0x0000#16 s ∧ inLenUnit u s = respond 0x0000#16 s := by
  rw [outLenUnit, inLenUnit, hregs]
  exact ⟨rfl, rfl⟩

end reset

/-- Settles O11: a run encodes or decodes the empty message, a pop finds no result, and every register answered is 0. -/
theorem firstAnswersAfterReset : Obligations.FirstAnswersAfterReset := by
  unfold Obligations.FirstAnswersAfterReset
  intro s hreset i hk
  obtain ⟨hregs, hkind⟩ := hreset (unitOf i)
  cases i with
  | epush | dpush => exact absurd rfl hk
  | enc | dec =>
    obtain ⟨t, hexec, hresps, hout⟩ := exec_runOf_of_reset hregs
    exact ⟨t, hexec, hresps, fun _ => hout⟩
  | epop | dpop => exact ⟨_, popUnit_of_reset hregs hkind, rfl, nofun⟩
  | eclr | dclr => exact ⟨_, congrArg Host.Outcome.next clearUnit_eq, rfl, nofun⟩
  | estat | dstat => exact ⟨_, congrArg Host.Outcome.next (statusUnit_of_reset hregs hkind), rfl, nofun⟩
  | eolen | dolen => exact ⟨_, congrArg Host.Outcome.next (lenUnits_of_reset hregs).1, rfl, nofun⟩
  | eilen | dilen => exact ⟨_, congrArg Host.Outcome.next (lenUnits_of_reset hregs).2, rfl, nofun⟩

end Sys2Proof.Machine
end

section
/-! PROOFS. The range invariants of 10_state.md R22, unit by unit, and that every step keeps them. -/

namespace Sys2Proof.Machine

/-- The unit's stage between commands (R17). -/
def Idle : UnitId → State → Prop
  | .e, s => s.e.stg = .idle
  | .d, s => s.d.stg = .start

/-- Items 7 and 8 of R22: the length of a result. -/
def HasResultLength : UnitId → UnitRegs → Prop
  | .e, r => r.olen.toNat = (r.ilen.toNat + 2) / 3 * 4
  | .d, r => r.ilen.toNat % 4 = 0 ∧
      ∀ t ∈ Memory.firstN r.ibuf r.ilen.toNat, trailingPads t ≤ 2 ∧ r.olen.toNat = 3 * (r.ilen.toNat / 4) - trailingPads t

/-- What R22 says of either unit. -/
structure UnitInv (u : UnitId) (s : State) : Prop where
  regs : (getRegs u s).Inv (icap s.cfg u) (ocap s.cfg u)
  kind : (getRegs u s).res = .malformed ↔ readEkind u s ≠ .none
  length : (getRegs u s).res = .ok → HasResultLength u (getRegs u s)
  idle : Idle u s

theorem State.inv_iff {s : State} : s.Inv ↔ s.cfg.wf = true ∧ ∀ u, UnitInv u s := by
  constructor
  · intro h
    refine ⟨h.1, fun u => ⟨h.regs u, h.malformed_iff u, ?_, ?_⟩⟩
    all_goals
      obtain ⟨-, ⟨-, hidle, -, helen⟩, ⟨-, hstart, -, hdlen⟩⟩ := h
      cases u
    · exact helen
    · exact hdlen
    · exact hidle
    · exact hstart
  · rintro ⟨hwf, hunits⟩
    obtain ⟨heregs, hekind, helen, heidle⟩ := hunits .e
    obtain ⟨hdregs, hdkind, hdlen, hdidle⟩ := hunits .d
    exact ⟨hwf, ⟨heregs, heidle, fun h => hekind.1 h rfl, helen⟩, ⟨hdregs, hdidle, hdkind, hdlen⟩⟩

section registers

variable {icap ocap : Nat} {k : CommandKind} {r r' : UnitRegs}

theorem UnitRegs.inv_reset : UnitRegs.reset.Inv icap ocap := by
  simp [UnitRegs.Inv, UnitRegs.reset, Memory.Fits, Memory.wf, Memory.firstN]

/-- Every command but a run keeps what R22 says of the registers. -/
theorem RegsStep.keeps_inv (h : RegsStep icap r k r') (hk : k ≠ .run) (hcap : icap ≤ 65535) (hr : r.Inv icap ocap) :
    r'.Inv icap ocap := by
  obtain ⟨hibuf, hobuf, hilen, hrptr, holen, hres, hovf, hfault, hin, hout⟩ := hr
  cases h with
  | refused | ran => exact absurd rfl hk
  | cleared => exact ⟨hibuf, hobuf, Nat.zero_le _, BitVec.le_refl _, Nat.zero_le _, fun _ => ⟨rfl, rfl⟩, nofun, nofun, rfl, rfl⟩
  | appended b room =>
    have hlen : (r.ilen + 1#16).toNat = r.ilen.toNat + 1 := BitVec.toNat_add_of_lt (by simp only [BitVec.toNat_ofNat]; omega)
    obtain ⟨bs, hbs⟩ := Option.isSome_iff_exists.1 hin
    refine ⟨Memory.fits_insert hibuf room b, hobuf, hlen.trans_le room, BitVec.le_refl _, Nat.zero_le _, fun _ => ⟨rfl, rfl⟩,
      fun h => absurd (hovf h).1 room.ne, nofun, ?_, rfl⟩
    rw [hlen, Memory.firstN_insert_succ b hbs]
    rfl
  | dropped noRoom =>
    exact ⟨hibuf, hobuf, hilen, BitVec.le_refl _, Nat.zero_le _, fun _ => ⟨rfl, rfl⟩, fun _ => ⟨hilen.antisymm noRoom, .inl rfl⟩, nofun,
      hin, rfl⟩
  | popped unread =>
    obtain ⟨hok, hlt⟩ := unread
    exact ⟨hibuf, hobuf, hilen, by bv_omega, holen, fun h => absurd hok h, hovf, hfault, hin, hout⟩
  | emptyPop | status | outLength | inLength => exact ⟨hibuf, hobuf, hilen, hrptr, holen, hres, hovf, hfault, hin, hout⟩

/-- A refused run keeps what R22 says of the registers (R105). -/
theorem UnitRegs.inv_refused (hovf : r.ovf = true) (hr : r.Inv icap ocap) :
    UnitRegs.Inv icap ocap { r with olen := 0#16, rptr := 0#16, res := .fault } := by
  obtain ⟨hibuf, hobuf, hilen, -, -, -, hfull, -, hin, -⟩ := hr
  exact ⟨hibuf, hobuf, hilen, BitVec.le_refl _, Nat.zero_le _, fun _ => ⟨rfl, rfl⟩, fun _ => ⟨(hfull hovf).1, .inr rfl⟩, fun _ => hovf, hin,
    rfl⟩

/-- A run keeps what R22 says of the registers, when the result fits. -/
theorem RunEffect.keeps_inv {c : Except FailKind (List Byte)} {kind : EKind} (h : RunEffect ocap r c r' kind) (hovf : r.ovf = false)
    (hfit : ∀ out, c = .ok out → out.length ≤ ocap) (hr : r.Inv icap ocap) : r'.Inv icap ocap := by
  obtain ⟨hibuf, hobuf, hilen, -, -, -, -, -, hin, -⟩ := hr
  have hflag (P : Prop) (h : r.ovf = true) : P := absurd h (by simp [hovf])
  cases h with
  | succeeded out m n written length =>
    refine ⟨hibuf, written.fits hobuf, hilen, Nat.zero_le _, length.trans_le (hfit out rfl), fun h => absurd rfl h, hflag _, nofun, hin,
      ?_⟩
    rw [length, written.message]
    rfl
  | failed f =>
    exact ⟨hibuf, hobuf, hilen, BitVec.le_refl _, Nat.zero_le _, fun _ => ⟨rfl, rfl⟩, hflag _, nofun, hin, rfl⟩

end registers

section codec

theorem icap_le {p : Params} (h : p.wf = true) (u : UnitId) : icap p u ≤ 65535 := by
  obtain ⟨-, hecap, -, hdcap⟩ := Params.wf_iff.1 h
  cases u with
  | e => exact hecap.trans (by decide)
  | d => exact hdcap

variable {u : UnitId} {b out : List Byte}

/-- A result fits the output buffer when its message fits the input buffer (R83, R96). -/
theorem length_codec_le {p : Params} (h : codec u b = .ok out) (hfit : b.length ≤ icap p u) : out.length ≤ ocap p u := by
  cases u with
  | e =>
    obtain rfl := Except.ok.inj h
    obtain ⟨-, -, -, hcap⟩ := encodeLength b
    exact hcap p hfit
  | d =>
    obtain ⟨-, -, hcap⟩ := decodeLength b out h
    exact hcap p hfit

/-- The result of the codec has the length that R22 asks for. -/
theorem hasResultLength_of_codec {r : UnitRegs} (h : codec u b = .ok out) (hmessage : Memory.firstN r.ibuf r.ilen.toNat = some b)
    (holen : r.olen.toNat = out.length) : HasResultLength u r := by
  have hilen := (Memory.firstN_eq_some.1 hmessage).1
  cases u with
  | e =>
    obtain rfl := Except.ok.inj h
    exact holen.trans ((length_base64Encode b).trans (by rw [hilen]))
  | d =>
    obtain ⟨hquanta, hpads, -⟩ := (validText_iff_decode b).2 ⟨out, h⟩
    obtain ⟨hlength, -⟩ := decodeLength b out h
    refine ⟨hilen ▸ hquanta, fun t ht => ?_⟩
    obtain rfl : b = t := Option.some.inj (hmessage.symm.trans ht)
    exact ⟨hpads, by rw [holen, hlength, hilen]⟩

end codec

section idle

variable (u v : UnitId) (r : UnitRegs) (k : EKind) (w : Word) (s : State)

@[simp] theorem idle_respond : Idle v (respond w s) ↔ Idle v s := by cases v <;> exact Iff.rfl
@[simp] theorem idle_setRegs : Idle v (setRegs u r s) ↔ Idle v s := by cases u <;> cases v <;> exact Iff.rfl
@[simp] theorem idle_writeEkind : Idle v (writeEkind u k s) ↔ Idle v s := by cases u <;> cases v <;> exact Iff.rfl
@[simp] theorem idle_respondStatus (empty : Bool) (data : Byte) : Idle v (respondStatus u empty data s) ↔ Idle v s := idle_respond ..
@[simp] theorem idle_raiseFault : Idle v (raiseFault u (beginRun u s)) ↔ Idle v s := by simp [raiseFault, beginRun]

end idle

section step

variable {i : Instr} {s t : State} {u : UnitId}

theorem runOf_idle (h : exec (runOf u) s = .next t) (hovf : (getRegs u s).ovf = false) : Idle u t := by
  cases u with
  | e => exact execEnc_stg hovf h
  | d => exact execDec_stg hovf h

theorem popUnit_idle (h : popUnit u s = .next t) (hidle : Idle u s) : Idle u t := by
  rcases popUnit_next h with ⟨v, -, -, rfl⟩ | ⟨-, rfl⟩
  · simpa using hidle
  · simpa using hidle

theorem pushUnit_idle {b : Byte} (h : pushUnit u b s = .next t) (hidle : Idle u s) : Idle u t := by
  obtain ⟨r, -, hnext⟩ := pushUnit_next (u := u) (b := b) (s := s)
  obtain rfl := Host.Outcome.next.inj (hnext.symm.trans h)
  simpa using hidle

theorem exec_run_idle (hk : kindOf i = .run) (h : exec i s = .next t) (hidle : Idle (unitOf i) s) : Idle (unitOf i) t := by
  rw [eq_runOf hk] at h
  by_cases hovf : (getRegs (unitOf i) s).ovf = true
  · obtain rfl := Host.Outcome.next.inj (h.symm.trans (exec_runOf_refused hovf))
    simpa using hidle
  · exact runOf_idle h (by simpa using hovf)

/-- Every command leaves its unit at its idle stage (R85, R97). -/
theorem exec_idle (h : exec i s = .next t) (hidle : Idle (unitOf i) s) : Idle (unitOf i) t := by
  cases i with
  | eclr | dclr =>
    obtain rfl := Host.Outcome.next.inj h
    simpa [clearUnit] using hidle
  | epush b | dpush b => exact pushUnit_idle h hidle
  | enc | dec => exact exec_run_idle rfl h hidle
  | epop | dpop => exact popUnit_idle h hidle
  | estat | dstat | eolen | dolen | eilen | dilen =>
    obtain rfl := Host.Outcome.next.inj h
    exact hidle

theorem UnitId.eq_d_of_ne (h : u ≠ .e) : u = .d := by cases u <;> trivial
theorem UnitId.eq_e_of_ne (h : u ≠ .d) : u = .e := by cases u <;> trivial

/-- A command leaves what R22 says of the other unit. -/
theorem exec_keeps_unitInv_other (h : exec i s = .next t) (hu : unitOf i ≠ u) (hs : UnitInv u s) : UnitInv u t := by
  obtain ⟨hd, he, hcfg, -⟩ := exec_frame h
  obtain ⟨hres, hkind⟩ := exec_outcome_other h hu
  have hregs := (exec_regsActOn h).other u (Ne.symm hu)
  have hidle : Idle u t ↔ Idle u s := by
    cases u with
    | e => rw [Idle, Idle, he (UnitId.eq_d_of_ne hu)]
    | d => rw [Idle, Idle, hd (UnitId.eq_e_of_ne hu)]
  exact ⟨by rw [hregs, hcfg]; exact hs.regs, by rw [hregs, hkind]; exact hs.kind, by rw [hregs]; exact hs.length, hidle.2 hs.idle⟩

/-- A run keeps what R22 says of its unit: it is refused, or leaves the outcome of the codec. -/
theorem exec_run_keeps_unitInv (hinv : s.Inv) (hk : kindOf i = .run) (h : exec i s = .next t) : UnitInv (unitOf i) t := by
  obtain ⟨-, hunits⟩ := State.inv_iff.1 hinv
  obtain ⟨hregs, hkind, -, hidle⟩ := hunits (unitOf i)
  have hkind' := (exec_outcome h).malformed_iff hkind
  have hidle' := exec_idle h hidle
  obtain ⟨-, -, hcfg, -⟩ := exec_frame h
  rcases exec_run_cases hinv hk h with ⟨hovf, rfl⟩ | ⟨b, hcan, heffect⟩
  · refine ⟨?_, hkind', by simp, hidle'⟩
    simpa using UnitRegs.inv_refused hovf hregs
  · have hmessage := hcan.message
    have hfit : b.length ≤ icap s.cfg (unitOf i) := (Memory.firstN_eq_some.1 hmessage).1.trans_le hcan.room
    refine ⟨?_, hkind', fun hok => ?_, hidle'⟩
    · rw [hcfg]
      exact heffect.keeps_inv hcan.noOverflow (fun out hout => length_codec_le hout hfit) hregs
    · obtain ⟨hibuf, hilen, -⟩ := heffect.input
      cases hc : codec (unitOf i) b with
      | error f =>
        rw [hc] at heffect
        rw [heffect.of_error.1] at hok
        cases hok
      | ok out =>
        rw [hc] at heffect
        refine hasResultLength_of_codec hc (by rw [hibuf, hilen]; exact hmessage) ?_
        exact (Memory.firstN_eq_some.1 heffect.result.2).1.symm

/-- A command that is no run keeps what R22 says of its unit. -/
theorem exec_keeps_unitInv_of_ne_run (hinv : s.Inv) (hk : kindOf i ≠ .run) (h : exec i s = .next t) : UnitInv (unitOf i) t := by
  obtain ⟨hwf, hunits⟩ := State.inv_iff.1 hinv
  obtain ⟨hregs, hkind, hlength, hidle⟩ := hunits (unitOf i)
  obtain ⟨-, -, hcfg, -⟩ := exec_frame h
  have hstep := (exec_regsActOn h).own
  refine ⟨?_, (exec_outcome h).malformed_iff hkind, fun hok => ?_, exec_idle h hidle⟩
  · rw [hcfg]
    exact hstep.keeps_inv hk (icap_le hwf _) hregs
  · by_cases hdiscard : kindOf i = .clear ∨ kindOf i = .push
    · obtain ⟨-, -, hnone⟩ := hstep.result_of_clear_or_push hdiscard
      exact absurd (hnone.symm.trans hok) nofun
    · rw [not_or] at hdiscard
      obtain ⟨hkeep, -⟩ := hstep.kept_of_ne ⟨hdiscard.1, hdiscard.2, hk⟩
      rw [hkeep] at hok ⊢
      have hold := hlength hok
      generalize unitOf i = u at hold ⊢
      cases u with
      | e => exact hold
      | d => exact hold

/-- Every command keeps the invariant. -/
theorem exec_keeps_inv (hinv : s.Inv) (h : exec i s = .next t) : t.Inv := by
  obtain ⟨hwf, hunits⟩ := State.inv_iff.1 hinv
  obtain ⟨-, -, hcfg, -⟩ := exec_frame h
  refine State.inv_iff.2 ⟨hcfg ▸ hwf, fun u => ?_⟩
  by_cases hu : unitOf i = u
  · subst hu
    by_cases hk : kindOf i = .run
    · exact exec_run_keeps_unitInv hinv hk h
    · exact exec_keeps_unitInv_of_ne_run hinv hk h
  · exact exec_keeps_unitInv_other h hu (hunits u)

theorem unitInv_resetUnits (u : UnitId) (s : State) : UnitInv u (resetUnits s) := by
  have hregs := getRegs_resetUnits (v := u) s
  have hkind := readEkind_resetUnits u s
  refine ⟨by rw [hregs]; exact UnitRegs.inv_reset, by rw [hregs, hkind]; simp [UnitRegs.reset], by rw [hregs]; nofun, ?_⟩
  cases u with
  | e => rfl
  | d => rfl

end step

/-- Settles O12: the units are as after `rst`. -/
theorem resetMeetsInvariant : Obligations.ResetMeetsInvariant := by
  unfold Obligations.ResetMeetsInvariant
  refine State.inv_iff.2 ⟨by decide, fun u => ?_⟩
  have hregs := getRegs_reset u
  refine ⟨by rw [hregs]; exact UnitRegs.inv_reset, by rw [hregs, readEkind_reset]; simp [UnitRegs.reset], by rw [hregs]; nofun, ?_⟩
  cases u with
  | e => rfl
  | d => rfl

/-- Settles O13: every command, `rst` and every answer keep the invariant. -/
theorem stepKeepsInvariant : Obligations.StepKeepsInvariant := by
  unfold Obligations.StepKeepsInvariant
  intro s t hinv h
  refine step_keeps (P := State.Inv) (fun _ _ hs => hs) (fun s hs => ?_) (fun _ _ hs => hs) (fun _ _ _ => exec_keeps_inv) hinv h
  exact State.inv_iff.2 ⟨hs.1, fun u => unitInv_resetUnits u s⟩

/-- From the invariant every command completes (R34, R37, R135). -/
theorem exec_answers {s : State} (hinv : s.Inv) (i : Instr) : ∃ t, exec i s = .next t := by
  have hpop (u : UnitId) : ∃ t, popUnit u s = .next t := by
    by_cases hunread : hasUnread u s
    · obtain ⟨v, -, hpop⟩ := popUnit_of_unread hinv hunread
      exact ⟨_, hpop⟩
    · exact ⟨_, popUnit_empty hunread⟩
  have hpush (u : UnitId) (b : Byte) : ∃ t, pushUnit u b s = .next t := by
    obtain ⟨r, -, hnext⟩ := pushUnit_next (u := u) (b := b) (s := s)
    exact ⟨_, hnext⟩
  have hrun (u : UnitId) : ∃ t, exec (runOf u) s = .next t := by
    by_cases hovf : (getRegs u s).ovf = true
    · exact ⟨_, exec_runOf_refused hovf⟩
    · obtain ⟨b, hb⟩ := hinv.exists_inMessage u
      obtain ⟨t, hexec, -⟩ := exec_runOf_effect (hinv.canRun hb (by simpa using hovf))
      exact ⟨t, hexec⟩
  cases i with
  | eclr | dclr | estat | dstat | eolen | dolen | eilen | dilen => exact ⟨_, rfl⟩
  | epush b => exact hpush .e b
  | dpush b => exact hpush .d b
  | enc => exact hrun .e
  | dec => exact hrun .d
  | epop => exact hpop .e
  | dpop => exact hpop .d

/-- Settles O14: a step takes nothing, `rst`, an illegal word or a command, and each is answered. -/
theorem invariantStepAlwaysAnswers : Obligations.InvariantStepAlwaysAnswers := by
  unfold Obligations.InvariantStepAlwaysAnswers
  intro s hinv
  match hport : s.port with
  | [] => exact ⟨_, step_of_empty hport⟩
  | .rst :: rest => exact ⟨_, step_of_rst hport⟩
  | .command w :: rest =>
    cases hw : decode w with
    | error e => exact ⟨_, step_of_illegal hport hw⟩
    | ok i =>
      rw [step_of_command hport hw]
      exact exec_answers (s := { s with port := rest }) hinv i

end Sys2Proof.Machine
end

section
/-! PROOFS. A result, and a recorded failure, belong to the exact contents of the input buffer (40_host_commands.md R64). -/

namespace Sys2Proof.Machine

/-- A result or a recorded failure of unit `u` is the outcome of the codec on its present input message. -/
structure MatchesInput (u : UnitId) (r : UnitRegs) (k : EKind) : Prop where
  result : r.res = .ok → ∃ b out, Memory.firstN r.ibuf r.ilen.toNat = some b ∧ codec u b = .ok out ∧
    Memory.firstN r.obuf r.olen.toNat = some out
  failure : r.res = .malformed → ∃ b f, Memory.firstN r.ibuf r.ilen.toNat = some b ∧ codec u b = .error f ∧ k = .fail f

/-- Unit E fails on no message, so its second clause says that it records no failure. -/
theorem State.resultsMatchInputs_iff {s : State} (hinv : s.Inv) :
    s.ResultsMatchInputs ↔ ∀ u, MatchesInput u (getRegs u s) (readEkind u s) := by
  constructor
  · rintro ⟨he, hd, hfail⟩ u
    cases u with
    | e =>
      refine ⟨fun h => ?_, fun h => absurd ((hinv.malformed_iff .e).1 h) (by simp)⟩
      obtain ⟨b, hb, hout⟩ := he h
      exact ⟨b, _, hb, rfl, hout⟩
    | d => exact ⟨hd, hfail⟩
  · intro h
    refine ⟨fun hok => ?_, (h .d).result, (h .d).failure⟩
    obtain ⟨b, out, hb, hcodec, hout⟩ := (h .e).result hok
    exact ⟨b, hb, hout.trans (congrArg some (Except.ok.inj hcodec).symm)⟩

section registers

variable {u : UnitId} {cap : Nat} {r r' : UnitRegs} {k : EKind}

theorem MatchesInput.of_none (hok : r.res ≠ .ok) (hmalformed : r.res ≠ .malformed) : MatchesInput u r k :=
  ⟨fun h => absurd h hok, fun h => absurd h hmalformed⟩

/-- A run leaves the outcome of its present input message. -/
theorem RunEffect.matchesInput {b : List Byte} (h : RunEffect cap r (codec u b) r' k)
    (hmessage : Memory.firstN r.ibuf r.ilen.toNat = some b) : MatchesInput u r' k := by
  obtain ⟨hibuf, hilen, -⟩ := h.input
  rw [← hibuf, ← hilen] at hmessage
  cases hc : codec u b with
  | ok out =>
    rw [hc] at h
    obtain ⟨hres, hout⟩ := h.result
    exact ⟨fun _ => ⟨b, out, hmessage, hc, hout⟩, fun hfail => by rw [hres] at hfail; cases hfail⟩
  | error f =>
    rw [hc] at h
    obtain ⟨rfl, hkind⟩ := h.of_error
    exact ⟨nofun, fun _ => ⟨b, f, hmessage, hc, hkind⟩⟩

end registers

/-- Every command keeps it: a run makes it, a push and a clear discard the outcome, the others write no message. -/
theorem exec_keeps_matchesInput {i : Instr} {s t : State} {u : UnitId} (hinv : s.Inv) (h : exec i s = .next t)
    (hs : MatchesInput u (getRegs u s) (readEkind u s)) : MatchesInput u (getRegs u t) (readEkind u t) := by
  obtain ⟨own, other⟩ := exec_regsActOn h
  by_cases hu : unitOf i = u
  · subst hu
    by_cases hrun : kindOf i = .run
    · rcases exec_run_cases hinv hrun h with ⟨-, rfl⟩ | ⟨b, hcan, heffect⟩
      · exact .of_none (by simp) (by simp)
      · exact heffect.matchesInput hcan.message
    by_cases hdiscard : kindOf i = .clear ∨ kindOf i = .push
    · obtain ⟨-, -, hnone⟩ := own.result_of_clear_or_push hdiscard
      exact .of_none (by rw [hnone]; nofun) (by rw [hnone]; nofun)
    · rw [not_or] at hdiscard
      obtain ⟨hkeep, -⟩ := own.kept_of_ne ⟨hdiscard.1, hdiscard.2, hrun⟩
      obtain ⟨-, hkind⟩ := (exec_outcome h).kept_of_ne ⟨hrun, hdiscard.2, hdiscard.1⟩
      rw [hkeep, hkind]
      exact ⟨hs.result, hs.failure⟩
  · rw [other u (Ne.symm hu), (exec_outcome_other h hu).2]
    exact hs

/-- Settles O16: kept unit by unit, together with the invariant; `rst` leaves no outcome. -/
theorem stepKeepsResultsMatchingInputs : Obligations.StepKeepsResultsMatchingInputs := by
  unfold Obligations.StepKeepsResultsMatchingInputs
  intro s t hinv hmatch h
  refine (step_keeps (P := fun s => s.Inv ∧ s.ResultsMatchInputs) (fun _ _ hs => hs) (fun s hs => ?_) (fun _ _ hs => hs)
    (fun i s t hs hexec => ?_) ⟨hinv, hmatch⟩ h).2
  · have hreset : (resetUnits s).Inv := State.inv_iff.2 ⟨hs.1.1, fun u => unitInv_resetUnits u s⟩
    refine ⟨hreset, (State.resultsMatchInputs_iff hreset).2 fun u => ?_⟩
    rw [getRegs_resetUnits]
    exact .of_none nofun nofun
  · obtain ⟨hinv, hmatch⟩ := hs
    have hkeep := exec_keeps_inv hinv hexec
    exact ⟨hkeep, (State.resultsMatchInputs_iff hkeep).2 fun u =>
      exec_keeps_matchesInput hinv hexec ((State.resultsMatchInputs_iff hinv).1 hmatch u)⟩

end Sys2Proof.Machine
end

section
/-! PROOFS. Scripts of commands through the port (30_encoding.md R58, R59): loading a message, running, draining the result. -/

namespace Sys2Proof.Machine

/-- The commands of a script complete one after the other, from `s` to `t`. -/
inductive Runs : State → List Instr → State → Prop where
  | nil (s : State) : Runs s [] s
  | cons {i : Instr} {script : List Instr} {s t x : State} (first : exec i s = .next t) (rest : Runs t script x) :
      Runs s (i :: script) x

section scripts

variable {i : Instr} {script script' : List Instr} {s t x : State} {u : UnitId}

theorem Runs.single (h : exec i s = .next t) : Runs s [i] t := .cons h (.nil t)

theorem Runs.append (h : Runs s script t) (h' : Runs t script' x) : Runs s (script ++ script') x := by
  induction h with
  | nil => exact h'
  | cons first _ ih => exact .cons first (ih h')

theorem Runs.keeps_inv (h : Runs s script t) (hinv : s.Inv) : t.Inv := by
  induction h with
  | nil => exact hinv
  | cons first _ ih => exact ih (exec_keeps_inv hinv first)

/-- A script for one unit leaves the capacities and the other unit alone (R40). -/
theorem Runs.frame (h : Runs s script t) (hunit : ∀ i ∈ script, unitOf i = u) :
    (u = .e → t.d = s.d) ∧ (u = .d → t.e = s.e) ∧ t.cfg = s.cfg := by
  induction h with
  | nil => exact ⟨fun _ => rfl, fun _ => rfl, rfl⟩
  | cons first _ ih =>
    obtain ⟨hd, he, hcfg, -⟩ := exec_frame first
    obtain ⟨hd', he', hcfg'⟩ := ih fun i hi => hunit i (List.mem_cons_of_mem _ hi)
    have hu := hunit _ List.mem_cons_self
    exact ⟨fun h => (hd' h).trans (hd (hu.trans h)), fun h => (he' h).trans (he (hu.trans h)), hcfg'.trans hcfg⟩

/-- No command reads the port, or writes it. -/
theorem exec_withPort (q : List PortInput) (h : exec i s = .next t) : exec i { s with port := q } = .next { t with port := q } := by
  obtain ⟨x, r, rfl, hfrom⟩ := (exec_actsOnUnit i).exists_result h
  rw [hfrom { s with port := q } rfl ((graft_eq_self_iff _ _ _).2 ⟨fun _ => rfl, fun _ => rfl⟩)]
  cases unitOf i with
  | e => rfl
  | d => rfl

theorem core_run_succ (h : step s = .next t) (n : Nat) : Sys2Proof.core.run (n + 1) s = Sys2Proof.core.run n t := by
  simp only [Host.Core.run, show Sys2Proof.core.step s = .next t from h]

/-- Stepping a presented script through the port runs its commands, and leaves nothing pending. -/
theorem core_run_presentScript (h : Runs s script t) :
    Sys2Proof.core.run script.length (presentScript script s) = .next { t with port := [] } := by
  induction h with
  | nil => rfl
  | @cons i script s t x first _ ih =>
    have hstep : step (presentScript (i :: script) s) = .next (presentScript script t) :=
      (step_of_command rfl (decode_encode i)).trans (exec_withPort (s := s) _ first)
    exact (core_run_succ hstep script.length).trans ih

end scripts

/-- The clear command of each unit (R49). -/
def clearOf : UnitId → Instr
  | .e => .eclr
  | .d => .dclr

/-- The push command of each unit (R49). -/
def pushOf : UnitId → Byte → Instr
  | .e, b => .epush b
  | .d, c => .dpush c

/-- The pop command of each unit (R49). -/
def popOf : UnitId → Instr
  | .e => .epop
  | .d => .dpop

section ofUnit

variable (u : UnitId) (b : Byte) (s : State)

theorem exec_clearOf : exec (clearOf u) s = .next (clearUnit u s) := by cases u <;> rfl
theorem exec_pushOf : exec (pushOf u b) s = pushUnit u b s := by cases u <;> rfl
theorem exec_popOf : exec (popOf u) s = popUnit u s := by cases u <;> rfl
theorem loadScript_eq (bs : List Byte) : loadScript u bs = clearOf u :: bs.map (pushOf u) := by cases u <;> rfl
@[simp] theorem unitOf_clearOf : unitOf (clearOf u) = u := by cases u <;> rfl
@[simp] theorem unitOf_pushOf : unitOf (pushOf u b) = u := by cases u <;> rfl
@[simp] theorem unitOf_popOf : unitOf (popOf u) = u := by cases u <;> rfl
@[simp] theorem unitOf_runOf : unitOf (runOf u) = u := by cases u <;> rfl

theorem unitOf_loadScript {bs : List Byte} : ∀ i ∈ loadScript u bs, unitOf i = u := by
  intro i hi
  rw [loadScript_eq, List.mem_cons, List.mem_map] at hi
  rcases hi with rfl | ⟨b, -, rfl⟩
  · exact unitOf_clearOf u
  · exact unitOf_pushOf u b

end ofUnit

section load

variable {u : UnitId} {s t : State} {b : List Byte}

/-- What a load of the bytes `b` from `s` leaves (R30, R64, R65). -/
structure Loaded (u : UnitId) (s : State) (b : List Byte) (t : State) : Prop where
  runs : Runs s (loadScript u b) t
  ilen : (getRegs u t).ilen.toNat = min b.length (icap s.cfg u)
  message : inMessage u t = some (b.take (icap s.cfg u))
  ovf : (getRegs u t).ovf = decide (icap s.cfg u < b.length)
  res : (getRegs u t).res = .none
  resps : t.resps = s.resps ++ (List.range (b.length + 1)).map fun k => if icap s.cfg u < k then 0x2000#16 else 0x0000#16

theorem loaded_nil : Loaded u s [] (clearUnit u s) where
  runs := by
    rw [loadScript_eq]
    exact .single (exec_clearOf u s)
  ilen := by simp [clearUnit]
  message := by simpa using clearUnit_messages.1
  ovf := by simp [clearUnit]
  res := by simp [clearUnit]
  resps := by simp [clearUnit_eq]

/-- One push more (R64, R65). -/
theorem Loaded.push (hwf : s.cfg.wf = true) (h : Loaded u s b t) (c : Byte) : ∃ x, Loaded u s (b ++ [c]) x := by
  obtain ⟨hruns, hilen, hmessage, hovf, hres, hresps⟩ := h
  obtain ⟨-, -, hcfg⟩ := hruns.frame (unitOf_loadScript u)
  have hcap := icap_le hwf u
  have hscript : loadScript u (b ++ [c]) = loadScript u b ++ [pushOf u c] := by simp [loadScript_eq]
  have hnext {x : State} (hx : pushUnit u c t = .next x) : Runs s (loadScript u (b ++ [c])) x :=
    hscript ▸ hruns.append (.single ((exec_pushOf u c t).trans hx))
  have hanswer {x : State} (w : Word) (hx : x.resps = t.resps ++ [w])
      (hw : w = if icap s.cfg u < b.length + 1 then 0x2000#16 else 0x0000#16) :
      x.resps = s.resps ++ (List.range ((b ++ [c]).length + 1)).map fun k =>
        if icap s.cfg u < k then 0x2000#16 else 0x0000#16 := by
    rw [hx, hw, hresps, List.append_assoc, List.length_append, List.length_singleton, List.range_succ (n := b.length + 1), List.map_append]
    rfl
  rw [inMessage] at hmessage
  by_cases hroom : b.length < icap s.cfg u
  · rw [Nat.min_eq_left hroom.le] at hilen
    rw [List.take_of_length_le hroom.le, hilen] at hmessage
    have hflag : (getRegs u t).ovf = false := by simp [hovf, hroom.le]
    have hlen : ((getRegs u t).ilen + 1#16).toNat = b.length + 1 :=
      (BitVec.toNat_add_of_lt (by simp only [BitVec.toNat_ofNat]; omega)).trans (by rw [hilen]; rfl)
    have hpush := pushUnit_of_room (u := u) (s := t) c (by rw [hcfg, hilen]; exact hroom)
    rw [hflag] at hpush
    refine ⟨_, hnext hpush, ?_, ?_, ?_, ?_, hanswer 0x0000#16 (by simp) ?_⟩
    · simp only [getRegs_respond, getRegs_writeEkind, getRegs_setRegs, hlen, List.length_append, List.length_singleton]
      omega
    · rw [inMessage, List.take_of_length_le (by simpa using hroom)]
      simp only [getRegs_respond, getRegs_writeEkind, getRegs_setRegs, hlen, hilen]
      exact Memory.firstN_insert_succ c hmessage
    · simp [hflag, hroom]
    · simp
    · simp [hroom]
  · rw [not_lt] at hroom
    rw [Nat.min_eq_right hroom] at hilen
    have hpush := pushUnit_of_full (u := u) (s := t) c (by rw [hcfg, hilen])
    refine ⟨_, hnext hpush, ?_, ?_, ?_, ?_, hanswer 0x2000#16 (by simp) ?_⟩
    · simp [hilen, hroom.trans (Nat.le_succ _)]
    · rw [inMessage, List.take_append_of_le_length hroom]
      simpa using hmessage
    · simp [Nat.lt_succ_of_le hroom]
    · simp
    · simp [Nat.lt_succ_of_le hroom]

theorem exists_loaded (hwf : s.cfg.wf = true) (u : UnitId) (b : List Byte) : ∃ t, Loaded u s b t := by
  induction b using List.reverseRecOn with
  | nil => exact ⟨_, loaded_nil⟩
  | append_singleton b c ih =>
    obtain ⟨t, ht⟩ := ih
    exact ht.push hwf c

end load

/-- Settles O30: the state that a load leaves, reached through the port. -/
theorem loadedBytesStandInOrder : Obligations.LoadedBytesStandInOrder := by
  unfold Obligations.LoadedBytesStandInOrder
  intro u s b hinv
  obtain ⟨t, hruns, hilen, hmessage, hovf, hres, hresps⟩ := exists_loaded hinv.1 u b
  have hlength : (loadScript u b).length = b.length + 1 := by rw [loadScript_eq, List.length_cons, List.length_map]
  have hcore := core_run_presentScript hruns
  rw [hlength] at hcore
  have hregs : getRegs u { t with port := [] } = getRegs u t := by cases u <;> rfl
  refine ⟨_, hcore, rfl, ?_⟩
  rw [inMessage, hregs]
  exact ⟨hilen, hmessage, hovf, hres, hresps⟩

section drain

variable {u : UnitId} {s t : State} {b out part rest : List Byte}

/-- Pops read the rest of a result in order, and one more pop finds nothing (R66, R67). -/
theorem exists_drained (hinv : s.Inv) (hok : (getRegs u s).res = .ok) (hout : outMessage u s = some (part ++ rest))
    (hrptr : (getRegs u s).rptr.toNat = part.length) :
    ∃ t, Runs s (List.replicate (rest.length + 1) (popOf u)) t ∧
      t.resps = s.resps ++ rest.map (fun v => 0x0800#16 ||| v.setWidth 16) ++ [0x4800#16] := by
  have holen : (part ++ rest).length = (getRegs u s).olen.toNat := (Memory.firstN_eq_some.1 hout).1
  rw [List.length_append] at holen
  induction rest generalizing part s with
  | nil =>
    have hempty : ¬hasUnread u s := fun h => by
      have hlt : (getRegs u s).rptr.toNat < (getRegs u s).olen.toNat := h.2
      simp only [List.length_nil] at holen
      omega
    have hword := (hinv.flags u).sWord_emptyPop
    simp only [hok] at hword
    refine ⟨_, .single ((exec_popOf u s).trans (popUnit_empty hempty)), ?_⟩
    rw [respondStatus_resps]
    simp [statusWord, hok, hword]
  | cons v rest ih =>
    rw [List.length_cons] at holen
    have hlt : (getRegs u s).rptr.toNat < (getRegs u s).olen.toNat := by omega
    obtain ⟨w, hfind, hpop⟩ := popUnit_of_unread hinv ⟨hok, hlt⟩
    obtain rfl : v = w := by
      have hget := (Memory.firstN_eq_some.1 hout).2 _ hlt
      rw [hfind, hrptr, List.getElem?_append_right (Nat.le_refl _), Nat.sub_self] at hget
      exact (Option.some.inj hget).symm
    have hexec := (exec_popOf u s).trans hpop
    have hadd : ((getRegs u s).rptr + 1#16).toNat = part.length + 1 := by
      have hlen := (getRegs u s).olen.isLt
      rw [← hrptr]
      exact BitVec.toNat_add_of_lt (by simp only [BitVec.toNat_ofNat]; omega)
    obtain ⟨t, hruns, hresps⟩ := ih (part := part ++ [v]) (exec_keeps_inv hinv hexec) (by simpa using hok)
      (by simpa [outMessage] using hout) (by simpa using hadd) (by simp; omega)
    refine ⟨t, .cons hexec hruns, ?_⟩
    rw [hresps]
    simp

/-- A load of a message that fits, and the run on it (R59). -/
theorem exists_loaded_and_run (hinv : s.Inv) (hfit : b.length ≤ icap s.cfg u) :
    ∃ t, Runs s (loadScript u b ++ [runOf u]) t ∧ t.Inv ∧
      t.resps = s.resps ++ List.replicate (b.length + 1) 0x0000#16 ++ [runAnswer (codec u b)] ∧
      ∃ r, RunEffect (ocap s.cfg u) r (codec u b) (getRegs u t) (readEkind u t) := by
  obtain ⟨x, hload, -, hmessage, hovf, -, hresps⟩ := exists_loaded hinv.1 u b
  obtain ⟨-, -, hcfg⟩ := hload.frame (unitOf_loadScript u)
  have hinv' := hload.keeps_inv hinv
  rw [List.take_of_length_le hfit] at hmessage
  have hcan := hinv'.canRun hmessage (by simpa [hovf] using hfit)
  obtain ⟨t, hexec, heffect⟩ := exec_runOf_effect hcan
  have hzeros : ((List.range (b.length + 1)).map fun k => if icap s.cfg u < k then 0x2000#16 else 0x0000#16) =
      List.replicate (b.length + 1) 0x0000#16 := by
    refine List.eq_replicate_iff.2 ⟨by simp, fun w hw => ?_⟩
    obtain ⟨k, hk, rfl⟩ := List.mem_map.1 hw
    rw [if_neg (by have := List.mem_range.1 hk; omega)]
  refine ⟨t, hload.append (.single hexec), exec_keeps_inv hinv' hexec, ?_, _, hcfg ▸ heffect⟩
  rw [resps_of_runEffect hexec hcan.noOverflow heffect, hresps, hzeros]

/-- A whole session whose run succeeds (R59). -/
theorem exists_session (hinv : s.Inv) (hfit : b.length ≤ icap s.cfg u) (hout : codec u b = .ok out) :
    ∃ t, Runs s (loadScript u b ++ [runOf u] ++ List.replicate (out.length + 1) (popOf u)) t ∧
      t.resps = s.resps ++ List.replicate (b.length + 1) 0x0000#16 ++ [0x0800#16] ++ out.map (fun v => 0x0800#16 ||| v.setWidth 16) ++
        [0x4800#16] := by
  obtain ⟨x, hruns, hinv', hresps, r, heffect⟩ := exists_loaded_and_run (u := u) hinv hfit
  rw [hout] at heffect hresps
  obtain ⟨hok, hmessage⟩ := heffect.result
  obtain ⟨-, -, -, hrptr⟩ := heffect.input
  obtain ⟨t, hdrain, hpops⟩ := exists_drained (part := []) hinv' hok hmessage (by rw [hrptr]; rfl)
  exact ⟨t, hruns.append hdrain, by rw [hpops, hresps]; rfl⟩

/-- A whole session whose run fails: the pop is empty and repeats the kind (R59, R67). -/
theorem exists_failed_session {k : FailKind} (hinv : s.Inv) (hfit : b.length ≤ icap s.cfg u) (hfail : codec u b = .error k) :
    ∃ t, Runs s (loadScript u b ++ [runOf u, popOf u]) t ∧
      t.resps = s.resps ++ List.replicate (b.length + 1) 0x0000#16 ++
        [0x1000#16 ||| ((EKind.fail k).code.setWidth 16 <<< 8), 0x5000#16 ||| ((EKind.fail k).code.setWidth 16 <<< 8)] := by
  obtain ⟨x, hruns, hinv', hresps, r, heffect⟩ := exists_loaded_and_run (u := u) hinv hfit
  rw [hfail] at heffect hresps
  obtain ⟨hregs, hkind⟩ := heffect.of_error
  have hres : (getRegs u x).res = .malformed := by rw [hregs]; rfl
  have hword := (hinv'.flags u).sWord_emptyPop
  simp only [hres] at hword
  have hpop := popUnit_of_not_ok (u := u) (s := x) (by rw [hres]; nofun)
  have hall := hruns.append (.single ((exec_popOf u x).trans hpop))
  refine ⟨_, by simpa using hall, ?_⟩
  rw [respond_resps, hresps, statusWord, hres, hword, hkind]
  simp [runAnswer]

end drain

section session

variable {u : UnitId} {b : List Byte} {script : List Instr}

theorem unitOf_session (n : Nat) : ∀ i ∈ loadScript u b ++ [runOf u] ++ List.replicate n (popOf u), unitOf i = u := by
  intro i hi
  simp only [List.mem_append, List.mem_singleton, List.mem_replicate] at hi
  rcases hi with (hi | rfl) | ⟨-, rfl⟩
  · exact unitOf_loadScript u i hi
  · exact unitOf_runOf u
  · exact unitOf_popOf u

theorem unitOf_failed_session : ∀ i ∈ loadScript u b ++ [runOf u, popOf u], unitOf i = u := by
  simpa using unitOf_session (u := u) (b := b) 1

/-- A session of one unit through the port leaves nothing pending and the other unit untouched. -/
theorem core_run_session {s t : State} (hruns : Runs s script t) (hunit : ∀ i ∈ script, unitOf i = u) :
    ∃ x, Sys2Proof.core.run script.length (presentScript script s) = .next x ∧ x.port = [] ∧ (u = .e → x.d = s.d) ∧
      (u = .d → x.e = s.e) ∧ x.resps = t.resps := by
  obtain ⟨hd, he, -⟩ := hruns.frame hunit
  exact ⟨_, core_run_presentScript hruns, rfl, hd, he, rfl⟩

end session

/-- Settles O31: unit E's session, whose run always succeeds. -/
theorem encodeSession : Obligations.EncodeSession := by
  unfold Obligations.EncodeSession
  intro s b hinv hfit script
  obtain ⟨t, hruns, hresps⟩ := exists_session (u := .e) hinv hfit rfl
  obtain ⟨x, hcore, hport, hd, -, hx⟩ := core_run_session hruns (unitOf_session _)
  exact ⟨x, hcore, hport, hd rfl, hx.trans hresps⟩

/-- Settles O32: unit D's session, whose run succeeds or fails as `decode` does. -/
theorem decodeSession : Obligations.DecodeSession := by
  unfold Obligations.DecodeSession
  refine fun s x hinv hfit => ⟨fun out hout => ?_, fun k hk => ?_⟩
  · obtain ⟨t, hruns, hresps⟩ := exists_session (u := .d) hinv hfit hout
    obtain ⟨y, hcore, hport, -, he, hy⟩ := core_run_session hruns (unitOf_session _)
    exact ⟨y, hcore, hport, he rfl, hy.trans hresps⟩
  · obtain ⟨t, hruns, hresps⟩ := exists_failed_session (u := .d) hinv hfit hk
    obtain ⟨y, hcore, hport, -, he, hy⟩ := core_run_session hruns unitOf_failed_session
    exact ⟨y, hcore, hport, he rfl, hy.trans hresps⟩

end Sys2Proof.Machine
end
